-- ==== Sys2Proof/Word.lean ====
section
/-! DEFINITION. The widths of the spec's values (00_scope.md R9, R10) and byte strings (R11). -/

namespace Sys2Proof

/-- A byte, `u8` (R10). -/
abbrev Byte := BitVec 8

/-- A `u16`: hwid, seq and the counts of the port (R9, R83). -/
abbrev Half := BitVec 16

/-- A `u32`: the telemetry counters and the identifier operand (R9, R83). -/
abbrev Word := BitVec 32

/-- A 29-bit CAN identifier, the argument of `SOURCE_OF` (R8). -/
abbrev CanId := BitVec 29

/-- A byte string (R11). -/
abbrev Bytes := List Byte

end Sys2Proof
end

