-- ==== Sys2Proof/Syntax.lean ====
section
/-! DEFINITION. The eight operations of the operation port (30_encoding.md R82, spec/opcode_table.json), with the
operands that R83 and R84 give them. -/

namespace Sys2Proof

/-- One operation with its operands. An operation plays the part of an instruction (00_scope.md R2, R14). -/
inductive Instr where
  /-- `ing.push` (R110): ingest one chunk from the byte source. -/
  | ingPush
  /-- `ing.pop` (R114): remove one byte from the ingest buffer. -/
  | ingPop
  /-- `dfr.feed b` (R130): feed one byte to the deframer. -/
  | dfrFeed (b : Byte)
  /-- `dfr.reset` (R140): return the deframer to `SYNC(0)`. -/
  | dfrReset
  /-- `msg.decode dest, data` (R141): decode a completed frame's destination and payload. -/
  | msgDecode (dest : Byte) (data : Bytes)
  /-- `tx.send dest, data` (R160): encode and send a frame. -/
  | txSend (dest : Byte) (data : Bytes)
  /-- `tx.cmd c` (R166): encode and send a single-byte LOCAL command. -/
  | txCmd (c : Byte)
  /-- `can.rx` (R180) with the fields of format K (R81): `flags[0]` is `ide`, `flags[1]` is `rtr` and `flags[7:2]` is
  `rsv`, then the 32-bit identifier, the data length code and the data bytes. -/
  | canRx (ide rtr : Bool) (rsv : BitVec 6) (id : Word) (dlc : Byte) (data : Bytes)
deriving DecidableEq, Repr

end Sys2Proof
end

