-- ==== Sys2Proof/WellFormed.lean ====
section
/-! DEFINITION. Which terms of `Instr` are requests at all: those whose data fit the count field of their format
(30_encoding.md R81, R83, R85). Formats N and B hold no count, so every term of theirs fits. Whether the operand VALUES
are legal (R87, points 2 and 3) is asked when the operation runs: `Machine.operandsLegal`. -/

namespace Sys2Proof

/-- The bytes of data that follow a format K header: `m = dlc` for a data frame and none for a remote frame (R81). -/
def kDataLength (rtr : Bool) (dlc : Byte) : Nat := if rtr then 0 else dlc.toNat

/-- The operation is the reading of some request: a format D payload has at most 65535 bytes, the range of its count
(R83), and a format K frame has as many data bytes as its flags and data length code say (R81). -/
def Instr.wellFormed : Instr → Bool
  | .ingPush => true
  | .ingPop => true
  | .dfrFeed _ => true
  | .dfrReset => true
  | .msgDecode _ data => decide (data.length ≤ 65535)
  | .txSend _ data => decide (data.length ≤ 65535)
  | .txCmd _ => true
  | .canRx _ rtr _ _ dlc data => decide (data.length = kDataLength rtr dlc)

end Sys2Proof
end

