-- ==== Sys2Proof/Decode.lean ====
section
/-! DEFINITION. The decoder and the encoder of the operation port (30_encoding.md R81 to R88) and the little-endian
fields they share with the wire formats (00_scope.md R11, 20_memory.md R50 to R52). -/

namespace Sys2Proof

/-! ### Little-endian fields (R11) -/

/-- `lo(v)` (R11). -/
def lo (v : Half) : Byte := BitVec.ofNat 8 (v.toNat % 256)

/-- `hi(v)` (R11). -/
def hi (v : Half) : Byte := BitVec.ofNat 8 (v.toNat / 256 % 256)

/-- The `u16` whose low byte is `a` and whose high byte is `b`. -/
def half (a b : Byte) : Half := BitVec.ofNat 16 (a.toNat + 256 * b.toNat)

/-- The `u32` with the bytes `a`, `b`, `c`, `d`, least significant first. -/
def word (a b c d : Byte) : Word :=
  BitVec.ofNat 32 (a.toNat + 2 ^ 8 * b.toNat + 2 ^ 16 * c.toNat + 2 ^ 24 * d.toNat)

/-- The two bytes of a `u16`, low byte first. -/
def halfBytes (v : Half) : Bytes := [lo v, hi v]

/-- The four bytes of a `u32`, least significant first. -/
def wordBytes (v : Word) : Bytes :=
  [BitVec.ofNat 8 (v.toNat % 256), BitVec.ofNat 8 (v.toNat / 2 ^ 8 % 256),
    BitVec.ofNat 8 (v.toNat / 2 ^ 16 % 256), BitVec.ofNat 8 (v.toNat / 2 ^ 24 % 256)]

/-- A count as the two bytes of the port (R83, R91). -/
def countBytes (n : Nat) : Bytes := halfBytes (BitVec.ofNat 16 n)

/-! ### Format K flags (R81) -/

/-- `flags[0]`, IDE. -/
def flagIde (flags : Byte) : Bool := flags.getLsbD 0

/-- `flags[1]`, RTR. -/
def flagRtr (flags : Byte) : Bool := flags.getLsbD 1

/-- `flags[7:2]`, reserved. -/
def flagRsv (flags : Byte) : BitVec 6 := flags.extractLsb' 2 6

/-- The flags byte with the given fields. -/
def flagsByte (ide rtr : Bool) (rsv : BitVec 6) : Byte :=
  BitVec.ofNat 8 (ide.toNat + 2 * rtr.toNat + 4 * rsv.toNat)

/-! ### The opcode map (R82) -/

/-- The eight opcodes. -/
inductive Op where
  | ingPush | ingPop | dfrFeed | dfrReset | msgDecode | txSend | txCmd | canRx
deriving DecidableEq, Repr

/-- The opcode byte of each operation (R82). -/
def opcodeByte : Op → Byte
  | .ingPush => 0x01
  | .ingPop => 0x02
  | .dfrFeed => 0x10
  | .dfrReset => 0x11
  | .msgDecode => 0x12
  | .txSend => 0x20
  | .txCmd => 0x21
  | .canRx => 0x30

/-- The rows of the opcode map, in its order (R82). -/
def opcodeRows : List Op :=
  [.ingPush, .ingPop, .dfrFeed, .dfrReset, .msgDecode, .txSend, .txCmd, .canRx]

/-- The operation an opcode byte names; none for a reserved opcode (R86). -/
def opOfByte (b : Byte) : Option Op := opcodeRows.find? (fun o => opcodeByte o == b)

/-- The operation of an instruction. -/
def opOf : Instr → Op
  | .ingPush => .ingPush
  | .ingPop => .ingPop
  | .dfrFeed _ => .dfrFeed
  | .dfrReset => .dfrReset
  | .msgDecode _ _ => .msgDecode
  | .txSend _ _ => .txSend
  | .txCmd _ => .txCmd
  | .canRx _ _ _ _ _ _ => .canRx

/-! ### Request length (R85) -/

/-- The length in bytes of a request of operation `o`, from its count field (R85); byte `k` of the request is `at_ k`. -/
def requestLength (o : Op) (at_ : Nat → Byte) : Nat :=
  match o with
  | .ingPush => 1
  | .ingPop => 1
  | .dfrFeed => 2
  | .dfrReset => 1
  | .msgDecode => 4 + (half (at_ 2) (at_ 3)).toNat
  | .txSend => 4 + (half (at_ 2) (at_ 3)).toNat
  | .txCmd => 2
  | .canRx => 7 + kDataLength (flagRtr (at_ 1)) (at_ 6)

/-! ### The decoder -/

/-- Why a byte string names no operation. -/
inductive DecodeError where
  /-- The string is empty: it has no opcode, so it is no request (R80; log 9). -/
  | emptyRequest
  /-- The opcode is reserved (R86). -/
  | illegalOpcode
  /-- The byte count differs from the length of R85 (R87, point 1). -/
  | badLength
deriving DecidableEq, Repr

/-- The operand fields after the opcode (R81, R83, R84). A byte count that differs from R85's is rejected. -/
def decodeOperands (o : Op) (args : Bytes) : Except DecodeError Instr :=
  match o, args with
  | .ingPush, [] => .ok .ingPush
  | .ingPop, [] => .ok .ingPop
  | .dfrFeed, [b] => .ok (.dfrFeed b)
  | .dfrReset, [] => .ok .dfrReset
  | .msgDecode, dest :: n0 :: n1 :: data =>
    if data.length = (half n0 n1).toNat then .ok (.msgDecode dest data) else .error .badLength
  | .txSend, dest :: n0 :: n1 :: data =>
    if data.length = (half n0 n1).toNat then .ok (.txSend dest data) else .error .badLength
  | .txCmd, [c] => .ok (.txCmd c)
  | .canRx, flags :: i0 :: i1 :: i2 :: i3 :: dlc :: data =>
    if data.length = kDataLength (flagRtr flags) dlc then
      .ok (.canRx (flagIde flags) (flagRtr flags) (flagRsv flags) (word i0 i1 i2 i3) dlc data)
    else .error .badLength
  | _, _ => .error .badLength

/-- The operation a request names: its opcode first (R86, R88), then its operand fields and its length (R85). -/
def decode : Bytes → Except DecodeError Instr
  | [] => .error .emptyRequest
  | op :: args =>
    match opOfByte op with
    | none => .error .illegalOpcode
    | some o => decodeOperands o args

/-! ### The encoder -/

/-- The operand bytes of an instruction, in the order of its format (R81). -/
def encodeOperands : Instr → Bytes
  | .ingPush => []
  | .ingPop => []
  | .dfrFeed b => [b]
  | .dfrReset => []
  | .msgDecode dest data => dest :: countBytes data.length ++ data
  | .txSend dest data => dest :: countBytes data.length ++ data
  | .txCmd c => [c]
  | .canRx ide rtr rsv id dlc data => flagsByte ide rtr rsv :: wordBytes id ++ dlc :: data

/-- The request of an instruction (R81, R82). -/
def encode (i : Instr) : Bytes := opcodeByte (opOf i) :: encodeOperands i

/-! ### Requests given as table words -/

/-- Byte `k` of a request whose bits are `w`: bits `8k+7` down to `8k`, and zero above `nbits`. -/
def tableByte (nbits w k : Nat) : Byte := BitVec.ofNat 8 (w % 2 ^ nbits / 2 ^ (8 * k) % 256)

/-- The whole request whose first `nbits` bits are `w` and whose later bits are zero. It is as long as R85 says; for a
reserved opcode it is the `nbits` bits alone. -/
def tableRequest (nbits w : Nat) : Bytes :=
  let n := match opOfByte (tableByte nbits w 0) with
    | some o => requestLength o (tableByte nbits w)
    | none => (nbits + 7) / 8
  (List.range n).map (tableByte nbits w)

/-- The instruction the decoder reads from a request whose bits are `w`. -/
def decodeTableWord (nbits w : Nat) : Option Instr :=
  match decode (tableRequest nbits w) with
  | .ok i => some i
  | .error _ => none

end Sys2Proof
end

