-- ==== Sys2Proof/Config.lean ====
section
/-! DEFINITION. What an implementation fixes: the constants of 00_scope.md R7, the parameters of R8, and the free values
of 40_ingest.md R113. -/

namespace Sys2Proof

/-- `SOURCE_OF` as plain data (R8, decision D27; log 6): the identifier without its `lowBits` low bits, except at the
identifiers that `overrides` lists. Every total function on 29-bit identifiers has this form. -/
structure SourceMap where
  lowBits   : Nat
  overrides : List (CanId × Nat)
deriving DecidableEq, Repr

/-- The parameters of R8, fixed before the first operation and never changed (70_reset_and_hazards.md R234). -/
structure Params where
  /-- `C`, one read chunk. -/
  chunk        : Nat
  /-- `NUMBER_OF_SOURCES`. -/
  numSources   : Nat
  /-- `MAX_PACKET_LENGTH`. -/
  maxPacket    : Nat
  /-- `SOURCE_OF`. -/
  sourceMap    : SourceMap
  /-- `HWID`. -/
  hwid         : Half
  /-- `SEQ_INIT`. -/
  seqInit      : Half
  /-- `TX_MAX_PAYLOAD`. -/
  txMaxPayload : Nat
deriving DecidableEq, Repr

/-- The constraints R8 puts on the parameters. -/
abbrev Params.valid (p : Params) : Prop :=
  (1 ≤ p.chunk ∧ p.chunk ≤ 65535) ∧ 1 ≤ p.numSources ∧ (5 ≤ p.maxPacket ∧ p.maxPacket ≤ 65535) ∧
    (p.txMaxPayload = 250 ∨ p.txMaxPayload = 251)

namespace Config

/-- `MAGIC` (R7). -/
def magic : Bytes := [0x22, 0x69]
/-- `HDR_LEN` (R7). -/
def hdrLen : Nat := 5
/-- `FRAME_CAP` (R7). -/
def frameCap : Nat := 256
/-- `PAYLOAD_CAP` (R7). -/
def payloadCap : Nat := frameCap - hdrLen
/-- `DEST_LOCAL` (R7). -/
def destLocal : Byte := 0x01
/-- `DEST_RELAY` (R7). -/
def destRelay : Byte := 0x11
/-- `CMD_ACK` (R7). -/
def cmdAck : Byte := 0x10
/-- `CMD_NACK` (R7). -/
def cmdNack : Byte := 0xFF
/-- `CMD_TELEM` (R7). -/
def cmdTelem : Byte := 0x18
/-- `CMD_REBOOT` (R7). -/
def cmdReboot : Byte := 0x12
/-- `CMD_GETTELEM` (R7). -/
def cmdGetTelem : Byte := 0x17
/-- `TELEM_LEN` (R7). -/
def telemLen : Nat := 62
/-- `FRAG_HDR` (R7). -/
def fragHdr : Nat := 3
/-- `FRAG_PAYLOAD` (R7). -/
def fragPayload : Nat := 5

/-! The open parameters of the device that is reset (log 5): constants without a body, so that no proof sees a value.
The ranges of R8 are put on them in `Config.params`. -/

/-- Fixes `C` at reset, within R8's range. DESIGN CHOICE, log 5. -/
opaque chunkOpen : Nat
/-- Fixes `NUMBER_OF_SOURCES` at reset. DESIGN CHOICE, log 5. -/
opaque numSourcesOpen : Nat
/-- Fixes `MAX_PACKET_LENGTH` at reset. DESIGN CHOICE, log 5. -/
opaque maxPacketOpen : Nat
/-- Fixes `SOURCE_OF` at reset, with `sourceOverridesOpen`. DESIGN CHOICE, log 5. -/
opaque sourceLowBitsOpen : Nat
/-- Fixes `SOURCE_OF` at reset, with `sourceLowBitsOpen`. DESIGN CHOICE, log 5. -/
opaque sourceOverridesOpen : List (CanId × Nat)
/-- `HWID` at reset. DESIGN CHOICE, log 5. -/
opaque hwidOpen : Half
/-- `SEQ_INIT` at reset. DESIGN CHOICE, log 5. -/
opaque seqInitOpen : Half

/-- The parameters of the device that is reset: open within R8's ranges, and `TX_MAX_PAYLOAD` at the value 250 that
42_encoder.md R161 gives it. -/
def params : Params where
  chunk := chunkOpen % 65535 + 1
  numSources := numSourcesOpen + 1
  maxPacket := maxPacketOpen % 65531 + 5
  sourceMap := { lowBits := sourceLowBitsOpen, overrides := sourceOverridesOpen }
  hwid := hwidOpen
  seqInit := seqInitOpen
  txMaxPayload := 250

/-- The free value of 40_ingest.md R113: the `n`-th byte that a failed or cancelled read leaves in the region it was
to fill. Nothing constrains it (decisions D11 and D12, K9). DESIGN CHOICE, log 8. -/
opaque freeByte (n : Nat) : Byte

end Config

end Sys2Proof
end

