-- ==== Sys2Proof/Machine/State.lean ====
section
/-! DEFINITION. The state of the block (10_state.md) with the operation in progress, the host's side of the port and the
reasons a step can stop. State is plain data. -/

namespace Sys2Proof.Machine

/-- `DFR_STATE` (10_state.md R23). -/
inductive Dfr where
  /-- `SYNC(p)`: searching for sync, `p` bytes of `MAGIC` matched. -/
  | sync (p : Fin 2)
  /-- `LENGTH`: the next byte is LEN. -/
  | length
  /-- `BODY(e, r)`: reading the `e` bytes after LEN, `r` of them received. -/
  | body (e r : Nat)
deriving DecidableEq, Repr

/-- What ends a `Read(k)` (60_exceptions.md R214, R217). -/
inductive ReadReply where
  /-- `Ok(bytes)`. -/
  | ok (bytes : Bytes)
  /-- `Err(e)`. -/
  | err (e : Byte)
  /-- The host cancels the waiting read (R217). -/
  | cancelled
deriving DecidableEq, Repr

/-- What the byte sink answers to a `Write(bytes)` (R214). -/
inductive WriteReply where
  /-- `Ok(k)`: the first `k` bytes were accepted. -/
  | ok (k : Nat)
  /-- `Err(e)`. -/
  | err (e : Byte)
deriving DecidableEq, Repr

/-- What the byte sink answers to a `Flush()` (R214). -/
inductive FlushReply where
  | ok
  | err (e : Byte)
deriving DecidableEq, Repr

/-- One thing that passes between the block and a collaborator (20_memory.md R57): a request of the block, or the reply
to one. -/
inductive Event where
  | read (k : Nat)
  | readReply (r : ReadReply)
  | write (bytes : Bytes)
  | writeReply (r : WriteReply)
  | flush
  | flushReply (r : FlushReply)
deriving DecidableEq, Repr

/-- The operation that waits for a collaborator's reply (R214; 70_reset_and_hazards.md R230). DEDUCED, log 3. -/
inductive Pending where
  /-- `ing.push` waits for the reply to its `Read(C)`. -/
  | read
  /-- A send waits for the reply to `Write(rest)`; its frame carries `seq`. -/
  | write (rest : Bytes) (seq : Half)
  /-- A send waits for the reply to `Flush()`; `rest` is still to be written. -/
  | flush (rest : Bytes) (seq : Half)
deriving DecidableEq, Repr

/-- A byte store: (index, byte) pairs with the indices rising. An index that is not listed holds no value. -/
abbrev Memory := List Host.Cell

/-- `CAN_TABLE` (10_state.md R35): (source id, buffer) pairs with the source ids rising. -/
abbrev CanTable := List (Nat × Bytes)

/-- The machine. The fields down to `canTable` are the architectural state of 10_state.md. -/
structure State where
  /-- The parameters of 00_scope.md R8, `HWID` (10_state.md R34) among them. -/
  cfg          : Params
  /-- `DFR_STATE` (R23). -/
  dfr          : Dfr
  /-- `FB` (R24). -/
  fb           : Memory
  /-- `ING_S` (R26). -/
  ingS         : Memory
  /-- `ING_HEAD` (R27). -/
  ingHead      : Nat
  /-- `ING_TAIL` (R28). -/
  ingTail      : Nat
  /-- `ING_LEN` (R29). -/
  ingLen       : Nat
  /-- `TX_SEQ` (R33). -/
  txSeq        : Half
  /-- `CAN_TABLE` (R35). -/
  canTable     : CanTable
  /-- The operation that waits for a collaborator's reply (log 3). -/
  pending      : Option Pending
  /-- The requests the host has issued and the block has not begun, oldest first (30_encoding.md R80; log 1). -/
  requests     : List Bytes
  /-- The replies the byte source will give, oldest first (60_exceptions.md R214; log 2). -/
  readReplies  : List ReadReply
  /-- The replies the byte sink will give to `Write`, oldest first (log 2). -/
  writeReplies : List WriteReply
  /-- The replies the byte sink will give to `Flush`, oldest first (log 2). -/
  flushReplies : List FlushReply
  /-- What has passed between the block and its collaborators, oldest first (20_memory.md R57; log 4). -/
  traffic      : List Event
  /-- The responses given, oldest first (30_encoding.md R91; log 4). -/
  responses    : List Bytes
  /-- How many free bytes have been drawn: the model's own field, not the spec's (log 8). -/
  freeCount    : Nat
deriving DecidableEq, Repr

/-- Why the machine stops with no next step. All are safe: the hardware may go on where the model stops. -/
inductive Fault where
  /-- `step`, with `ing.push` waiting: the byte source has given no reply (60_exceptions.md R214, K14). Safe. -/
  | stuckRead
  /-- `step`, with a send waiting: the byte sink has given no reply to `Write` (R214, K14). Safe. -/
  | stuckWrite
  /-- `step`, with a send waiting: the byte sink has given no reply to `Flush` (R214, K14). Safe. -/
  | stuckFlush
  /-- `ing.pop`: the read cursor is outside `ING_S`, or names a byte no read has written, which a model must never
  let a pop return (10_state.md R26, 20_memory.md R55). No state of the invariant raises it. Safe. -/
  | ingestByteAbsent
  /-- `dfr.feed` in `BODY(e, r)`: index `r` is outside `FB` (R55). No state of the invariant raises it. Safe. -/
  | frameIndexAbsent
  /-- `dfr.feed` at the end of a frame: a byte of the frame was never received (10_state.md R24). No state of the
  invariant raises it. Safe. -/
  | frameByteAbsent
deriving DecidableEq, Repr

/-- Why the machine gives no meaning. All are safe: the model takes no step. -/
inductive Refusal where
  /-- Raised by `exec` for an operation without a meaning; this model has none such. Safe. -/
  | notModelled (mnemonic : String)
  /-- `ing.push`: the byte source replied with more than `C` bytes, outside its liberties; a model must refuse it
  (40_ingest.md R118, K12). Safe. -/
  | overlongRead
  /-- A send: the byte sink claimed more bytes than it was offered, outside its liberties; a model must refuse it
  (42_encoder.md R163, K13). Safe. -/
  | overclaimedWrite
  /-- `step`: the byte string at the port is empty, so it has no opcode and is no request (30_encoding.md R80; log 9).
  Safe. -/
  | emptyRequest
deriving DecidableEq, Repr

/-- What a step or a meaning answers. -/
abbrev Result := Host.Outcome State Fault Refusal

/-- Power-on reset of a block with the parameters `p` (10_state.md R38, 70_reset_and_hazards.md R230). -/
def State.resetWith (p : Params) : State where
  cfg := p
  dfr := .sync 0
  fb := []
  ingS := []
  ingHead := 0
  ingTail := 0
  ingLen := 0
  txSeq := p.seqInit
  canTable := []
  pending := none
  requests := []
  readReplies := []
  writeReplies := []
  flushReplies := []
  traffic := []
  responses := []
  freeCount := 0

/-- The machine right after power-on reset. -/
def State.reset : State := State.resetWith Config.params

end Sys2Proof.Machine
end

