-- ==== Sys2Proof/Machine/Flags.lean ====
section
/-! DEFINITION. The block has no flags (10_state.md R22): an operation's outcome is the status of its response. This file
holds the status codes (60_exceptions.md R200), the error classes (R201), the results an operation reports (41_deframer.md
R134, R143) and the bytes of every response (30_encoding.md R91 to R97). -/

namespace Sys2Proof.Machine

/-- The sub-codes of PARSE_ERROR (R200). -/
inductive ParseError where
  /-- `0x01`, the oversize arm of the deframer (41_deframer.md R132). -/
  | lengthOversize
  /-- `0x02`, a telemetry payload that is too short (R146). -/
  | telemetryShort
  /-- `0x03`, an empty command buffer (R147). -/
  | emptyCommand
deriving DecidableEq, Repr

/-- The sub-code byte (R200). -/
def parseErrorCode : ParseError → Byte
  | .lengthOversize => 0x01
  | .telemetryShort => 0x02
  | .emptyCommand => 0x03

/-- The error statuses, each with what it carries (R200). -/
inductive Failure where
  | empty
  | overflow
  | readIo (err : Byte)
  | writeIo (err : Byte)
  | messageTooLong
  | parseError (sub : ParseError)
  | couldNotDecode
  | messageBufferFull
  | sourceBufferFull
  | frameDropped
  | cancelled
  | badOperand
  | illegalOpcode
deriving DecidableEq, Repr

/-- The status byte of an error (R200). -/
def failureCode : Failure → Byte
  | .empty => 0x01
  | .overflow => 0x02
  | .readIo _ => 0x03
  | .writeIo _ => 0x04
  | .messageTooLong => 0x05
  | .parseError _ => 0x06
  | .couldNotDecode => 0x07
  | .messageBufferFull => 0x08
  | .sourceBufferFull => 0x09
  | .frameDropped => 0x0A
  | .cancelled => 0x0B
  | .badOperand => 0xFD
  | .illegalOpcode => 0xFE

/-- The bytes after the status byte of an error (R92, R93, R94, R95, R97). -/
def failureInfo : Failure → Bytes
  | .readIo err => [err]
  | .writeIo err => [err]
  | .parseError sub => [parseErrorCode sub]
  | .empty => []
  | .overflow => []
  | .messageTooLong => []
  | .couldNotDecode => []
  | .messageBufferFull => []
  | .sourceBufferFull => []
  | .frameDropped => []
  | .cancelled => []
  | .badOperand => []
  | .illegalOpcode => []

/-- The classes of R201; `port` is the class R200 gives the errors of the port itself. -/
inductive ErrorClass where
  | transport | protocol | resource | port
deriving DecidableEq, Repr

/-- The class of an error (R200). -/
def failureClass : Failure → ErrorClass
  | .empty => .resource
  | .overflow => .resource
  | .readIo _ => .transport
  | .writeIo _ => .transport
  | .messageTooLong => .resource
  | .parseError _ => .protocol
  | .couldNotDecode => .protocol
  | .messageBufferFull => .resource
  | .sourceBufferFull => .resource
  | .frameDropped => .protocol
  | .cancelled => .transport
  | .badOperand => .port
  | .illegalOpcode => .port

/-- A completed frame (00_scope.md R14, 41_deframer.md R134). -/
structure Frame where
  hwid    : Half
  seq     : Half
  dest    : Byte
  payload : Bytes
deriving DecidableEq, Repr

/-- `TelemetrySample` (41_deframer.md R143). -/
structure TelemetrySample where
  uptime                  : Word
  /-- An `i8`, as an integer (R145). -/
  rssi                    : Int
  lqi                     : Byte
  packetsSent             : Word
  packetsGood             : Word
  packetsRejectedChecksum : Word
  packetsRejectedOther    : Word
deriving DecidableEq, Repr

/-- The result of a message decode (R143, 00_scope.md R15). -/
inductive Message where
  | ack
  | nack
  | telemetry (t : TelemetrySample)
  | unknown (code : Byte)
  | relay (bytes : Bytes)
deriving DecidableEq, Repr

/-- The kind code and the body of a decoded message (30_encoding.md R94). -/
def messageBytes : Message → Bytes
  | .ack => [0x00]
  | .nack => [0x01]
  | .telemetry t =>
    0x02 :: wordBytes t.uptime ++ [BitVec.ofInt 8 t.rssi, t.lqi] ++ wordBytes t.packetsSent ++
      wordBytes t.packetsGood ++ wordBytes t.packetsRejectedChecksum ++ wordBytes t.packetsRejectedOther
  | .unknown code => [0x03, code]
  | .relay bytes => 0x04 :: countBytes bytes.length ++ bytes

/-- What an operation responds (R91). -/
inductive Response where
  /-- `ing.push` OK (R92): the count of bytes read. -/
  | pushed (n : Nat)
  /-- `ing.pop` OK (R92). -/
  | popped (b : Byte)
  /-- `dfr.feed` NONE (R93). -/
  | feedNone
  /-- `dfr.feed` FRAME (R93). -/
  | feedFrame (f : Frame)
  /-- `dfr.feed` DISCARD_SHORT with the rejected LEN (R93). -/
  | discardShort (len : Byte)
  /-- `dfr.reset` OK (R93). -/
  | resetDone
  /-- `msg.decode` OK (R94). -/
  | decoded (m : Message)
  /-- `tx.send` and `tx.cmd` OK (R95): the seq the frame carried. -/
  | sent (seq : Half)
  /-- `can.rx` PENDING (R96). -/
  | canPending
  /-- `can.rx` COMPLETE (R96). -/
  | canComplete (bytes : Bytes)
  /-- Any error status (R97). -/
  | failed (f : Failure)
deriving DecidableEq, Repr

/-- The bytes of a response: the status, then its fields, little-endian (R91 to R97). -/
def responseBytes : Response → Bytes
  | .pushed n => 0x00 :: countBytes n
  | .popped b => [0x00, b]
  | .feedNone => [0x00, 0x00]
  | .feedFrame f =>
    [0x00, 0x01] ++ halfBytes f.hwid ++ halfBytes f.seq ++ [f.dest, BitVec.ofNat 8 f.payload.length] ++ f.payload
  | .discardShort len => [0x00, 0x02, len]
  | .resetDone => [0x00]
  | .decoded m => 0x00 :: messageBytes m
  | .sent seq => 0x00 :: halfBytes seq
  | .canPending => [0x00, 0x00]
  | .canComplete bytes => [0x00, 0x01] ++ countBytes bytes.length ++ bytes
  | .failed f => failureCode f :: failureInfo f

end Sys2Proof.Machine
end

