-- ==== Sys2Proof/Machine/Ops.lean ====
section
/-! DEFINITION. The named operations over the stores, the CAN table and the port. The block takes no exception
(60_exceptions.md R207, R208): an error ends its operation with a response, through the one operation `fail`. -/

namespace Sys2Proof.Machine

/-! ### Keyed lists: the stores and the CAN table -/

/-- The keys rise, so no key stands twice: the one form in which a store or the table is held. -/
abbrev keysRising {α : Type} (m : List (Nat × α)) : Prop := m.Pairwise (fun x y => x.1 < y.1)

/-- The value at a key. -/
def keyGet {α : Type} : List (Nat × α) → Nat → Option α
  | [], _ => none
  | (k, v) :: m, a => if k = a then some v else keyGet m a

/-- Puts a value at a key, in key order. -/
def keySet {α : Type} : List (Nat × α) → Nat → α → List (Nat × α)
  | [], a, v => [(a, v)]
  | (k, w) :: m, a, v =>
    if a < k then (a, v) :: (k, w) :: m
    else if a = k then (a, v) :: m
    else (k, w) :: keySet m a v

/-- Removes a key. -/
def keyErase {α : Type} : List (Nat × α) → Nat → List (Nat × α)
  | [], _ => []
  | (k, w) :: m, a => if k = a then m else (k, w) :: keyErase m a

/-! ### The byte stores `ING_S` and `FB` (20_memory.md R54, R55) -/

/-- The canonical form of a store. -/
abbrev Memory.wf (m : Memory) : Prop := keysRising m

/-- What an unlisted index reads as: no value (10_state.md R24, R26; log 7). -/
def unlisted : Option Byte := none

/-- `StoreRead` (00_scope.md R12). -/
def memRead (m : Memory) (a : Nat) : Option Byte :=
  match keyGet m a with
  | some v => some v
  | none => unlisted

/-- `StoreWrite` of one byte (R12). -/
def memWrite (m : Memory) (a : Nat) (v : Byte) : Memory := keySet m a v

/-- `StoreWrite` of a byte string, the first byte at `base`, one byte after another. -/
def memWriteAll : Memory → Nat → Bytes → Memory
  | m, _, [] => m
  | m, base, b :: bs => memWriteAll (memWrite m base b) (base + 1) bs

/-- The `n` bytes from `base` on; none if one of them has no value. -/
def memReadAll (m : Memory) : Nat → Nat → Option Bytes
  | _, 0 => some []
  | base, n + 1 =>
    match memRead m base, memReadAll m (base + 1) n with
    | some b, some bs => some (b :: bs)
    | _, _ => none

/-- The sizes of the stores (R55). -/
def ingestSize (s : State) : Nat := 2 * s.cfg.chunk

/-! ### The CAN table (10_state.md R35, R36) -/

/-- The buffer of a source's entry. -/
def canGet (t : CanTable) (src : Nat) : Option Bytes := keyGet t src

/-- Sets the buffer of a source's entry, creating the entry if there is none. -/
def canSet (t : CanTable) (src : Nat) (buf : Bytes) : CanTable := keySet t src buf

/-- Removes a source's entry. -/
def canErase (t : CanTable) (src : Nat) : CanTable := keyErase t src

/-! ### Updates of the state -/

/-- The state after a response: the response stands last in the log and no operation waits. -/
def State.answer (s : State) (r : Response) : State :=
  { s with responses := s.responses ++ [responseBytes r], pending := none }

/-- The state after the block has issued a request to a collaborator, or taken a reply (20_memory.md R57). -/
def State.log (s : State) (e : Event) : State := { s with traffic := s.traffic ++ [e] }

/-- The state in which an operation waits for a reply. -/
def State.wait (s : State) (p : Pending) : State := { s with pending := some p }

/-- The state in which the reply `r` of the byte source has been taken and `rs` are left. -/
def State.tookRead (s : State) (r : ReadReply) (rs : List ReadReply) : State :=
  { s with readReplies := rs, traffic := s.traffic ++ [.readReply r] }

/-- The state in which the reply `w` to a `Write` has been taken and `ws` are left. -/
def State.tookWrite (s : State) (w : WriteReply) (ws : List WriteReply) : State :=
  { s with writeReplies := ws, traffic := s.traffic ++ [.writeReply w] }

/-- The state in which the reply `f` to a `Flush` has been taken and `fs` are left. -/
def State.tookFlush (s : State) (f : FlushReply) (fs : List FlushReply) : State :=
  { s with flushReplies := fs, traffic := s.traffic ++ [.flushReply f] }

/-- `DFR_STATE <- d`. -/
def State.setDfr (s : State) (d : Dfr) : State := { s with dfr := d }

/-- `CAN_TABLE <- t`. -/
def State.setCan (s : State) (t : CanTable) : State := { s with canTable := t }

/-! ### Ending an operation (R12) -/

/-- `respond(STATUS, fields)`: ends the operation with one response. -/
def respond (s : State) (r : Response) : Result := .next (s.answer r)

/-- `raise STATUS(info)`: ends the operation with an error response and changes nothing else. -/
def fail (s : State) (f : Failure) : Result := respond s (.failed f)

end Sys2Proof.Machine
end

