-- ==== Sys2Proof/Machine/Operands.lean ====
section
/-! DEFINITION. The operand checks of 30_encoding.md R87 and the fields operations read from their operands: slices and
little-endian fields (00_scope.md R11), `SOURCE_OF` (R8), and the fields of a CAN fragment (43_can_reassembler.md R182). -/

namespace Sys2Proof.Machine

/-! ### Operand checks -/

/-- The operand values are legal (R87, points 2 and 3). -/
def operandsLegal : Instr → Bool
  | .ingPush => true
  | .ingPop => true
  | .dfrFeed _ => true
  | .dfrReset => true
  | .msgDecode _ _ => true
  | .txSend _ _ => true
  | .txCmd c => c == Config.cmdReboot || c == Config.cmdGetTelem
  | .canRx ide _ rsv id dlc _ =>
    rsv == 0 && decide (dlc.toNat ≤ 8) && decide (id.toNat < (if ide then 2 ^ 29 else 2 ^ 11))

/-- The instruction is malformed (R87): it fits no request of its format (point 1; log 10), or an operand value is not
legal (points 2 and 3). -/
def malformed (i : Instr) : Bool := !(i.wellFormed && operandsLegal i)

/-- The operation's own rule runs only on a well-formed request; any other gets BAD_OPERAND and changes no state
(R87, R88). -/
def guardOperands (i : Instr) (s : State) (own : Result) : Result :=
  if malformed i then fail s .badOperand else own

/-! ### Fields of byte strings (R11) -/

/-- `xs[i..j)`. -/
def slice (xs : Bytes) (i j : Nat) : Bytes := (xs.take j).drop i

/-- `xs[i]`; every rule that reads a byte has first checked that `i` is in range. -/
def byteAt (xs : Bytes) (i : Nat) : Byte := xs.getD i 0

/-- `LE16(xs, i)`. -/
def le16 (xs : Bytes) (i : Nat) : Half := half (byteAt xs i) (byteAt xs (i + 1))

/-- `LE32(xs, i)`. -/
def le32 (xs : Bytes) (i : Nat) : Word :=
  word (byteAt xs i) (byteAt xs (i + 1)) (byteAt xs (i + 2)) (byteAt xs (i + 3))

/-- `sext_8(b)`. -/
def sext8 (b : Byte) : Int := if b.toNat < 128 then b.toNat else (b.toNat : Int) - 256

/-! ### CAN operands -/

/-- `SOURCE_OF(id)` (R8; log 6). -/
def sourceOf (m : SourceMap) (id : CanId) : Nat :=
  match m.overrides.find? (fun p => p.1 == id) with
  | some p => p.2
  | none => id.toNat / 2 ^ m.lowBits

/-- The fields of a fragment (43_can_reassembler.md R182). -/
structure Fragment where
  src     : Nat
  seqNum  : Nat
  seqLen  : Nat
  payload : Bytes
deriving DecidableEq, Repr

/-- Field extraction (R182). The reserved byte `data[1]` is not examined. -/
def fragmentOf (m : SourceMap) (id : Word) (dlc : Byte) (data : Bytes) : Fragment where
  src := sourceOf m (id.setWidth 29)
  seqNum := (byteAt data 0).toNat
  seqLen := (byteAt data 2).toNat
  payload := slice data Config.fragHdr dlc.toNat

end Sys2Proof.Machine
end

