-- ==== Sys2Proof/Machine/Can.lean ====
section
/-! DEFINITION. The CAN reassembler: `can.rx` (43_can_reassembler.md R180 to R189). -/

namespace Sys2Proof.Machine

/-- Steps 5 to 7 on the entry of `f.src`, whose buffer is `buf` (R186 to R189). -/
def orderCheck (f : Fragment) (buf : Bytes) (s : State) : Result :=
  let expected := buf.length / Config.fragPayload
  if f.seqNum = expected then
    if buf.length + f.payload.length > s.cfg.maxPacket then fail s .messageBufferFull
    else if f.seqNum ≥ f.seqLen then
      respond (s.setCan (canErase s.canTable f.src)) (.canComplete (buf ++ f.payload))
    else respond (s.setCan (canSet s.canTable f.src (buf ++ f.payload))) .canPending
  else if f.seqNum < expected then respond s .canPending
  else fail (s.setCan (canSet s.canTable f.src [])) .frameDropped

/-- Step 4, restart (R185), with the entry's buffer `buf` before it, then the rest. -/
def restart (f : Fragment) (buf : Bytes) (s : State) : Result :=
  if f.seqNum = 0 then orderCheck f [] (s.setCan (canSet s.canTable f.src [])) else orderCheck f buf s

/-- Step 3, entry lookup (R184), then the rest. -/
def lookup (f : Fragment) (s : State) : Result :=
  match canGet s.canTable f.src with
  | some buf => restart f buf s
  | none =>
    if s.canTable.length = s.cfg.numSources then fail s .sourceBufferFull
    else restart f [] (s.setCan (canSet s.canTable f.src []))

/-- Step 2, announced size (R183), then the rest. -/
def offerFragment (f : Fragment) (s : State) : Result :=
  if f.seqLen * Config.fragPayload > s.cfg.maxPacket then fail s .messageBufferFull else lookup f s

/-- Step 1, decode (R181), then the rest. -/
def receive (ide rtr : Bool) (id : Word) (dlc : Byte) (data : Bytes) (s : State) : Result :=
  if ide = false ∨ rtr = true ∨ dlc.toNat < 4 then fail s .couldNotDecode
  else offerFragment (fragmentOf s.cfg.sourceMap id dlc data) s

/-- `can.rx` (R180). -/
def execCanRx (ide rtr : Bool) (rsv : BitVec 6) (id : Word) (dlc : Byte) (data : Bytes) (s : State) : Result :=
  guardOperands (.canRx ide rtr rsv id dlc data) s (receive ide rtr id dlc data s)

end Sys2Proof.Machine
end

