-- ==== Sys2Proof/Machine/Deframer.lean ====
section
/-! DEFINITION. The deframer: `dfr.feed` (41_deframer.md R130 to R134) and `dfr.reset` (R140). -/

namespace Sys2Proof.Machine

/-- `SYNC(p)` (R131). The mismatching byte is not compared with `MAGIC[0]`. -/
def feedSync (p : Fin 2) (b : Byte) (s : State) : Result :=
  if b = byteAt Config.magic p.val then
    if p.val + 1 = 2 then respond (s.setDfr .length) .feedNone
    else respond (s.setDfr (.sync (p + 1))) .feedNone
  else respond (s.setDfr (.sync 0)) .feedNone

/-- `LENGTH` (R132). The oversize arm is never taken; R132 keeps it. -/
def feedLength (b : Byte) (s : State) : Result :=
  if b.toNat ≤ Config.hdrLen then respond (s.setDfr (.sync 0)) (.discardShort b)
  else if b.toNat - Config.hdrLen > Config.payloadCap then
    fail (s.setDfr (.sync 0)) (.parseError .lengthOversize)
  else respond (s.setDfr (.body b.toNat 0)) .feedNone

/-- `FRAME_OF` on the `e` bytes of the frame (R134). -/
def frameOf (bytes : Bytes) : Frame where
  hwid := le16 bytes 0
  seq := le16 bytes 2
  dest := byteAt bytes 4
  payload := bytes.drop Config.hdrLen

/-- `StoreWrite(FB, r, b)` (R133). -/
def State.framed (s : State) (r : Nat) (b : Byte) : State := { s with fb := memWrite s.fb r b }

/-- The end of a frame of `e` bytes: the frame goes into the response as a copy (R133, R134). -/
def emitFrame (e : Nat) (s : State) : Result :=
  match memReadAll s.fb 0 e with
  | some bytes => respond (s.setDfr (.sync 0)) (.feedFrame (frameOf bytes))
  | none => .fault .frameByteAbsent

/-- `BODY(e, r)` (R133). The value of `b` is never examined. -/
def feedBody (e r : Nat) (b : Byte) (s : State) : Result :=
  if r < Config.frameCap then
    if r + 1 = e then emitFrame e (s.framed r b)
    else respond ((s.framed r b).setDfr (.body e (r + 1))) .feedNone
  else .fault .frameIndexAbsent

/-- `dfr.feed b` (R130): the arm that `DFR_STATE` selects. -/
def execDfrFeed (b : Byte) (s : State) : Result :=
  match s.dfr with
  | .sync p => feedSync p b s
  | .length => feedLength b s
  | .body e r => feedBody e r b s

/-- `dfr.reset` (R140): `DFR_STATE <- SYNC(0)` and nothing else (10_state.md R39). -/
def execDfrReset (s : State) : Result := respond (s.setDfr (.sync 0)) .resetDone

end Sys2Proof.Machine
end

