-- ==== Sys2Proof/Machine/Encoder.lean ====
section
/-! DEFINITION. The frame encoder and sender: `tx.send` (42_encoder.md R160 to R165) and `tx.cmd` (R166). -/

namespace Sys2Proof.Machine

/-- The bytes of a frame on the wire (R162, 30_encoding.md R70). -/
def frameBytes (hwid seq : Half) (dest : Byte) (data : Bytes) : Bytes :=
  Config.magic ++ [BitVec.ofNat 8 ((data.length + Config.hdrLen) % 256)] ++ halfBytes hwid ++ halfBytes seq ++
    [dest] ++ data

/-- `await Flush()` after the request was issued, with `rest` still to be written (R163, R165). After a good flush the
operation ends if nothing is left; otherwise the next `Write` is issued and `again` takes its reply. -/
def awaitFlush (rest : Bytes) (seq : Half) (again : State → Result) (s : State) : Result :=
  match s.flushReplies with
  | [] => .next (s.wait (.flush rest seq))
  | .err e :: fs => fail (s.tookFlush (.err e) fs) (.writeIo e)
  | .ok :: fs =>
    if rest.isEmpty then respond (s.tookFlush .ok fs) (.sent seq)
    else again ((s.tookFlush .ok fs).log (.write rest))

/-- `await Write(rest)` after the request was issued, with the replies `ws` to come (R163, R164): a failed write ends the
operation, a count above what was offered is refused, and any other count is followed by a flush. The recursion takes one
reply a round, so the rounds are as many as the sink's replies (70_reset_and_hazards.md R244). -/
def awaitWrite (seq : Half) : List WriteReply → Bytes → State → Result
  | [], rest, s => .next (s.wait (.write rest seq))
  | .err e :: ws, _, s => fail (s.tookWrite (.err e) ws) (.writeIo e)
  | .ok k :: ws, rest, s =>
    if k > rest.length then .refused .overclaimedWrite
    else awaitFlush (rest.drop k) seq (awaitWrite seq ws (rest.drop k)) ((s.tookWrite (.ok k) ws).log .flush)

/-- `TX_SEQ <- (s + 1) mod 2^16` (R162). -/
def State.bumped (s : State) : State := { s with txSeq := s.txSeq + 1 }

/-- The common path of both sends (R161 to R165): the length check, the frame, the counter, the loop. -/
def transmit (dest : Byte) (data : Bytes) (s : State) : Result :=
  if data.length > s.cfg.txMaxPayload then fail s .messageTooLong
  else
    let bytes := frameBytes s.cfg.hwid s.txSeq dest data
    awaitWrite s.txSeq s.writeReplies bytes (s.bumped.log (.write bytes))

/-- `tx.send dest, data` (R160). -/
def execTxSend (dest : Byte) (data : Bytes) (s : State) : Result :=
  guardOperands (.txSend dest data) s (transmit dest data s)

/-- `tx.cmd c` (R166): exactly `TX_SEND 0x01, [c]`. -/
def execTxCmd (c : Byte) (s : State) : Result :=
  guardOperands (.txCmd c) s (transmit Config.destLocal [c] s)

end Sys2Proof.Machine
end

