-- ==== Sys2Proof/Machine/Ingest.lean ====
section
/-! DEFINITION. The ingest buffer: `ing.push` and `ing.pop` (40_ingest.md R110 to R116). -/

namespace Sys2Proof.Machine

/-- The linear shape (10_state.md R31), as `ING_PUSH` tests it (R111). -/
def ingLinear (s : State) : Bool := decide (s.ingHead = s.ingLen)

/-- `start`, the first index of the region a push writes: the midpoint test (R111). -/
def ingStart (s : State) : Nat := if s.ingHead ≤ s.cfg.chunk then s.ingHead else 0

/-- `admit`, the four admission cases (R111). -/
def ingAdmit (s : State) : Bool :=
  if ingLinear s then
    if s.ingHead ≤ s.cfg.chunk then true else decide (s.ingTail > s.cfg.chunk)
  else
    if s.ingHead ≤ s.cfg.chunk then decide (s.ingTail > s.ingHead + s.cfg.chunk) else false

/-- The chunk stored and the cursors moved (R112). -/
def State.stored (s : State) (bytes : Bytes) : State :=
  { s with
    ingS := memWriteAll s.ingS (ingStart s) bytes
    ingHead := ingStart s + bytes.length
    ingLen := max s.ingLen (ingStart s + bytes.length) }

/-- The `n` next free bytes (log 8). -/
def freeBytes (s : State) (n : Nat) : Bytes := (List.range n).map (fun i => Config.freeByte (s.freeCount + i))

/-- A read failed or was cancelled: the region's bytes take any values, the cursors stay (R113). -/
def State.scrambled (s : State) : State :=
  { s with
    ingS := memWriteAll s.ingS (ingStart s) (freeBytes s s.cfg.chunk)
    freeCount := s.freeCount + s.cfg.chunk }

/-- The end of a push, once its read has ended with `r` (R112, R113, R118). -/
def finishRead (r : ReadReply) (s : State) : Result :=
  match r with
  | .ok bytes =>
    if bytes.length > s.cfg.chunk then .refused .overlongRead
    else respond (s.stored bytes) (.pushed bytes.length)
  | .err e => fail s.scrambled (.readIo e)
  | .cancelled => fail s.scrambled .cancelled

/-- `await Read(C)` after the request was issued: takes the next reply, or waits for one. -/
def awaitRead (s : State) : Result :=
  match s.readReplies with
  | [] => .next (s.wait .read)
  | r :: rs => finishRead r (s.tookRead r rs)

/-- `ing.push` (R110): OVERFLOW without a read (R111), or one `Read(C)` and its reply (R112, R113). -/
def execIngPush (s : State) : Result :=
  if ingAdmit s then awaitRead (s.log (.read s.cfg.chunk)) else fail s .overflow

/-- The virtual rewind, done only when the contents are wrapped (R114). -/
def State.rewound (s : State) : State :=
  if s.ingTail ≥ s.ingLen ∧ s.ingHead < s.ingLen then { s with ingLen := s.ingHead, ingTail := 0 } else s

/-- `ING_TAIL <- ING_TAIL + 1` (R116). -/
def State.advanced (s : State) : State := { s with ingTail := s.ingTail + 1 }

/-- The byte at the read cursor (R116); none if the cursor is outside `ING_S` or no read has written the byte. -/
def ingByte (s : State) : Option Byte :=
  if s.ingTail < ingestSize s then memRead s.ingS s.ingTail else none

/-- The test for emptiness and the pop itself (R115, R116). -/
def popByte (s : State) : Result :=
  if s.ingHead = s.ingTail then fail s .empty
  else
    match ingByte s with
    | some b => respond s.advanced (.popped b)
    | none => .fault .ingestByteAbsent

/-- `ing.pop` (R114): the rewind, then the rest. -/
def execIngPop (s : State) : Result := popByte s.rewound

end Sys2Proof.Machine
end

