-- ==== Sys2Proof/Machine/Message.lean ====
section
/-! DEFINITION. `msg.decode`: destination dispatch and telemetry decode (41_deframer.md R141 to R149), a pure function of
its operands. -/

namespace Sys2Proof.Machine

/-- The seven fields of the telemetry layout (R145, 30_encoding.md R76). -/
def telemetryOf (s : Bytes) : TelemetrySample where
  uptime := le32 s 0
  rssi := sext8 (byteAt s 35)
  lqi := byteAt s 36
  packetsSent := le32 s 38
  packetsGood := le32 s 46
  packetsRejectedChecksum := le32 s 50
  packetsRejectedOther := le32 s 58 + le32 s 54

/-- `TELEM_DECODE(s)` (R145), or TELEMETRY_SHORT below 62 bytes (R146). -/
def telemDecode (s : Bytes) : Except ParseError Message :=
  if s.length < Config.telemLen then .error .telemetryShort else .ok (.telemetry (telemetryOf s))

/-- `LOCAL_DECODE(data)` (R144), or EMPTY_COMMAND on no data (R147). -/
def localDecode : Bytes → Except ParseError Message
  | [] => .error .emptyCommand
  | c :: sub =>
    if c = Config.cmdAck then .ok .ack
    else if c = Config.cmdNack then .ok .nack
    else if c = Config.cmdTelem then telemDecode sub
    else .ok (.unknown c)

/-- The dispatch on the destination tag (R142, R148, R149). -/
def messageOf (dest : Byte) (data : Bytes) : Except ParseError Message :=
  if dest = Config.destLocal then localDecode data
  else if dest = Config.destRelay then .ok (.relay data)
  else .ok (.unknown 0x00)

/-- The response of a message decode (30_encoding.md R94). -/
def messageResponse : Except ParseError Message → Response
  | .ok m => .decoded m
  | .error e => .failed (.parseError e)

/-- `msg.decode dest, data` (R141). -/
def execMsgDecode (dest : Byte) (data : Bytes) (s : State) : Result :=
  guardOperands (.msgDecode dest data) s (respond s (messageResponse (messageOf dest data)))

end Sys2Proof.Machine
end

