-- ==== Sys2Proof/Machine/Dispatch.lean ====
section
/-! DEFINITION. One arm per operation (30_encoding.md R82). -/

namespace Sys2Proof.Machine

def exec (i : Instr) (s : State) : Host.Outcome State Fault Refusal :=
  match i with
  | .ingPush => Sys2Proof.Machine.execIngPush s
  | .ingPop => Sys2Proof.Machine.execIngPop s
  | .dfrFeed b => Sys2Proof.Machine.execDfrFeed b s
  | .dfrReset => Sys2Proof.Machine.execDfrReset s
  | .msgDecode dest data => Sys2Proof.Machine.execMsgDecode dest data s
  | .txSend dest data => Sys2Proof.Machine.execTxSend dest data s
  | .txCmd c => Sys2Proof.Machine.execTxCmd c s
  | .canRx ide rtr rsv id dlc data => Sys2Proof.Machine.execCanRx ide rtr rsv id dlc data s

end Sys2Proof.Machine
end

