-- ==== Sys2Proof/Machine/Resume.lean ====
section
/-! DEFINITION. An operation that waits for a collaborator's reply goes on when the reply is there; until then it has no
next step (60_exceptions.md R214, 70_reset_and_hazards.md R245; log 3). -/

namespace Sys2Proof.Machine

/-- `ing.push` goes on with the reply to its `Read` (40_ingest.md R112, R113). -/
def resumeRead (s : State) : Result :=
  match s.readReplies with
  | [] => .fault .stuckRead
  | r :: rs => finishRead r (s.tookRead r rs)

/-- A send goes on with the reply to its `Write(rest)` (42_encoder.md R163, R164). -/
def resumeWrite (rest : Bytes) (seq : Half) (s : State) : Result :=
  match s.writeReplies with
  | [] => .fault .stuckWrite
  | w :: ws => awaitWrite seq (w :: ws) rest s

/-- A send goes on with the reply to its `Flush` (R163, R165). -/
def resumeFlush (rest : Bytes) (seq : Half) (s : State) : Result :=
  match s.flushReplies with
  | [] => .fault .stuckFlush
  | _ :: _ => awaitFlush rest seq (awaitWrite seq s.writeReplies rest) s

/-- The waiting operation goes on. -/
def resume (p : Pending) (s : State) : Result :=
  match p with
  | .read => resumeRead s
  | .write rest seq => resumeWrite rest seq s
  | .flush rest seq => resumeFlush rest seq s

end Sys2Proof.Machine
end

