-- ==== Sys2Proof/Machine/Port.lean ====
section
/-! DEFINITION. The operation port (30_encoding.md R80, R86 to R88): taking one request, and what the host and its
collaborators can do to the block between steps (60_exceptions.md R210, R214, R217). -/

namespace Sys2Proof.Machine

/-- Answers one request: a reserved opcode gets ILLEGAL_OPCODE (R86), a wrong byte count BAD_OPERAND (R87), and any other
request is its operation. -/
def serve (req : Bytes) (s : State) : Result :=
  match decode req with
  | .ok i => exec i s
  | .error .illegalOpcode => fail s .illegalOpcode
  | .error .badLength => fail s .badOperand
  | .error .emptyRequest => .refused .emptyRequest

/-- The block between operations: it begins the oldest request, or waits for one (70_reset_and_hazards.md R231;
log 1). -/
def idle (s : State) : Result :=
  match s.requests with
  | [] => .next s
  | req :: rest => serve req { s with requests := rest }

/-- Makes a request the next one the block begins; no operation waits. -/
def placeRequest (req : Bytes) (s : State) : State :=
  { s with requests := req :: s.requests, pending := none }

/-! ### The host's moves -/

/-- The host issues a request (R80). -/
def submit (req : Bytes) (s : State) : State := { s with requests := s.requests ++ [req] }

/-- The byte source will answer a `Read` with `r`, or the host will cancel it (R214, R217). -/
def offerRead (r : ReadReply) (s : State) : State := { s with readReplies := s.readReplies ++ [r] }

/-- The byte sink will answer a `Write` with `w` (R214). -/
def offerWrite (w : WriteReply) (s : State) : State := { s with writeReplies := s.writeReplies ++ [w] }

/-- The byte sink will answer a `Flush` with `f` (R214). -/
def offerFlush (f : FlushReply) (s : State) : State := { s with flushReplies := s.flushReplies ++ [f] }

end Sys2Proof.Machine
end

