-- ==== Sys2Proof/Machine/Step.lean ====
section
/-! DEFINITION. One step of the block: the waiting operation goes on, or the next request is taken
(20_memory.md R56: no operation starts before the previous one has responded). -/

namespace Sys2Proof.Machine

/-- One step. -/
def step (s : State) : Host.Outcome State Fault Refusal :=
  match s.pending with
  | some p => resume p s
  | none => idle s

/-- The state with the request whose first `nbits` bits are `w`, its later bits zero, as the next request (log 11). -/
def State.withFetchWord (s : State) (nbits w : Nat) : State := placeRequest (tableRequest nbits w) s

end Sys2Proof.Machine
end

