-- ==== Sys2Proof/Machine/Assembler.lean ====
section
/-! DEFINITION. The assembler: the text of one operation a line (30_encoding.md R89) and the pseudo-instructions (R90).
Text is a list of characters. The rules leave the blanks, the digits' case and lines of another form open: log 16. -/

namespace Sys2Proof.Machine

/-! ### Tokens -/

/-- A token: a bracket, a comma, or a run of other characters, which is a name or a number. -/
inductive Token where
  | openList
  | closeList
  | comma
  | word (w : List Char)
deriving DecidableEq, Repr

/-- The token of the characters gathered so far, if there are any. -/
def gathered (acc : List Char) : List Token := if acc.isEmpty then [] else [.word acc]

/-- The tokens of a line, with the characters of a word gathered in `acc`. A `#` ends the line (R89). -/
def tokens : List Char → List Char → List Token
  | [], acc => gathered acc
  | c :: cs, acc =>
    if c = '#' then gathered acc
    else if c = '[' then gathered acc ++ .openList :: tokens cs []
    else if c = ']' then gathered acc ++ .closeList :: tokens cs []
    else if c = ',' then gathered acc ++ .comma :: tokens cs []
    else if c = ' ' ∨ c = '\t' then gathered acc ++ tokens cs []
    else tokens cs (acc ++ [c])

/-! ### Numbers (R89) -/

/-- The value of a hexadecimal digit. -/
def digitValue (c : Char) : Option Nat :=
  if '0' ≤ c ∧ c ≤ '9' then some (c.toNat - 48)
  else if 'a' ≤ c ∧ c ≤ 'f' then some (c.toNat - 87)
  else if 'A' ≤ c ∧ c ≤ 'F' then some (c.toNat - 55)
  else none

/-- The value of a run of digits below `base`, after digits worth `acc`. -/
def digitsValue (base : Nat) : List Char → Nat → Option Nat
  | [], acc => some acc
  | c :: cs, acc =>
    match digitValue c with
    | some d => if d < base then digitsValue base cs (base * acc + d) else none
    | none => none

/-- A number: hexadecimal with `0x`, or decimal (R89). -/
def numberOf : List Char → Option Nat
  | [] => none
  | '0' :: 'x' :: c :: cs => digitsValue 16 (c :: cs) 0
  | c :: cs => digitsValue 10 (c :: cs) 0

/-- A number that fits a byte. -/
def byteOf (w : List Char) : Option Byte :=
  match numberOf w with
  | some n => if n < 2 ^ 8 then some (BitVec.ofNat 8 n) else none
  | none => none

/-- A number that fits the identifier operand. -/
def wordOf (w : List Char) : Option Word :=
  match numberOf w with
  | some n => if n < 2 ^ 32 then some (BitVec.ofNat 32 n) else none
  | none => none

/-! ### Byte lists -/

/-- The rest of a byte list that ends the line, after one of its bytes. -/
def moreBytes : List Token → Option Bytes
  | [.closeList] => some []
  | .comma :: .word w :: ts =>
    match byteOf w, moreBytes ts with
    | some b, some bs => some (b :: bs)
    | _, _ => none
  | _ => none

/-- A byte list that ends the line. -/
def byteList : List Token → Option Bytes
  | [.openList, .closeList] => some []
  | .openList :: .word w :: ts =>
    match byteOf w, moreBytes ts with
    | some b, some bs => some (b :: bs)
    | _, _ => none
  | _ => none

/-! ### Names -/

/-- What the first word of a line names: an operation (R89) or a pseudo-instruction (R90). -/
inductive Name where
  | op (o : Op)
  | txReboot
  | txGettelem
  | dfrFeeds
  | canFrag
deriving DecidableEq, Repr

/-- The spelling of a name (R89, R90). -/
def nameText : Name → List Char
  | .op .ingPush => ['i', 'n', 'g', '.', 'p', 'u', 's', 'h']
  | .op .ingPop => ['i', 'n', 'g', '.', 'p', 'o', 'p']
  | .op .dfrFeed => ['d', 'f', 'r', '.', 'f', 'e', 'e', 'd']
  | .op .dfrReset => ['d', 'f', 'r', '.', 'r', 'e', 's', 'e', 't']
  | .op .msgDecode => ['m', 's', 'g', '.', 'd', 'e', 'c', 'o', 'd', 'e']
  | .op .txSend => ['t', 'x', '.', 's', 'e', 'n', 'd']
  | .op .txCmd => ['t', 'x', '.', 'c', 'm', 'd']
  | .op .canRx => ['c', 'a', 'n', '.', 'r', 'x']
  | .txReboot => ['t', 'x', '.', 'r', 'e', 'b', 'o', 'o', 't']
  | .txGettelem => ['t', 'x', '.', 'g', 'e', 't', 't', 'e', 'l', 'e', 'm']
  | .dfrFeeds => ['d', 'f', 'r', '.', 'f', 'e', 'e', 'd', 's']
  | .canFrag => ['c', 'a', 'n', '.', 'f', 'r', 'a', 'g']

/-- The names: those of the opcode map, then the pseudo-instructions. -/
def names : List Name := opcodeRows.map .op ++ [.txReboot, .txGettelem, .dfrFeeds, .canFrag]

/-- The name a word spells. -/
def nameOf (w : List Char) : Option Name := names.find? (fun n => nameText n == w)

/-- The operand of `tx.cmd`: a byte, `reboot` or `gettelem` (R89). -/
def commandOf (w : List Char) : Option Byte :=
  if w = ['r', 'e', 'b', 'o', 'o', 't'] then some 0x12
  else if w = ['g', 'e', 't', 't', 'e', 'l', 'e', 'm'] then some 0x17
  else byteOf w

/-- `ext` or `std` (R89): the IDE flag. -/
def kindOf (w : List Char) : Option Bool :=
  if w = ['e', 'x', 't'] then some true else if w = ['s', 't', 'd'] then some false else none

/-! ### Lines -/

/-- `<dest>, [<byte>, ...]`, the operands of the two counted operations. A list that the count cannot give is refused. -/
def destAndBytes (ts : List Token) : Option (Byte × Bytes) :=
  match ts with
  | .word d :: .comma :: ts' =>
    match byteOf d, byteList ts' with
    | some dest, some data => if data.length ≤ 65535 then some (dest, data) else none
    | _, _ => none
  | _ => none

/-- `<id>, <dlc>[, [<byte>, ...]]` after the frame kind of `can.rx`. -/
def canOperands (ide rtr : Bool) (ts : List Token) : Option Instr :=
  match ts with
  | .word i :: .comma :: .word d :: ts' =>
    match wordOf i, byteOf d with
    | some id, some dlc =>
      match ts' with
      | [] => some (.canRx ide rtr 0 id dlc [])
      | .comma :: ts'' =>
        match byteList ts'' with
        | some data => some (.canRx ide rtr 0 id dlc data)
        | none => none
      | _ => none
    | _, _ => none
  | _ => none

/-- The operands of `can.rx` (R89). -/
def canRxLine (ts : List Token) : Option Instr :=
  match ts with
  | .word k :: .comma :: .word r :: ts' =>
    match kindOf k with
    | some ide => if r = ['r', 't', 'r'] then canOperands ide true ts' else none
    | none => none
  | .word k :: ts' =>
    match kindOf k with
    | some ide => canOperands ide false ts'
    | none => none
  | _ => none

/-- The expansion of `can.frag` (R90): at least one payload byte, and a data length code that fits its byte. -/
def canFragInstr (id : Word) (sn sl : Byte) (payload : Bytes) : Option Instr :=
  if payload = [] ∨ 255 < payload.length + 3 then none
  else some (.canRx true false 0 id (BitVec.ofNat 8 (3 + payload.length)) (sn :: 0x00 :: sl :: payload))

/-- The operands of `can.frag` (R90). -/
def canFragLine (ts : List Token) : Option Instr :=
  match ts with
  | .word i :: .comma :: .word n :: .comma :: .word l :: .comma :: ts' =>
    match wordOf i, byteOf n, byteOf l, byteList ts' with
    | some id, some sn, some sl, some payload => canFragInstr id sn sl payload
    | _, _, _, _ => none
  | _ => none

/-- The operations of a line with the given name and operand tokens. -/
def namedLine (n : Name) (ts : List Token) : Option (List Instr) :=
  match n, ts with
  | .op .ingPush, [] => some [.ingPush]
  | .op .ingPop, [] => some [.ingPop]
  | .op .dfrFeed, [.word w] => (byteOf w).map (fun b => [.dfrFeed b])
  | .op .dfrReset, [] => some [.dfrReset]
  | .op .msgDecode, ts => (destAndBytes ts).map (fun p => [.msgDecode p.1 p.2])
  | .op .txSend, ts => (destAndBytes ts).map (fun p => [.txSend p.1 p.2])
  | .op .txCmd, [.word w] => (commandOf w).map (fun c => [.txCmd c])
  | .op .canRx, ts => (canRxLine ts).map (fun i => [i])
  | .txReboot, [] => some [.txCmd 0x12]
  | .txGettelem, [] => some [.txCmd 0x17]
  | .dfrFeeds, ts =>
    match byteList ts with
    | some (b :: bs) => some ((b :: bs).map .dfrFeed)
    | _ => none
  | .canFrag, ts => (canFragLine ts).map (fun i => [i])
  | _, _ => none

/-- The operations of a line: none for an empty line or a comment, several for `dfr.feeds`. -/
def operationsOf (line : List Char) : Option (List Instr) :=
  match tokens line [] with
  | [] => some []
  | .word w :: ts =>
    match nameOf w with
    | some n => namedLine n ts
    | none => none
  | _ => none

/-- The requests a line encodes (R89): those of R81 with the operands in the order written. -/
def assembleLine (line : List Char) : Option (List Bytes) :=
  match operationsOf line with
  | some is => some (is.map encode)
  | none => none

/-- The requests of a program, line after line; none if a line has no form of R89 or R90. -/
def assemble : List (List Char) → Option (List Bytes)
  | [] => some []
  | line :: lines =>
    match assembleLine line, assemble lines with
    | some rs, some more => some (rs ++ more)
    | _, _ => none

/-! ### Writing a line -/

/-- The hexadecimal digit of a value below 16. -/
def digitOf (d : Nat) : Char :=
  ['0', '1', '2', '3', '4', '5', '6', '7', '8', '9', 'a', 'b', 'c', 'd', 'e', 'f'].getD d '0'

/-- A value as `0x` and `n` hexadecimal digits. -/
def hexText : Nat → Nat → List Char
  | 0, _ => ['0', 'x']
  | n + 1, v => hexText n (v / 16) ++ [digitOf (v % 16)]

/-- A byte in hexadecimal. -/
def byteText (b : Byte) : List Char := hexText 2 b.toNat

/-- The bytes of a list, each but the first after a comma, then the closing bracket. -/
def moreText : Bytes → List Char
  | [] => [']']
  | b :: bs => ',' :: byteText b ++ moreText bs

/-- A byte list. -/
def listText : Bytes → List Char
  | [] => ['[', ']']
  | b :: bs => '[' :: byteText b ++ moreText bs

/-- The line of an operation. The syntax of R89 cannot write `flags[7:2]`, so they count as zero. -/
def lineText : Instr → List Char
  | .ingPush => nameText (.op .ingPush)
  | .ingPop => nameText (.op .ingPop)
  | .dfrFeed b => nameText (.op .dfrFeed) ++ ' ' :: byteText b
  | .dfrReset => nameText (.op .dfrReset)
  | .msgDecode dest data => nameText (.op .msgDecode) ++ ' ' :: byteText dest ++ ',' :: listText data
  | .txSend dest data => nameText (.op .txSend) ++ ' ' :: byteText dest ++ ',' :: listText data
  | .txCmd c => nameText (.op .txCmd) ++ ' ' :: byteText c
  | .canRx ide rtr _ id dlc data =>
    nameText (.op .canRx) ++ (if ide then [' ', 'e', 'x', 't'] else [' ', 's', 't', 'd']) ++
      (if rtr then [',', 'r', 't', 'r', ' '] else [' ']) ++ hexText 8 id.toNat ++ ',' :: byteText dlc ++
        (if rtr then [] else ',' :: listText data)

end Sys2Proof.Machine
end

