-- ==== Sys2Proof/Safety.lean ====
section
/-! DEFINITION. What claims about the block are stated with: the two shapes of the ingest contents and the unread bytes
(10_state.md R31, R32), the invariant, what one operation leaves alone, and the running of several operations in a row. -/

namespace Sys2Proof.Machine

/-! ### The ingest contents -/

/-- The linear shape (R31). -/
abbrev linearShape (s : State) : Prop := s.ingHead = s.ingLen ∧ s.ingTail ≤ s.ingHead

/-- The wrapped shape (R31). -/
abbrev wrappedShape (s : State) : Prop :=
  s.ingHead < s.ingTail ∧ s.ingTail ≤ s.ingLen ∧ s.ingLen > s.cfg.chunk

/-- What the indices from `a` up to and without `b` read as. -/
def readRange (m : Memory) (a b : Nat) : List (Option Byte) := (List.range' a (b - a)).map (memRead m)

/-- The unread contents `U` (R32): what a run of pops would return, in order. -/
def unread (s : State) : List (Option Byte) :=
  if s.ingHead < s.ingLen then readRange s.ingS s.ingTail s.ingLen ++ readRange s.ingS 0 s.ingHead
  else readRange s.ingS s.ingTail s.ingHead

/-- The four admission cases of 40_ingest.md R111, written out. -/
abbrev admitted (s : State) : Prop :=
  (s.ingHead = s.ingLen ∧ s.ingHead ≤ s.cfg.chunk) ∨
  (s.ingHead = s.ingLen ∧ s.ingHead > s.cfg.chunk ∧ s.ingTail > s.cfg.chunk) ∨
  (s.ingHead ≠ s.ingLen ∧ s.ingHead ≤ s.cfg.chunk ∧ s.ingTail > s.ingHead + s.cfg.chunk)

/-! ### The invariant -/

/-- `BODY(e, r)` is in range and its `r` bytes are in `FB` (R23, R24). -/
def deframerInv (s : State) : Prop :=
  match s.dfr with
  | .sync _ => True
  | .length => True
  | .body e r => 6 ≤ e ∧ e ≤ 255 ∧ r < e ∧ ∀ i, i < r → (memRead s.fb i).isSome = true

/-- What holds while an operation waits: a waiting read was admitted, a waiting write has bytes to write. -/
def waitingInv (s : State) : Prop :=
  match s.pending with
  | none => True
  | some .read => admitted s
  | some (.write rest _) => rest ≠ []
  | some (.flush _ _) => True

/-- The invariant of the block. It holds at reset and every step keeps it. -/
structure BlockInv (s : State) : Prop where
  /-- The parameters meet 00_scope.md R8. -/
  params : s.cfg.valid
  /-- `INV_ING` (R31). -/
  shape : linearShape s ∨ wrappedShape s
  /-- The cursors are in range (R27, R29; R28 follows). -/
  cursors : s.ingHead ≤ 2 * s.cfg.chunk ∧ s.ingLen ≤ 2 * s.cfg.chunk
  /-- `ING_S` is in canonical form and holds no index outside its size (R26, 20_memory.md R55). -/
  ingestStore : Memory.wf s.ingS ∧ ∀ c ∈ s.ingS, c.1 < 2 * s.cfg.chunk
  /-- Every unread byte was written by a read (R32). -/
  unreadWritten : ∀ b ∈ unread s, b.isSome = true
  /-- `FB` is in canonical form and holds no index outside its size (R24, R55). -/
  frameStore : Memory.wf s.fb ∧ ∀ c ∈ s.fb, c.1 < 256
  /-- `DFR_STATE` is one of its values and `FB` holds the bytes received (R23, R24). -/
  deframer : deframerInv s
  /-- `CAN_TABLE` has one entry a source, no more entries than its capacity, and no buffer above its capacity (R35). -/
  table : keysRising s.canTable ∧ s.canTable.length ≤ s.cfg.numSources ∧
    ∀ c ∈ s.canTable, c.2.length ≤ s.cfg.maxPacket
  /-- The waiting operation is one the rules let wait. -/
  waiting : waitingInv s

/-! ### What an operation leaves alone -/

/-- No byte of `ING_S` changed, and no cursor. -/
def sameIngest (s t : State) : Prop :=
  (∀ a, memRead t.ingS a = memRead s.ingS a) ∧ t.ingHead = s.ingHead ∧ t.ingTail = s.ingTail ∧ t.ingLen = s.ingLen

/-- No byte of `FB` changed, nor `DFR_STATE`. -/
def sameDeframer (s t : State) : Prop := (∀ a, memRead t.fb a = memRead s.fb a) ∧ t.dfr = s.dfr

/-- No entry of `CAN_TABLE` changed. -/
def sameTable (s t : State) : Prop := ∀ k, canGet t.canTable k = canGet s.canTable k

/-- The parameters and the host's requests to come are as before. -/
def sameHost (s t : State) : Prop := t.cfg = s.cfg ∧ t.requests = s.requests

/-- Nothing passed between the block and its collaborators. -/
def sameCollaborators (s t : State) : Prop :=
  t.readReplies = s.readReplies ∧ t.writeReplies = s.writeReplies ∧ t.flushReplies = s.flushReplies ∧
    t.traffic = s.traffic

/-- What lies outside the ingest buffer and its byte source is as before: the parameters, the requests to come, the
deframer, the counter, the CAN table, and the replies the byte sink will give. -/
abbrev sameOutsideIngest (s t : State) : Prop :=
  sameHost s t ∧ sameDeframer s t ∧ t.txSeq = s.txSeq ∧ sameTable s t ∧ t.writeReplies = s.writeReplies ∧
    t.flushReplies = s.flushReplies

/-- The state after one more response, with nothing else changed and no operation waiting. -/
def responded (s : State) (bytes : Bytes) : State :=
  { s with responses := s.responses ++ [bytes], pending := none }

/-! ### Operations in a row -/

/-- The next state, if there is one. -/
def nextState : Result → Option State
  | .next t => some t
  | .fault _ => none
  | .refused _ => none

/-- Runs operations in the order given, each from the state the one before it left; stops at a fault or a refusal. -/
def execAll : List Instr → State → Result
  | [], s => .next s
  | i :: is, s =>
    match exec i s with
    | .next t => execAll is t
    | .fault f => .fault f
    | .refused r => .refused r

/-- Feeds a byte string to the deframer, one `dfr.feed` a byte. -/
def feedAll (bytes : Bytes) (s : State) : Result := execAll (bytes.map .dfrFeed) s

/-- The bytes the byte sink has accepted, from the log: of each `Write` answered `Ok(k)`, the first `k` (42_encoder.md
R163). -/
def acceptedBytes : List Event → Bytes
  | .write bytes :: .writeReply (.ok k) :: es => bytes.take k ++ acceptedBytes es
  | _ :: es => acceptedBytes es
  | [] => []

/-- A CAN fragment as the operand of `can.rx` (30_encoding.md R77): an extended data frame with the header bytes
`seq_num`, reserved, `seq_len` and then the payload. -/
abbrev fragmentFrame (id : Word) (seqNum reserved seqLen : Byte) (payload : Bytes) : Instr :=
  .canRx true false 0 id (BitVec.ofNat 8 (payload.length + 3)) (seqNum :: reserved :: seqLen :: payload)

/-- The source id of an identifier operand. -/
abbrev sourceIn (s : State) (id : Word) : Nat := sourceOf s.cfg.sourceMap (id.setWidth 29)

/-- The pieces of the reassembler's pseudocode that a statement needs: the fragment is one of R77, its announced size
passes step 2 (R183), and its source has an entry or a slot is free for one (R184). -/
abbrev acceptable (s : State) (id : Word) (seqLen : Byte) (payload : Bytes) : Prop :=
  id.toNat < 2 ^ 29 ∧ 1 ≤ payload.length ∧ payload.length ≤ 5 ∧ seqLen.toNat * 5 ≤ s.cfg.maxPacket ∧
    (canGet s.canTable (sourceIn s id) = none → s.canTable.length < s.cfg.numSources)

/-- The buffer a fragment is checked against: empty for `seq_num = 0` (R185) and for a source without an entry (R184). -/
def currentBuffer (s : State) (id : Word) (seqNum : Byte) : Bytes :=
  if seqNum = 0 then [] else (canGet s.canTable (sourceIn s id)).getD []

/-! ### The wire and the port, written out -/

/-- A frame on the wire (30_encoding.md R70). -/
def wireFrame (hwid seq : Half) (dest : Byte) (data : Bytes) : Bytes :=
  [0x22, 0x69, BitVec.ofNat 8 (data.length + 5), lo hwid, hi hwid, lo seq, hi seq, dest] ++ data

/-- What passes between the block and the sink in rounds that all succeed, with the counts accepted (42_encoder.md R163). -/
def goodRounds : Bytes → List Nat → List Event
  | _, [] => []
  | rest, k :: ks =>
    .write rest :: .writeReply (.ok k) :: .flush :: .flushReply .ok :: goodRounds (rest.drop k) ks

/-- The operation is a send that passes its checks: `tx.send` of a payload with a count (R83) that is within the limit
(42_encoder.md R161), or `tx.cmd` of one of the two commands (R166), whose frame carries `data` to `dest`. -/
abbrev legalSend (s : State) (i : Instr) (dest : Byte) (data : Bytes) : Prop :=
  (i = .txSend dest data ∧ data.length ≤ s.cfg.txMaxPayload ∧ data.length ≤ 65535) ∨
    (∃ c, i = .txCmd c ∧ (c = 0x12 ∨ c = 0x17) ∧ dest = 0x01 ∧ data = [c] ∧ 1 ≤ s.cfg.txMaxPayload)

/-- The sink's replies hold a claim outside its liberties (R163): with `rest` to be written, good rounds of the counts `ks`
leave bytes unsent, and the next write is answered with a count `k` above what is then unsent. -/
def overclaims (rest : Bytes) (ws : List WriteReply) (fs : List FlushReply) : Prop :=
  ∃ (ks : List Nat) (k : Nat) (ws' : List WriteReply) (fs' : List FlushReply),
    ks.sum < rest.length ∧ k > rest.length - ks.sum ∧ ws = ks.map .ok ++ .ok k :: ws' ∧
      fs = List.replicate ks.length .ok ++ fs'

/-- The byte source's next reply is outside its liberties (40_ingest.md R118), and the step takes it: a push waits for it,
or the next request is a push that is admitted. -/
def overlongReply (s : State) : Prop :=
  (∃ bytes rs, s.readReplies = .ok bytes :: rs ∧ bytes.length > s.cfg.chunk) ∧
    (s.pending = some .read ∨ (s.pending = none ∧ (∃ rest, s.requests = [0x01] :: rest) ∧ admitted s))

/-- The step takes a claim of the byte sink that is outside its liberties (R163): for the bytes a send still has to write
when it waits for a write or a flush, or for the whole frame of the send that is requested. -/
def overclaimedReply (s : State) : Prop :=
  (∃ rest seq, s.pending = some (.write rest seq) ∧ overclaims rest s.writeReplies s.flushReplies) ∨
  (∃ rest seq fs, s.pending = some (.flush rest seq) ∧ s.flushReplies = .ok :: fs ∧
    overclaims rest s.writeReplies fs) ∨
  (∃ req rest i dest data, s.pending = none ∧ s.requests = req :: rest ∧ decode req = .ok i ∧
    legalSend s i dest data ∧ overclaims (wireFrame s.cfg.hwid s.txSeq dest data) s.writeReplies s.flushReplies)

/-- The opcodes of R82. -/
def definedOpcodes : Bytes := [0x01, 0x02, 0x10, 0x11, 0x12, 0x20, 0x21, 0x30]

/-- The length R85 gives a request with a defined opcode. A byte the request lacks counts as zero here; such a request
is shorter than the fixed part of its format, so its length differs from this one all the same. -/
def formatLength (req : Bytes) : Nat :=
  if byteAt req 0 ∈ [0x01, 0x02, 0x11] then 1
  else if byteAt req 0 ∈ [0x10, 0x21] then 2
  else if byteAt req 0 ∈ [0x12, 0x20] then 4 + ((byteAt req 2).toNat + 256 * (byteAt req 3).toNat)
  else 7 + (if (byteAt req 1).getLsbD 1 then 0 else (byteAt req 6).toNat)

/-- The identifier field of a format K request (R81). -/
def idField (req : Bytes) : Nat :=
  (byteAt req 2).toNat + 2 ^ 8 * (byteAt req 3).toNat + 2 ^ 16 * (byteAt req 4).toNat + 2 ^ 24 * (byteAt req 5).toNat

/-- The three conditions of R87 on a request with a defined opcode. -/
abbrev malformedRequest (req : Bytes) : Prop :=
  req.length ≠ formatLength req ∨
  (byteAt req 0 = 0x21 ∧ byteAt req 1 ≠ 0x12 ∧ byteAt req 1 ≠ 0x17) ∨
  (byteAt req 0 = 0x30 ∧
    ((byteAt req 1).toNat / 4 ≠ 0 ∨ (byteAt req 6).toNat > 8 ∨
      ((byteAt req 1).getLsbD 0 = true ∧ idField req ≥ 2 ^ 29) ∨
      ((byteAt req 1).getLsbD 0 = false ∧ idField req ≥ 2 ^ 11)))

/-- The status bytes of R200. -/
def definedStatuses : Bytes :=
  [0x00, 0x01, 0x02, 0x03, 0x04, 0x05, 0x06, 0x07, 0x08, 0x09, 0x0A, 0x0B, 0xFD, 0xFE]

end Sys2Proof.Machine
end

