-- ==== Sys2Proof/Certificates/Slice0/Obligations.lean ====
section
/-! DEFINITION. The statements about the block that the provers are asked for; OBLIGATIONS.json gives each its rules.
A statement about `exec` is about one operation with all its responses and collaborator traffic; the statements about
`step` tie it to the request at the port. -/

open Sys2Proof Sys2Proof.Machine

/-! ## The operation port -/

/-- One request of each operation, written from R81 to R84, decodes to that operation. -/
def Obligations.RequestWordsDecode : Prop :=
  decode [0x01] = .ok .ingPush ∧
  decode [0x02] = .ok .ingPop ∧
  decode [0x10, 0x5A] = .ok (.dfrFeed 0x5A) ∧
  decode [0x11] = .ok .dfrReset ∧
  decode [0x12, 0x11, 0x02, 0x00, 0xAA, 0xBB] = .ok (.msgDecode 0x11 [0xAA, 0xBB]) ∧
  decode [0x20, 0x42, 0x01, 0x00, 0xAA] = .ok (.txSend 0x42 [0xAA]) ∧
  decode [0x21, 0x17] = .ok (.txCmd 0x17) ∧
  decode [0x30, 0x01, 0x78, 0x56, 0x34, 0x12, 0x04, 0x00, 0x5A, 0x02, 0x61] =
    .ok (.canRx true false 0 0x12345678 4 [0x00, 0x5A, 0x02, 0x61])

/-- When no operation waits and the oldest request decodes to an operation, a step takes the request and is that
operation. -/
def Obligations.StepRunsDecodedRequest : Prop :=
  ∀ (s : State) (req : Bytes) (rest : List Bytes) (i : Instr),
    s.pending = none → s.requests = req :: rest → decode req = .ok i →
      step s = exec i { s with requests := rest }

/-- Without a request the block stays as it is (log 1); a waiting operation without its reply has no next step (R214). -/
def Obligations.StepWaitsWithoutInput : Prop :=
  ∀ s : State,
    (s.pending = none → s.requests = [] → step s = .next s) ∧
    (s.pending = some .read → s.readReplies = [] → step s = .fault .stuckRead) ∧
    (∀ rest seq, s.pending = some (.write rest seq) → s.writeReplies = [] → step s = .fault .stuckWrite) ∧
    (∀ rest seq, s.pending = some (.flush rest seq) → s.flushReplies = [] → step s = .fault .stuckFlush)

/-- R86: which opcodes are reserved, and that a request with one gets `[0xFE]` and changes no state. -/
def Obligations.ReservedOpcodeAnswersIllegal : Prop :=
  ∀ (s : State) (op : Byte) (args : Bytes) (rest : List Bytes),
    (op ∉ definedOpcodes ↔
      op.toNat = 0x00 ∨ (0x03 ≤ op.toNat ∧ op.toNat ≤ 0x0F) ∨ (0x13 ≤ op.toNat ∧ op.toNat ≤ 0x1F) ∨
        (0x22 ≤ op.toNat ∧ op.toNat ≤ 0x2F) ∨ (0x31 ≤ op.toNat ∧ op.toNat ≤ 0xFF)) ∧
    (s.pending = none → s.requests = (op :: args) :: rest → op ∉ definedOpcodes →
      step s = .next (responded { s with requests := rest } [0xFE]))

/-- R87: a request with a defined opcode gets `[0xFD]` and changes no state exactly under the three conditions; every
other request with a defined opcode is an operation whose own rule runs. -/
def Obligations.MalformedRequestAnswersBadOperand : Prop :=
  ∀ (s : State) (req : Bytes) (rest : List Bytes),
    s.pending = none → s.requests = req :: rest → byteAt req 0 ∈ definedOpcodes →
      (malformedRequest req → step s = .next (responded { s with requests := rest } [0xFD])) ∧
      (¬ malformedRequest req →
        ∃ i, decode req = .ok i ∧ malformed i = false ∧ step s = exec i { s with requests := rest })

/-- Decoding the request of a well-formed instruction gives the instruction back, for every operand value. -/
def Obligations.DecodeOfEncodeIsInstruction : Prop :=
  ∀ i : Instr, i.wellFormed = true → decode (encode i) = .ok i

/-- Each request has one reading: the instruction it decodes to is well-formed and encodes to the request again. -/
def Obligations.EncodeOfDecodeIsRequest : Prop :=
  ∀ (req : Bytes) (i : Instr), decode req = .ok i → i.wellFormed = true ∧ encode i = req

/-! ## The ingest buffer -/

/-- A push that none of the four cases of R111 admits answers OVERFLOW and changes nothing; it issues no read. -/
def Obligations.PushNotAdmittedOverflows : Prop :=
  ∀ s : State, ¬ admitted s → exec .ingPush s = .next (responded s [0x02])

/-- R112: an admitted push issues one `Read(C)` and stores the reply from `start` on. -/
def Obligations.PushStoresTheChunk : Prop :=
  ∀ (s : State) (bytes : Bytes) (rs : List ReadReply),
    admitted s → s.readReplies = .ok bytes :: rs → bytes.length ≤ s.cfg.chunk →
      let start := if s.ingHead ≤ s.cfg.chunk then s.ingHead else 0
      ∃ t, exec .ingPush s = .next t ∧
        (∀ i, i < bytes.length → memRead t.ingS (start + i) = bytes[i]?) ∧
        (∀ a, a < start ∨ start + bytes.length ≤ a → memRead t.ingS a = memRead s.ingS a) ∧
        t.ingHead = start + bytes.length ∧ t.ingLen = max s.ingLen (start + bytes.length) ∧
        t.ingTail = s.ingTail ∧
        t.traffic = s.traffic ++ [.read s.cfg.chunk, .readReply (.ok bytes)] ∧ t.readReplies = rs ∧
        t.responses =
          s.responses ++ [[0x00, BitVec.ofNat 8 bytes.length, BitVec.ofNat 8 (bytes.length / 256)]] ∧
        t.pending = none

/-- R113: after a failed or cancelled read the cursors and every byte outside the region stand, and in a state of the
invariant the unread contents stand. What the bytes of the region are is left open. -/
def Obligations.FailedReadKeepsCursors : Prop :=
  ∀ (s : State) (r : ReadReply) (rs : List ReadReply) (resp : Bytes),
    admitted s → s.readReplies = r :: rs →
    ((∃ e, r = .err e ∧ resp = [0x03, e]) ∨ (r = .cancelled ∧ resp = [0x0B])) →
      let start := if s.ingHead ≤ s.cfg.chunk then s.ingHead else 0
      ∃ t, exec .ingPush s = .next t ∧
        t.ingHead = s.ingHead ∧ t.ingTail = s.ingTail ∧ t.ingLen = s.ingLen ∧
        (∀ a, a < start ∨ start + s.cfg.chunk ≤ a → memRead t.ingS a = memRead s.ingS a) ∧
        t.traffic = s.traffic ++ [.read s.cfg.chunk, .readReply r] ∧ t.readReplies = rs ∧
        t.responses = s.responses ++ [resp] ∧ t.pending = none ∧
        (BlockInv s → unread t = unread s)

/-- R118 and the last sentence of R163: a reply outside a collaborator's liberties is refused, with no step. `ks` are
the counts of the rounds before the claim, and `k` the claim. -/
def Obligations.ReplyOutsideLibertiesIsRefused : Prop :=
  (∀ (s : State) (bytes : Bytes) (rs : List ReadReply),
    admitted s → s.readReplies = .ok bytes :: rs → bytes.length > s.cfg.chunk →
      exec .ingPush s = .refused .overlongRead) ∧
  (∀ (s : State) (dest : Byte) (data : Bytes) (ks : List Nat) (k : Nat) (ws : List WriteReply)
      (fs : List FlushReply),
    data.length ≤ s.cfg.txMaxPayload → data.length ≤ 65535 →
    ks.sum < data.length + 8 → k > data.length + 8 - ks.sum →
    s.writeReplies = ks.map .ok ++ .ok k :: ws → s.flushReplies = List.replicate ks.length .ok ++ fs →
      exec (.txSend dest data) s = .refused .overclaimedWrite)

/-- A push without a reply waits: it has issued its `Read(C)`, a step without the reply is stuck, and with the reply it
goes on exactly as a push that finds the reply at hand. -/
def Obligations.WaitingPushGoesOn : Prop :=
  ∀ s : State, admitted s → s.readReplies = [] →
    ∃ t, exec .ingPush s = .next t ∧ t.pending = some .read ∧ t.traffic = s.traffic ++ [.read s.cfg.chunk] ∧
      t.responses = s.responses ∧ step t = .fault .stuckRead ∧
      ∀ r, step (offerRead r t) = exec .ingPush (offerRead r s)

/-- R114: the rewind happens only when the contents are wrapped and the upper part is drained; then EMPTY (R115), or
the byte at the read cursor, which advances (R116). -/
def Obligations.PopRewindsThenReturns : Prop :=
  ∀ (s s' : State),
    s' = (if s.ingTail ≥ s.ingLen ∧ s.ingHead < s.ingLen then { s with ingLen := s.ingHead, ingTail := 0 } else s) →
      (s'.ingHead = s'.ingTail → exec .ingPop s = .next (responded s' [0x01])) ∧
      (∀ b, s'.ingHead ≠ s'.ingTail → s'.ingTail < 2 * s.cfg.chunk → memRead s'.ingS s'.ingTail = some b →
        exec .ingPop s = .next (responded { s' with ingTail := s'.ingTail + 1 } [0x00, b]))

/-- The ingest buffer is a FIFO (R32, R117): a push adds its bytes at the end of the unread contents, a pop takes the
first of them, and a pop of no contents answers EMPTY. -/
def Obligations.IngestIsFifo : Prop :=
  ∀ s : State, BlockInv s →
    (∀ bytes rs, admitted s → s.readReplies = .ok bytes :: rs → bytes.length ≤ s.cfg.chunk →
      ∃ t, exec .ingPush s = .next t ∧ unread t = unread s ++ bytes.map some) ∧
    (unread s = [] → ∃ t, exec .ingPop s = .next t ∧ unread t = [] ∧ t.responses = s.responses ++ [[0x01]]) ∧
    (∀ b u, unread s = some b :: u →
      ∃ t, exec .ingPop s = .next t ∧ unread t = u ∧ t.responses = s.responses ++ [[0x00, b]])

/-- R120: after a pop has answered EMPTY the contents are linear and drained, a push is admitted, and it does not answer
OVERFLOW. -/
def Obligations.PushAfterEmptyIsAdmitted : Prop :=
  ∀ s t : State, linearShape s ∨ wrappedShape s → exec .ingPop s = .next t → t.responses = s.responses ++ [[0x01]] →
    t.ingHead = t.ingLen ∧ t.ingTail = t.ingHead ∧
    ((t.ingHead ≤ t.cfg.chunk) ∨ (t.ingTail > t.cfg.chunk ∧ t.ingHead > t.cfg.chunk)) ∧ admitted t ∧
    ∀ u, exec .ingPush t = .next u → u.responses ≠ t.responses ++ [[0x02]]

/-- R31: after every operation exactly one of the two shapes holds, and `ING_HEAD < ING_LEN` exactly in the wrapped
one. -/
def Obligations.OneShapeAfterEveryOperation : Prop :=
  ∀ (i : Instr) (s t : State), BlockInv s → exec i s = .next t →
    ((linearShape t ∧ ¬ wrappedShape t) ∨ (¬ linearShape t ∧ wrappedShape t)) ∧
    (t.ingHead < t.ingLen ↔ wrappedShape t)

/-- What `ing.push` and `ing.pop` leave alone. A push stores inside its region only, or nowhere if it is not admitted; a
pop stores nothing. -/
def Obligations.IngestFrames : Prop :=
  ∀ s t : State,
    (exec .ingPush s = .next t →
      sameOutsideIngest s t ∧ t.ingTail = s.ingTail ∧
      (¬ admitted s → sameIngest s t ∧ sameCollaborators s t) ∧
      ∀ a start, (if s.ingHead ≤ s.cfg.chunk then s.ingHead else 0) = start →
        a < start ∨ start + s.cfg.chunk ≤ a → memRead t.ingS a = memRead s.ingS a) ∧
    (exec .ingPop s = .next t →
      sameOutsideIngest s t ∧ sameCollaborators s t ∧ t.ingHead = s.ingHead ∧
      ∀ a, memRead t.ingS a = memRead s.ingS a)

/-! ## The deframer -/

/-- R131: the sync search, as its table has it. -/
def Obligations.FeedInSyncFollowsTable : Prop :=
  ∀ (s : State) (p : Fin 2) (b : Byte), s.dfr = .sync p →
    exec (.dfrFeed b) s =
      .next (responded
        { s with dfr := if p = 0 then (if b = 0x22 then .sync 1 else .sync 0)
                        else (if b = 0x69 then .length else .sync 0) } [0x00, 0x00])

/-- R132: the length byte. -/
def Obligations.FeedInLengthFollowsLen : Prop :=
  ∀ (s : State) (b : Byte), s.dfr = .length →
    exec (.dfrFeed b) s =
      .next (if b.toNat ≤ 5 then responded { s with dfr := .sync 0 } [0x00, 0x02, b]
        else if b.toNat - 5 > 251 then responded { s with dfr := .sync 0 } [0x06, 0x01]
        else responded { s with dfr := .body b.toNat 0 } [0x00, 0x00])

/-- R133 and R134: a body byte is stored at index `r`; the last one ends the frame, whose header fields and payload are
the bytes received, and which the response carries as a copy. `pre` are the bytes received before `b`. -/
def Obligations.FeedInBodyStoresAndEmits : Prop :=
  ∀ (s : State) (e r : Nat) (b : Byte) (pre : Bytes),
    s.dfr = .body e r → 6 ≤ e → e ≤ 255 → r < e → memReadAll s.fb 0 r = some pre →
      ∃ fb, (∀ a, memRead fb a = if a = r then some b else memRead s.fb a) ∧
        (r + 1 ≠ e →
          exec (.dfrFeed b) s = .next (responded { s with fb := fb, dfr := .body e (r + 1) } [0x00, 0x00])) ∧
        (r + 1 = e → ∃ f : Frame,
          f.hwid.toNat = (byteAt (pre ++ [b]) 0).toNat + 256 * (byteAt (pre ++ [b]) 1).toNat ∧
          f.seq.toNat = (byteAt (pre ++ [b]) 2).toNat + 256 * (byteAt (pre ++ [b]) 3).toNat ∧
          f.dest = byteAt (pre ++ [b]) 4 ∧ f.payload = (pre ++ [b]).drop 5 ∧
          exec (.dfrFeed b) s =
            .next (responded { s with fb := fb, dfr := .sync 0 }
              ([0x00, 0x01, lo f.hwid, hi f.hwid, lo f.seq, hi f.seq, f.dest, BitVec.ofNat 8 (e - 5)] ++
                f.payload)))

/-- R140 and R39: `dfr.reset` returns the deframer to `SYNC(0)`, answers `[0x00]` and changes nothing else. -/
def Obligations.DeframerResetOnlyResyncs : Prop :=
  ∀ s : State, exec .dfrReset s = .next (responded { s with dfr := .sync 0 } [0x00])

/-- R137: the sync pattern and a short length give no frame and leave the deframer searching. -/
def Obligations.ShortLengthResyncs : Prop :=
  ∀ (s : State) (len : Byte), s.dfr = .sync 0 → len.toNat ≤ 5 →
    feedAll [0x22, 0x69, len] s =
      .next { s with dfr := .sync 0, pending := none,
                     responses := s.responses ++ [[0x00, 0x00], [0x00, 0x00], [0x00, 0x02, len]] }

/-- R136: bytes that never hold `0x22 0x69` side by side give NONE each, and leave `SYNC(k mod 2)`, where `k` is the
length of the run of `0x22` that ends them. -/
def Obligations.GarbageIsSkipped : Prop :=
  ∀ (s : State) (g : Bytes), s.dfr = .sync 0 →
    (∀ i : Nat, g[i]? = some (0x22 : Byte) → g[i + 1]? ≠ some (0x69 : Byte)) →
      ∃ t, feedAll g s = .next t ∧
        t.responses = s.responses ++ List.replicate g.length [0x00, 0x00] ∧
        t.dfr = .sync (if (g.reverse.takeWhile (· == 0x22)).length % 2 = 0 then 0 else 1) ∧
        sameIngest s t ∧ (∀ a, memRead t.fb a = memRead s.fb a) ∧ t.txSeq = s.txSeq ∧ sameTable s t

/-- R138 and R139: a frame with a payload of 1 to 250 bytes, fed from `SYNC(0)`, gives NONE for every byte but the last,
then the frame it was built from, and leaves `SYNC(0)`. -/
def Obligations.FrameRoundTrip : Prop :=
  ∀ (s : State) (hwid seq : Half) (dest : Byte) (data : Bytes),
    s.dfr = .sync 0 → 1 ≤ data.length → data.length ≤ 250 →
      ∃ t, feedAll (wireFrame hwid seq dest data) s = .next t ∧ t.dfr = .sync 0 ∧
        t.responses = s.responses ++ List.replicate (data.length + 7) [0x00, 0x00] ++
          [[0x00, 0x01, lo hwid, hi hwid, lo seq, hi seq, dest, BitVec.ofNat 8 data.length] ++ data] ∧
        sameIngest s t ∧ t.txSeq = s.txSeq ∧ sameTable s t

/-- What the deframer operations leave alone: all but `DFR_STATE` and, in `BODY(e, r)`, the one byte `FB[r]`; a reset
stores nothing. -/
def Obligations.DeframerFrames : Prop :=
  ∀ s t : State,
    (∀ b, exec (.dfrFeed b) s = .next t →
      sameHost s t ∧ sameIngest s t ∧ t.txSeq = s.txSeq ∧ sameTable s t ∧ sameCollaborators s t ∧
      (∀ e r, s.dfr = .body e r → ∀ a, a ≠ r → memRead t.fb a = memRead s.fb a) ∧
      ((∀ e r, s.dfr ≠ .body e r) → ∀ a, memRead t.fb a = memRead s.fb a)) ∧
    (exec .dfrReset s = .next t →
      sameHost s t ∧ sameIngest s t ∧ t.txSeq = s.txSeq ∧ sameTable s t ∧ sameCollaborators s t ∧
      ∀ a, memRead t.fb a = memRead s.fb a)

/-! ## Message decode -/

/-- R141: the response depends on the operands alone, and nothing but the response changes. -/
def Obligations.MessageDecodeIsPure : Prop :=
  ∀ (dest : Byte) (data : Bytes), data.length ≤ 65535 →
    ∃ resp, ∀ s, exec (.msgDecode dest data) s = .next (responded s resp)

/-- R144, R146 and R147: the reply codes of a LOCAL payload. -/
def Obligations.LocalDecodeFollowsCodes : Prop :=
  ∀ (s : State) (c : Byte) (sub : Bytes), sub.length < 65535 →
    exec (.msgDecode 0x01 []) s = .next (responded s [0x06, 0x03]) ∧
    (c = 0x10 → exec (.msgDecode 0x01 (c :: sub)) s = .next (responded s [0x00, 0x00])) ∧
    (c = 0xFF → exec (.msgDecode 0x01 (c :: sub)) s = .next (responded s [0x00, 0x01])) ∧
    (c = 0x18 → sub.length < 62 → exec (.msgDecode 0x01 (c :: sub)) s = .next (responded s [0x06, 0x02])) ∧
    (c = 0x18 → 62 ≤ sub.length →
      exec (.msgDecode 0x01 (c :: sub)) s =
        .next (responded s (0x00 :: messageBytes (.telemetry (telemetryOf sub))))) ∧
    (c ≠ 0x10 → c ≠ 0xFF → c ≠ 0x18 →
      exec (.msgDecode 0x01 (c :: sub)) s = .next (responded s [0x00, 0x03, c]))

/-- R145: the fields of a telemetry sample and the bytes they are reported as. -/
def Obligations.TelemetryFieldsFollowLayout : Prop :=
  ∀ (s : State) (sub : Bytes), 62 ≤ sub.length → sub.length < 65535 →
    let n32 := fun i => (byteAt sub i).toNat + 2 ^ 8 * (byteAt sub (i + 1)).toNat +
      2 ^ 16 * (byteAt sub (i + 2)).toNat + 2 ^ 24 * (byteAt sub (i + 3)).toNat
    ∃ t : TelemetrySample,
      messageOf 0x01 (0x18 :: sub) = .ok (.telemetry t) ∧
      t.uptime.toNat = n32 0 ∧
      t.rssi = (if (byteAt sub 35).toNat < 128 then ((byteAt sub 35).toNat : Int)
        else (byteAt sub 35).toNat - 256) ∧
      t.lqi = byteAt sub 36 ∧ t.packetsSent.toNat = n32 38 ∧ t.packetsGood.toNat = n32 46 ∧
      t.packetsRejectedChecksum.toNat = n32 50 ∧
      t.packetsRejectedOther.toNat = (n32 58 + n32 54) % 2 ^ 32 ∧
      exec (.msgDecode 0x01 (0x18 :: sub)) s =
        .next (responded s ([0x00, 0x02] ++ slice sub 0 4 ++ [byteAt sub 35, byteAt sub 36] ++ slice sub 38 42 ++
          slice sub 46 50 ++ slice sub 50 54 ++ wordBytes t.packetsRejectedOther))

/-- R148 and R149: a relay payload is handed on whole; any other destination is unknown, whatever the data, with the
same result as a LOCAL reply of code 0x00. -/
def Obligations.RelayAndUnknownDestinations : Prop :=
  ∀ (s : State) (dest : Byte) (data : Bytes), data.length ≤ 65535 →
    exec (.msgDecode 0x11 data) s =
      .next (responded s
        ([0x00, 0x04, BitVec.ofNat 8 data.length, BitVec.ofNat 8 (data.length / 256)] ++ data)) ∧
    (dest ≠ 0x01 → dest ≠ 0x11 → exec (.msgDecode dest data) s = .next (responded s [0x00, 0x03, 0x00])) ∧
    exec (.msgDecode 0x01 [0x00]) s = .next (responded s [0x00, 0x03, 0x00])

/-! ## The encoder and sender -/

/-- A payload above `TX_MAX_PAYLOAD` is rejected before any write, with nothing changed. -/
def Obligations.OverlongPayloadIsRejected : Prop :=
  ∀ (s : State) (dest : Byte) (data : Bytes), s.cfg.txMaxPayload < data.length → data.length ≤ 65535 →
    exec (.txSend dest data) s = .next (responded s [0x05])

/-- R162: once the length check has passed, the first thing the sink is offered is the frame with the counter's old
value, and the counter advances, whatever the sink answers; both sends use the one counter. The only other outcome is the
refusal of a sink that claims more than was unsent. -/
def Obligations.SendBuildsFrameAndAdvancesCounter : Prop :=
  ∀ (s : State) (i : Instr) (dest : Byte) (data : Bytes),
    legalSend s i dest data →
    (wireFrame s.cfg.hwid s.txSeq dest data).length = data.length + 8 ∧
    ((∃ t es, exec i s = .next t ∧ t.txSeq = s.txSeq + 1 ∧
        t.traffic = s.traffic ++ .write (wireFrame s.cfg.hwid s.txSeq dest data) :: es) ∨
      (exec i s = .refused .overclaimedWrite ∧
        overclaims (wireFrame s.cfg.hwid s.txSeq dest data) s.writeReplies s.flushReplies))

/-- A send to a sink that takes the whole frame and flushes well: one `Write`, one `Flush`, OK with the frame's seq. -/
def Obligations.SendToWillingSinkCompletes : Prop :=
  ∀ (s : State) (i : Instr) (dest : Byte) (data : Bytes) (ws : List WriteReply) (fs : List FlushReply),
    legalSend s i dest data →
    s.writeReplies = .ok (data.length + 8) :: ws → s.flushReplies = .ok :: fs →
      exec i s = .next (responded
        { s with txSeq := s.txSeq + 1, writeReplies := ws, flushReplies := fs,
                 traffic := s.traffic ++ [.write (wireFrame s.cfg.hwid s.txSeq dest data),
                   .writeReply (.ok (data.length + 8)), .flush, .flushReply .ok] }
        [0x00, lo s.txSeq, hi s.txSeq])

/-- R163: over any counts that add up to the frame, the sink is offered the unsent suffix each round, with a flush after
each, and the bytes it accepts are the frame. `ks` are the counts before the last, zero among them allowed, and `k` is the
last. -/
def Obligations.ShortWritesAddUpToFrame : Prop :=
  ∀ (s : State) (dest : Byte) (data : Bytes) (ks : List Nat) (k : Nat) (ws : List WriteReply)
      (fs : List FlushReply),
    data.length ≤ s.cfg.txMaxPayload → data.length ≤ 65535 →
    ks.sum < data.length + 8 → ks.sum + k = data.length + 8 →
    s.writeReplies = ks.map .ok ++ .ok k :: ws → s.flushReplies = List.replicate (ks.length + 1) .ok ++ fs →
      exec (.txSend dest data) s = .next (responded
        { s with txSeq := s.txSeq + 1, writeReplies := ws, flushReplies := fs,
                 traffic := s.traffic ++ goodRounds (wireFrame s.cfg.hwid s.txSeq dest data) (ks ++ [k]) }
        [0x00, lo s.txSeq, hi s.txSeq]) ∧
      acceptedBytes (goodRounds (wireFrame s.cfg.hwid s.txSeq dest data) (ks ++ [k])) =
        wireFrame s.cfg.hwid s.txSeq dest data

/-- R164: a failed write, after any good rounds, ends the send at once: no flush follows, nothing is retried, what was
accepted stays sent and the counter keeps its advance. -/
def Obligations.WriteFailureEndsSend : Prop :=
  ∀ (s : State) (dest : Byte) (data : Bytes) (ks : List Nat) (e : Byte) (ws : List WriteReply)
      (fs : List FlushReply),
    data.length ≤ s.cfg.txMaxPayload → data.length ≤ 65535 → ks.sum < data.length + 8 →
    s.writeReplies = ks.map .ok ++ .err e :: ws → s.flushReplies = List.replicate ks.length .ok ++ fs →
      exec (.txSend dest data) s = .next (responded
        { s with txSeq := s.txSeq + 1, writeReplies := ws, flushReplies := fs,
                 traffic := s.traffic ++ goodRounds (wireFrame s.cfg.hwid s.txSeq dest data) ks ++
                   [.write ((wireFrame s.cfg.hwid s.txSeq dest data).drop ks.sum), .writeReply (.err e)] }
        [0x04, e])

/-- R165: a failed flush, after any good rounds, ends the send: the bytes of the write before it count as sent and no
further write is issued. -/
def Obligations.FlushFailureEndsSend : Prop :=
  ∀ (s : State) (dest : Byte) (data : Bytes) (ks : List Nat) (k : Nat) (e : Byte) (ws : List WriteReply)
      (fs : List FlushReply),
    data.length ≤ s.cfg.txMaxPayload → data.length ≤ 65535 →
    ks.sum < data.length + 8 → ks.sum + k ≤ data.length + 8 →
    s.writeReplies = ks.map .ok ++ .ok k :: ws →
    s.flushReplies = List.replicate ks.length .ok ++ .err e :: fs →
      exec (.txSend dest data) s = .next (responded
        { s with txSeq := s.txSeq + 1, writeReplies := ws, flushReplies := fs,
                 traffic := s.traffic ++ goodRounds (wireFrame s.cfg.hwid s.txSeq dest data) ks ++
                   [.write ((wireFrame s.cfg.hwid s.txSeq dest data).drop ks.sum), .writeReply (.ok k), .flush,
                     .flushReply (.err e)] }
        [0x04, e])

/-- R166: `tx.cmd` is `tx.send 0x01` of one byte for the two commands, never answers MESSAGE_TOO_LONG, and answers
BAD_OPERAND for any other byte. -/
def Obligations.CommandIsSendOfOneByte : Prop :=
  ∀ (s : State) (c : Byte),
    ((c = 0x12 ∨ c = 0x17) → exec (.txCmd c) s = exec (.txSend 0x01 [c]) s) ∧
    (s.cfg.valid → ∀ t, exec (.txCmd c) s = .next t → t.responses ≠ s.responses ++ [[0x05]]) ∧
    (c ≠ 0x12 → c ≠ 0x17 → exec (.txCmd c) s = .next (responded s [0xFD]))

/-- R33: the counter starts at `SEQ_INIT`; an operation leaves it alone or, if it is a send, advances it by one, with
wrap; a step that goes on with a waiting operation leaves it alone. -/
def Obligations.OnlySendsAdvanceCounter : Prop :=
  (∀ p, (State.resetWith p).txSeq = p.seqInit) ∧
  (∀ (i : Instr) (s t : State), exec i s = .next t →
    t.txSeq = s.txSeq ∨
      (((∃ dest data, i = .txSend dest data) ∨ ∃ c, i = .txCmd c) ∧
        t.txSeq.toNat = (s.txSeq.toNat + 1) % 2 ^ 16)) ∧
  (∀ s t : State, s.pending ≠ none → step s = .next t → t.txSeq = s.txSeq)

/-- A send whose sink is silent waits: for the reply to the write of what is unsent when the write replies run out after
the good rounds `ks`, and for the reply to the flush when the flush replies run out after the write of `k` more bytes; it
has given no response. A waiting send is stuck without the reply, and with it goes on exactly as a send that finds the
reply at hand. -/
def Obligations.WaitingSendGoesOn : Prop :=
  (∀ (s : State) (i : Instr) (dest : Byte) (data : Bytes) (ks : List Nat) (fs : List FlushReply),
    legalSend s i dest data → ks.sum < data.length + 8 →
    s.writeReplies = ks.map .ok → s.flushReplies = List.replicate ks.length .ok ++ fs →
      let frame := wireFrame s.cfg.hwid s.txSeq dest data
      exec i s = .next
        { s with txSeq := s.txSeq + 1, writeReplies := [], flushReplies := fs,
                 traffic := s.traffic ++ goodRounds frame ks ++ [.write (frame.drop ks.sum)],
                 pending := some (.write (frame.drop ks.sum) s.txSeq) }) ∧
  (∀ (s : State) (i : Instr) (dest : Byte) (data : Bytes) (ks : List Nat) (k : Nat) (ws : List WriteReply),
    legalSend s i dest data → ks.sum < data.length + 8 → ks.sum + k ≤ data.length + 8 →
    s.writeReplies = ks.map .ok ++ .ok k :: ws → s.flushReplies = List.replicate ks.length .ok →
      let frame := wireFrame s.cfg.hwid s.txSeq dest data
      exec i s = .next
        { s with txSeq := s.txSeq + 1, writeReplies := ws, flushReplies := [],
                 traffic := s.traffic ++ goodRounds frame ks ++
                   [.write (frame.drop ks.sum), .writeReply (.ok k), .flush],
                 pending := some (.flush (frame.drop (ks.sum + k)) s.txSeq) }) ∧
  (∀ (i : Instr) (s t : State) (rest : Bytes) (seq : Half), exec i s = .next t →
    (t.pending = some (.write rest seq) →
      step t = .fault .stuckWrite ∧ ∀ w, step (offerWrite w t) = exec i (offerWrite w s)) ∧
    (t.pending = some (.flush rest seq) →
      step t = .fault .stuckFlush ∧ ∀ f, step (offerFlush f t) = exec i (offerFlush f s)))

/-- What a send leaves alone: the parameters, the ingest buffer and its source, the deframer and the CAN table. It
stores nothing. -/
def Obligations.SendFrames : Prop :=
  ∀ (s t : State) (i : Instr), ((∃ dest data, i = .txSend dest data) ∨ ∃ c, i = .txCmd c) → exec i s = .next t →
    sameHost s t ∧ sameIngest s t ∧ sameDeframer s t ∧ sameTable s t ∧ t.readReplies = s.readReplies ∧
      t.freeCount = s.freeCount

/-! ## The CAN reassembler -/

/-- R181: a well-formed frame that is standard, remote, or has no byte after the fragmentation header is rejected. -/
def Obligations.NonFragmentIsRejected : Prop :=
  ∀ (s : State) (ide rtr : Bool) (id : Word) (dlc : Byte) (data : Bytes),
    malformed (.canRx ide rtr 0 id dlc data) = false → ide = false ∨ rtr = true ∨ dlc.toNat < 4 →
      exec (.canRx ide rtr 0 id dlc data) s = .next (responded s [0x07])

/-- R183 and the refusal of R184: an announced size above the capacity answers MESSAGE_BUFFER_FULL, and a new source with
the table full answers SOURCE_BUFFER_FULL; nothing changes and no entry is evicted. -/
def Obligations.AnnouncedSizeThenFreeSlot : Prop :=
  ∀ (s : State) (id : Word) (sn rv sl : Byte) (payload : Bytes),
    id.toNat < 2 ^ 29 → 1 ≤ payload.length → payload.length ≤ 5 →
      (sl.toNat * 5 > s.cfg.maxPacket →
        exec (fragmentFrame id sn rv sl payload) s = .next (responded s [0x08])) ∧
      (sl.toNat * 5 ≤ s.cfg.maxPacket → canGet s.canTable (sourceIn s id) = none →
        s.canTable.length = s.cfg.numSources →
          exec (fragmentFrame id sn rv sl payload) s = .next (responded s [0x09]))

/-- A fragment in order that does not complete its message is appended to its source's buffer, and the answer is PENDING. -/
def Obligations.InOrderFragmentIsAppended : Prop :=
  ∀ (s : State) (id : Word) (sn rv sl : Byte) (payload : Bytes),
    acceptable s id sl payload → sn.toNat = (currentBuffer s id sn).length / 5 →
    (currentBuffer s id sn).length + payload.length ≤ s.cfg.maxPacket → sn.toNat < sl.toNat →
      ∃ tbl, exec (fragmentFrame id sn rv sl payload) s =
          .next (responded { s with canTable := tbl } [0x00, 0x00]) ∧
        ∀ k, canGet tbl k =
          if k = sourceIn s id then some (currentBuffer s id sn ++ payload) else canGet s.canTable k

/-- A fragment in order with `seq_num ≥ seq_len` completes the message: the answer carries it and the entry is
removed. -/
def Obligations.LastFragmentCompletes : Prop :=
  ∀ (s : State) (id : Word) (sn rv sl : Byte) (payload m : Bytes),
    keysRising s.canTable → acceptable s id sl payload → sn.toNat = (currentBuffer s id sn).length / 5 →
    m = currentBuffer s id sn ++ payload → m.length ≤ s.cfg.maxPacket → sl.toNat ≤ sn.toNat →
      ∃ tbl, exec (fragmentFrame id sn rv sl payload) s =
          .next (responded { s with canTable := tbl }
            ([0x00, 0x01, BitVec.ofNat 8 m.length, BitVec.ofNat 8 (m.length / 256)] ++ m)) ∧
        ∀ k, canGet tbl k = if k = sourceIn s id then none else canGet s.canTable k

/-- A fragment behind the one expected is a duplicate: the answer is PENDING and nothing changes, even if its `seq_num` is
at or above its `seq_len`. -/
def Obligations.DuplicateIsIgnored : Prop :=
  ∀ (s : State) (id : Word) (sn rv sl : Byte) (payload : Bytes),
    acceptable s id sl payload → sn.toNat < (currentBuffer s id sn).length / 5 →
      exec (fragmentFrame id sn rv sl payload) s = .next (responded s [0x00, 0x00])

/-- A fragment ahead of the one expected empties its source's entry, which keeps its slot, and the answer is
FRAME_DROPPED. -/
def Obligations.GapEmptiesEntry : Prop :=
  ∀ (s : State) (id : Word) (sn rv sl : Byte) (payload : Bytes),
    acceptable s id sl payload → sn.toNat > (currentBuffer s id sn).length / 5 →
      ∃ tbl, exec (fragmentFrame id sn rv sl payload) s = .next (responded { s with canTable := tbl } [0x0A]) ∧
        ∀ k, canGet tbl k = if k = sourceIn s id then some [] else canGet s.canTable k

/-- R187: an append past `MAX_PACKET_LENGTH` answers MESSAGE_BUFFER_FULL and changes nothing. -/
def Obligations.OverfullAppendChangesNothing : Prop :=
  ∀ (s : State) (id : Word) (sn rv sl : Byte) (payload : Bytes),
    s.cfg.valid → acceptable s id sl payload → sn.toNat = (currentBuffer s id sn).length / 5 →
    (currentBuffer s id sn).length + payload.length > s.cfg.maxPacket →
      exec (fragmentFrame id sn rv sl payload) s = .next (responded s [0x08])

/-- R191, in-order reassembly: the fragments `0 … k` of a message, delivered in order, give PENDING `k` times and then
the message, and free the source's slot. `parts` are the payloads. -/
def Obligations.MessageReassemblesInOrder : Prop :=
  ∀ (s : State) (id : Word) (rv : Byte) (parts : List Bytes) (last : Bytes),
    id.toNat < 2 ^ 29 → keysRising s.canTable → parts.length ≤ 255 → (∀ p ∈ parts, p.length = 5) →
    1 ≤ last.length → last.length ≤ 5 → parts.flatten.length + last.length ≤ s.cfg.maxPacket →
    (canGet s.canTable (sourceIn s id) = none → s.canTable.length < s.cfg.numSources) →
      ∃ tbl, execAll ((parts ++ [last]).mapIdx fun n p =>
            fragmentFrame id (BitVec.ofNat 8 n) rv (BitVec.ofNat 8 parts.length) p) s =
          .next { s with
            canTable := tbl, pending := none,
            responses := s.responses ++ List.replicate parts.length [0x00, 0x00] ++
              [0x00 :: 0x01 :: countBytes (parts.flatten ++ last).length ++ (parts.flatten ++ last)] } ∧
        ∀ k, canGet tbl k = if k = sourceIn s id then none else canGet s.canTable k

/-- A CAN frame touches no entry but that of its own source, and no entry is evicted to make room (R184, R190). It leaves
everything outside the CAN table alone. -/
def Obligations.CanFrames : Prop :=
  ∀ (s t : State) (ide rtr : Bool) (rsv : BitVec 6) (id : Word) (dlc : Byte) (data : Bytes),
    exec (.canRx ide rtr rsv id dlc data) s = .next t →
      sameHost s t ∧ sameIngest s t ∧ sameDeframer s t ∧ t.txSeq = s.txSeq ∧ sameCollaborators s t ∧
      (keysRising s.canTable → ∀ k, k ≠ sourceIn s id → canGet t.canTable k = canGet s.canTable k)

/-- R243: an entry leaves the table only when its source completes a message, whatever the operation. -/
def Obligations.EntriesLeaveOnlyByCompletion : Prop :=
  ∀ (i : Instr) (s t : State) (k : Nat), keysRising s.canTable → exec i s = .next t →
    (canGet s.canTable k).isSome = true → canGet t.canTable k = none →
      ∃ ide rtr rsv id dlc data m, i = .canRx ide rtr rsv id dlc data ∧ sourceIn s id = k ∧
        t.responses = s.responses ++ [[0x00, 0x01] ++ countBytes m.length ++ m]

/-! ## The whole block -/

/-- R63: an operation of the serial engine and one of the CAN engine commute: each gives the same response in either
order, and the state is the same but for the order of the responses in the log. -/
def Obligations.EnginesCommute : Prop :=
  ∀ (i : Instr) (ide rtr : Bool) (rsv : BitVec 6) (id : Word) (dlc : Byte) (data : Bytes) (s a c : State),
    (∀ ide' rtr' rsv' id' dlc' data', i ≠ .canRx ide' rtr' rsv' id' dlc' data') →
    exec i s = .next a → a.pending = none → exec (.canRx ide rtr rsv id dlc data) s = .next c →
      ∃ b d ri rj,
        exec (.canRx ide rtr rsv id dlc data) a = .next b ∧ exec i c = .next d ∧
        a.responses = s.responses ++ [ri] ∧ b.responses = a.responses ++ [rj] ∧
        c.responses = s.responses ++ [rj] ∧ d.responses = c.responses ++ [ri] ∧
        { b with responses := [] } = { d with responses := [] }

/-- Every step keeps the invariant of the block. -/
def Obligations.StepKeepsInvariant : Prop :=
  ∀ s t : State, BlockInv s → step s = .next t → BlockInv t

/-- The invariant holds after power-on reset, for all parameters R8 allows. -/
def Obligations.ResetMeetsInvariant : Prop :=
  (∀ p : Params, p.valid → BlockInv (State.resetWith p)) ∧ BlockInv State.reset

/-- In a state of the invariant no step reads a byte that holds no value or an index outside a store: a step has no next
state exactly when the operation that waits has no reply, when the reply it takes is outside its collaborator's
liberties, or when the request is empty. -/
def Obligations.OnlySilenceStopsTheBlock : Prop :=
  ∀ s : State, BlockInv s →
    (∀ f, step s = .fault f ↔
      (f = .stuckRead ∧ s.pending = some .read ∧ s.readReplies = []) ∨
      (f = .stuckWrite ∧ (∃ rest seq, s.pending = some (.write rest seq)) ∧ s.writeReplies = []) ∨
      (f = .stuckFlush ∧ (∃ rest seq, s.pending = some (.flush rest seq)) ∧ s.flushReplies = [])) ∧
    (∀ r, step s = .refused r ↔
      (r = .overlongRead ∧ overlongReply s) ∨
      (r = .overclaimedWrite ∧ overclaimedReply s) ∨
      (r = .emptyRequest ∧ s.pending = none ∧ ∃ rest, s.requests = [] :: rest))

/-- The parameters do not change, whatever the step (R234). -/
def Obligations.ParametersNeverChange : Prop :=
  ∀ s t : State, step s = .next t → t.cfg = s.cfg

/-- An operation gives exactly one response, with a status of R200, or waits for a collaborator and has given none. -/
def Obligations.OneResponseWithDefinedStatus : Prop :=
  ∀ (i : Instr) (s t : State), exec i s = .next t →
    (t.pending ≠ none ∧ t.responses = s.responses) ∨
    (t.pending = none ∧ ∃ status fields, t.responses = s.responses ++ [status :: fields] ∧ status ∈ definedStatuses)

/-- R201: OVERFLOW, MESSAGE_TOO_LONG, MESSAGE_BUFFER_FULL and SOURCE_BUFFER_FULL change nothing but the response log. -/
def Obligations.ResourceErrorsChangeNothing : Prop :=
  ∀ (i : Instr) (s t : State) (resp : Bytes), s.cfg.valid → exec i s = .next t →
    t.responses = s.responses ++ [resp] → resp ∈ [[0x02], [0x05], [0x08], [0x09]] → t = responded s resp

/-- R38: what power-on reset leaves, for every choice of the parameters; the device that is reset has parameters R8
allows. -/
def Obligations.ResetLeavesSpecifiedState : Prop :=
  (∀ p : Params,
    let s := State.resetWith p
    s.dfr = .sync 0 ∧ (∀ a, memRead s.fb a = none) ∧ s.ingHead = 0 ∧ s.ingTail = 0 ∧ s.ingLen = 0 ∧
      (∀ a, memRead s.ingS a = none) ∧ s.txSeq = p.seqInit ∧ s.cfg.hwid = p.hwid ∧
      (∀ k, canGet s.canTable k = none) ∧ s.pending = none ∧ s.responses = [] ∧ s.traffic = []) ∧
  State.reset = State.resetWith Config.params ∧ Config.params.valid

/-- The form in which the model holds `SOURCE_OF` (log 6) leaves out no total function on 29-bit identifiers. -/
def Obligations.SourceMapCoversEveryFunction : Prop :=
  ∀ f : CanId → Nat, ∃ m : SourceMap, ∀ id, sourceOf m id = f id

/-! ## The assembler -/

/-- R89: the line of an operation encodes to the operation's request. The syntax cannot write reserved flags. -/
def Obligations.AssembledLineIsRequest : Prop :=
  ∀ i : Instr, i.wellFormed = true → (∀ ide rtr rsv id dlc data, i = .canRx ide rtr rsv id dlc data → rsv = 0) →
    assembleLine (lineText i) = some [encode i]

/-- R90: the four pseudo-instructions and the requests of their expansions, whatever their operands. -/
def Obligations.PseudoInstructionsExpand : Prop :=
  assembleLine (nameText .txReboot) = some [[0x21, 0x12]] ∧
  assembleLine (nameText .txGettelem) = some [[0x21, 0x17]] ∧
  (∀ bytes : Bytes, bytes ≠ [] →
    assembleLine (nameText .dfrFeeds ++ ' ' :: listText bytes) = some (bytes.map fun b => [0x10, b])) ∧
  ∀ (id : Word) (sn sl : Byte) (payload : Bytes), payload ≠ [] → payload.length ≤ 252 →
    assembleLine (nameText .canFrag ++ ' ' :: hexText 8 id.toNat ++ ',' :: byteText sn ++ ',' :: byteText sl ++
        ',' :: listText payload) =
      some [[0x30, 0x01] ++ wordBytes id ++ [BitVec.ofNat 8 (3 + payload.length), sn, 0x00, sl] ++ payload]
end

