-- ==== Sys2Proof/Laws/Assembler.lean ====
section
/-! SUPPORT. The laws of the assembler (30_encoding.md R89, R90): what the tokens of a written line are, and that a
number written in hexadecimal reads back. -/

namespace Sys2Proof.Machine

/-! ### Tokens -/

/-- A character that stands inside a word. -/
abbrev plainChar (c : Char) : Prop := c ≠ '#' ∧ c ≠ '[' ∧ c ≠ ']' ∧ c ≠ ',' ∧ c ≠ ' ' ∧ c ≠ '\t'

/-- The characters of a word are gathered. -/
theorem tokens_plain {w : List Char} (hw : ∀ c ∈ w, plainChar c) (rest acc : List Char) :
    tokens (w ++ rest) acc = tokens rest (acc ++ w) := by
  induction w generalizing acc with
  | nil => simp
  | cons c w ih =>
    obtain ⟨h1, h2, h3, h4, h5, h6⟩ := hw c (by simp)
    rw [List.cons_append, tokens, if_neg h1, if_neg h2, if_neg h3, if_neg h4, if_neg (by simp [h5, h6]),
      ih (fun d hd => hw d (by simp [hd]))]
    simp

theorem tokens_comma (rest acc : List Char) : tokens (',' :: rest) acc = gathered acc ++ .comma :: tokens rest [] := by
  simp [tokens]

theorem tokens_open (rest acc : List Char) : tokens ('[' :: rest) acc = gathered acc ++ .openList :: tokens rest [] := by
  simp [tokens]

theorem tokens_close (rest acc : List Char) :
    tokens (']' :: rest) acc = gathered acc ++ .closeList :: tokens rest [] := by simp [tokens]

theorem tokens_space (rest acc : List Char) : tokens (' ' :: rest) acc = gathered acc ++ tokens rest [] := by
  simp [tokens]

theorem gathered_word {w : List Char} (h : w ≠ []) : gathered w = [.word w] := by
  unfold gathered; rw [if_neg (by simpa using h)]

/-! ### Numbers -/

theorem digitOf_plain : ∀ d, d < 16 → plainChar (digitOf d) := by decide

theorem digitValue_digitOf : ∀ d, d < 16 → digitValue (digitOf d) = some d := by decide

/-- The digits of a value without the `0x`. -/
def hexDigits : Nat → Nat → List Char
  | 0, _ => []
  | n + 1, v => hexDigits n (v / 16) ++ [digitOf (v % 16)]

theorem hexText_eq (n v : Nat) : hexText n v = '0' :: 'x' :: hexDigits n v := by
  induction n generalizing v with
  | zero => rfl
  | succ n ih => simp [hexText, hexDigits, ih]

theorem hexDigits_length (n v : Nat) : (hexDigits n v).length = n := by
  induction n generalizing v with
  | zero => rfl
  | succ n ih => simp [hexDigits, ih]

theorem hexText_plain (n v : Nat) : ∀ c ∈ hexText n v, plainChar c := by
  induction n generalizing v with
  | zero => intro c hc; revert c; show ∀ c ∈ ['0', 'x'], plainChar c; simp [plainChar]
  | succ n ih =>
    intro c hc
    rcases List.mem_append.mp hc with h | h
    · exact ih _ c h
    · simp at h; subst h; exact digitOf_plain _ (Nat.mod_lt _ (by omega))

theorem hexText_ne_nil (n v : Nat) : hexText n v ≠ [] := by rw [hexText_eq]; simp

theorem digitsValue_append {xs : List Char} {base acc a : Nat} (h : digitsValue base xs acc = some a) (ys : List Char) :
    digitsValue base (xs ++ ys) acc = digitsValue base ys a := by
  induction xs generalizing acc with
  | nil => cases h; rfl
  | cons x xs ih =>
    simp only [List.cons_append, digitsValue] at h ⊢
    cases hd : digitValue x with
    | none => rw [hd] at h; cases h
    | some d =>
      rw [hd] at h
      simp only at h ⊢
      split at h
      · rename_i hlt; rw [if_pos hlt]; exact ih h
      · cases h

theorem digitsValue_hexDigits (n v acc : Nat) :
    digitsValue 16 (hexDigits n v) acc = some (16 ^ n * acc + v % 16 ^ n) := by
  induction n generalizing v with
  | zero => simp [hexDigits, digitsValue, Nat.mod_one]
  | succ n ih =>
    rw [hexDigits, digitsValue_append (ih (v / 16))]
    simp only [digitsValue, digitValue_digitOf _ (Nat.mod_lt v (by omega : 0 < 16))]
    rw [if_pos (Nat.mod_lt _ (by omega))]
    congr 1
    have : v % 16 ^ (n + 1) = 16 * (v / 16 % 16 ^ n) + v % 16 := by
      rw [Nat.pow_succ, Nat.mul_comm, Nat.mod_mul]; omega
    rw [this, Nat.pow_succ]; ring

/-- A number written with enough digits reads back. -/
theorem numberOf_hexText {n v : Nat} (hn : 0 < n) (hv : v < 16 ^ n) : numberOf (hexText n v) = some v := by
  obtain ⟨c, cs, hc⟩ : ∃ c cs, hexDigits n v = c :: cs := by
    cases h : hexDigits n v with
    | nil => have := hexDigits_length n v; rw [h] at this; simp at this; omega
    | cons c cs => exact ⟨c, cs, rfl⟩
  rw [hexText_eq, hc]
  show digitsValue 16 (c :: cs) 0 = _
  rw [← hc, digitsValue_hexDigits, Nat.mod_eq_of_lt hv]; simp

theorem byteOf_byteText (b : Byte) : byteOf (byteText b) = some b := by
  have := b.isLt
  unfold byteOf byteText
  rw [numberOf_hexText (by omega) (by omega)]
  simp [this]

theorem wordOf_hexText (v : Word) : wordOf (hexText 8 v.toNat) = some v := by
  have := v.isLt
  unfold wordOf
  rw [numberOf_hexText (by omega) (by omega)]
  simp [this]

/-! ### Names -/

theorem nameText_plain (n : Name) : ∀ c ∈ nameText n, plainChar c := by
  cases n with
  | op o => cases o <;> simp [plainChar, nameText]
  | _ => simp [plainChar, nameText]

theorem nameText_ne_nil (n : Name) : nameText n ≠ [] := by
  cases n with
  | op o => cases o <;> simp [nameText]
  | _ => simp [nameText]

/-- No name is spelled as another. -/
theorem nameOf_nameText (n : Name) : nameOf (nameText n) = some n := by
  cases n with
  | op o => cases o <;> decide
  | _ => decide

/-- A line that begins with a name and a space. -/
theorem operationsOf_named (n : Name) (rest : List Char) :
    operationsOf (nameText n ++ ' ' :: rest) = namedLine n (tokens rest []) := by
  unfold operationsOf
  rw [tokens_plain (nameText_plain n), tokens_space, List.nil_append, gathered_word (nameText_ne_nil n)]
  simp only [List.cons_append, List.nil_append, nameOf_nameText]

end Sys2Proof.Machine
end

