-- ==== Sys2Proof/Laws/Keyed.lean ====
section
/-! SUPPORT. The laws of keyed lists (the stores and the CAN table): read after write, what a write leaves alone, and the
canonical form, which every operation keeps. -/

namespace Sys2Proof.Machine

section
variable {α : Type}

@[simp] theorem keyGet_nil (a : Nat) : keyGet ([] : List (Nat × α)) a = none := rfl

theorem keyGet_cons (k : Nat) (v : α) (m : List (Nat × α)) (a : Nat) :
    keyGet ((k, v) :: m) a = if k = a then some v else keyGet m a := rfl

/-- Keys below every key of the list are not in it. -/
theorem keyGet_eq_none_of_lt {m : List (Nat × α)} {a : Nat} (h : ∀ c ∈ m, a < c.1) : keyGet m a = none := by
  induction m with
  | nil => rfl
  | cons c m ih =>
    have := h c (List.mem_cons_self ..)
    rw [show c = (c.1, c.2) from rfl, keyGet_cons, if_neg (by omega)]
    exact ih fun d hd => h d (List.mem_cons_of_mem _ hd)

/-- Read after write. -/
theorem keyGet_keySet (m : List (Nat × α)) (a : Nat) (v : α) (b : Nat) :
    keyGet (keySet m a v) b = if a = b then some v else keyGet m b := by
  induction m with
  | nil => rfl
  | cons c m ih =>
    obtain ⟨k, w⟩ := c
    unfold keySet
    split
    · rfl
    · split
      · subst_vars; simp only [keyGet_cons]; split <;> rfl
      · simp only [keyGet_cons, ih]; split <;> split <;> first | rfl | omega

@[simp] theorem keyGet_keySet_self (m : List (Nat × α)) (a : Nat) (v : α) : keyGet (keySet m a v) a = some v := by
  rw [keyGet_keySet, if_pos rfl]

/-- Every pair after a write is the pair written or was there before. -/
theorem mem_keySet {m : List (Nat × α)} {a : Nat} {v : α} {c : Nat × α} (h : c ∈ keySet m a v) :
    c = (a, v) ∨ c ∈ m := by
  induction m with
  | nil => simpa [keySet] using h
  | cons d m ih =>
    obtain ⟨k, w⟩ := d
    unfold keySet at h
    split at h
    · simpa [or_assoc] using h
    · split at h
      · rcases List.mem_cons.mp h with h | h
        · exact .inl h
        · exact .inr (List.mem_cons_of_mem _ h)
      · rcases List.mem_cons.mp h with h | h
        · exact .inr (h ▸ List.mem_cons_self ..)
        · exact (ih h).imp id (List.mem_cons_of_mem _)

/-- A write keeps the canonical form. -/
theorem keysRising_keySet {m : List (Nat × α)} (h : keysRising m) (a : Nat) (v : α) : keysRising (keySet m a v) := by
  induction m with
  | nil => exact List.pairwise_singleton ..
  | cons d m ih =>
    obtain ⟨k, w⟩ := d
    obtain ⟨hk, hm⟩ := List.pairwise_cons.mp h
    unfold keySet
    split
    · refine List.pairwise_cons.mpr ⟨fun c hc => ?_, h⟩
      rcases List.mem_cons.mp hc with rfl | hc
      · assumption
      · have := hk c hc; simp only at this ⊢; omega
    · split
      · subst_vars; exact List.pairwise_cons.mpr ⟨hk, hm⟩
      · refine List.pairwise_cons.mpr ⟨fun c hc => ?_, ih hm⟩
        rcases mem_keySet hc with rfl | hc
        · simp only; omega
        · exact hk c hc

/-- An erased list is a part of the list. -/
theorem keyErase_sublist (m : List (Nat × α)) (a : Nat) : (keyErase m a).Sublist m := by
  induction m with
  | nil => exact .slnil
  | cons d m ih =>
    obtain ⟨k, w⟩ := d
    unfold keyErase
    split
    · exact List.sublist_cons_self ..
    · exact ih.cons_cons _

/-- Removing a key keeps the canonical form. -/
theorem keysRising_keyErase {m : List (Nat × α)} (h : keysRising m) (a : Nat) : keysRising (keyErase m a) :=
  List.Pairwise.sublist (keyErase_sublist m a) h

/-- Reading after removing a key, in canonical form. -/
theorem keyGet_keyErase {m : List (Nat × α)} (h : keysRising m) (a b : Nat) :
    keyGet (keyErase m a) b = if a = b then none else keyGet m b := by
  induction m with
  | nil => simp [keyErase]
  | cons d m ih =>
    obtain ⟨k, w⟩ := d
    obtain ⟨hk, hm⟩ := List.pairwise_cons.mp h
    unfold keyErase
    split
    · rename_i he
      subst he
      by_cases hb : k = b
      · subst hb; rw [if_pos rfl]; exact keyGet_eq_none_of_lt hk
      · rw [if_neg hb, keyGet_cons, if_neg hb]
    · simp only [keyGet_cons, ih hm]; split <;> split <;> first | rfl | omega

/-- A value that is read is in the list. -/
theorem mem_of_keyGet {m : List (Nat × α)} {a : Nat} {v : α} (h : keyGet m a = some v) : (a, v) ∈ m := by
  induction m with
  | nil => cases h
  | cons d m ih =>
    obtain ⟨k, w⟩ := d
    rw [keyGet_cons] at h
    split at h
    · cases h; subst_vars; exact List.mem_cons_self ..
    · exact List.mem_cons_of_mem _ (ih h)

/-- In canonical form, every pair of the list is what its key reads as. -/
theorem keyGet_of_mem {m : List (Nat × α)} (h : keysRising m) {a : Nat} {v : α} (hm : (a, v) ∈ m) :
    keyGet m a = some v := by
  induction m with
  | nil => cases hm
  | cons d m ih =>
    obtain ⟨k, w⟩ := d
    obtain ⟨hk, hr⟩ := List.pairwise_cons.mp h
    rw [keyGet_cons]
    rcases List.mem_cons.mp hm with he | he
    · cases he; rw [if_pos rfl]
    · have := hk _ he
      rw [if_neg (by simp only at this; omega), ih hr he]

/-- Writing at a key that is in the list keeps its length. -/
theorem length_keySet_of_some {m : List (Nat × α)} (h : keysRising m) {a : Nat} {w : α} (hg : keyGet m a = some w)
    (v : α) : (keySet m a v).length = m.length := by
  induction m with
  | nil => cases hg
  | cons d m ih =>
    obtain ⟨k, u⟩ := d
    obtain ⟨hk, hr⟩ := List.pairwise_cons.mp h
    rw [keyGet_cons] at hg
    unfold keySet
    split at hg
    · subst_vars; rw [if_neg (by omega), if_pos rfl]; rfl
    · have := hk _ (mem_of_keyGet hg)
      simp only at this
      rw [if_neg (by omega), if_neg (by omega)]
      simp only [List.length_cons, ih hr hg]

/-- Writing at a new key adds one pair. -/
theorem length_keySet_of_none {m : List (Nat × α)} {a : Nat} (hg : keyGet m a = none) (v : α) :
    (keySet m a v).length = m.length + 1 := by
  induction m with
  | nil => rfl
  | cons d m ih =>
    obtain ⟨k, u⟩ := d
    rw [keyGet_cons] at hg
    split at hg
    · cases hg
    · unfold keySet
      split
      · rfl
      · rw [if_neg (by omega)]
        simp only [List.length_cons, ih hg]

/-- Writing twice at one key is writing the second value. -/
theorem keySet_keySet (m : List (Nat × α)) (a : Nat) (v w : α) : keySet (keySet m a v) a w = keySet m a w := by
  induction m with
  | nil => simp [keySet]
  | cons d m ih =>
    obtain ⟨k, u⟩ := d
    by_cases h1 : a < k
    · simp [keySet, h1]
    · by_cases h2 : a = k
      · simp [keySet, h2]
      · simp [keySet, h1, h2, ih]

/-- Removing a key just written is removing it. -/
theorem keyErase_keySet {m : List (Nat × α)} (h : keysRising m) (a : Nat) (v : α) :
    keyErase (keySet m a v) a = keyErase m a := by
  induction m with
  | nil => simp [keySet, keyErase]
  | cons d m ih =>
    obtain ⟨k, u⟩ := d
    obtain ⟨hk, hr⟩ := List.pairwise_cons.mp h
    unfold keySet
    split
    · rename_i hlt
      rw [keyErase, if_pos rfl, keyErase, if_neg (by omega)]
      congr 1
      clear ih h
      induction m with
      | nil => rfl
      | cons e m ihm =>
        obtain ⟨j, x⟩ := e
        have hj := hk _ (List.mem_cons_self ..)
        simp only at hj
        rw [keyErase, if_neg (by omega)]
        congr 1
        exact ihm (fun c hc => hk c (List.mem_cons_of_mem _ hc)) (List.pairwise_cons.mp hr).2
    · split
      · subst_vars; rw [keyErase, if_pos rfl, keyErase, if_pos rfl]
      · rename_i h1 h2
        rw [keyErase, if_neg (by omega), keyErase, if_neg (by omega), ih hr]

/-- A write adds an entry exactly where there was none, in canonical form. -/
theorem keySet_length {m : List (Nat × α)} (h : keysRising m) (a : Nat) (v : α) :
    (keySet m a v).length = if keyGet m a = none then m.length + 1 else m.length := by
  induction m with
  | nil => rfl
  | cons d m ih =>
    obtain ⟨k, w⟩ := d
    obtain ⟨hk, hm⟩ := List.pairwise_cons.mp h
    unfold keySet
    split
    · rw [if_pos]; rfl
      rw [keyGet_cons, if_neg (by omega)]
      exact keyGet_eq_none_of_lt fun c hc => by have := hk c hc; simp only at this; omega
    · split
      · subst_vars; rw [keyGet_cons, if_pos rfl]; simp
      · rw [keyGet_cons, if_neg (show ¬ k = a by omega)]
        simp only [List.length_cons, ih hm]; split <;> rfl

end

end Sys2Proof.Machine
end

