-- ==== Sys2Proof/Laws/Memory.lean ====
section
/-! SUPPORT. The laws of the byte stores: read after write, what a write leaves alone, the canonical form. -/

namespace Sys2Proof.Machine

/-- An unlisted index has no value (10_state.md R24, R26). -/
@[simp] theorem memRead_eq_keyGet (m : Memory) (a : Nat) : memRead m a = keyGet m a := by
  unfold memRead unlisted; cases keyGet m a <;> rfl

theorem memRead_nil (a : Nat) : memRead [] a = none := rfl

/-- A byte written is read back, and every other index reads as before. -/
theorem memRead_memWrite (m : Memory) (a : Nat) (v : Byte) (b : Nat) :
    memRead (memWrite m a v) b = if a = b then some v else memRead m b := by
  simp only [memRead_eq_keyGet, memWrite, keyGet_keySet]

theorem memWrite_wf {m : Memory} (h : Memory.wf m) (a : Nat) (v : Byte) : Memory.wf (memWrite m a v) :=
  keysRising_keySet h a v

theorem memWriteAll_wf {m : Memory} (h : Memory.wf m) (base : Nat) (bs : Bytes) :
    Memory.wf (memWriteAll m base bs) := by
  induction bs generalizing m base with
  | nil => exact h
  | cons b bs ih => exact ih (memWrite_wf h base b) (base + 1)

/-- A byte string written is read back, and every index outside it reads as before. -/
theorem memRead_memWriteAll (m : Memory) (base : Nat) (bs : Bytes) (a : Nat) :
    memRead (memWriteAll m base bs) a =
      if base ≤ a ∧ a < base + bs.length then bs[a - base]? else memRead m a := by
  induction bs generalizing m base with
  | nil => rw [if_neg (by simp only [List.length_nil]; omega)]; rfl
  | cons b bs ih =>
    rw [memWriteAll, ih, memRead_memWrite]
    simp only [List.length_cons]
    by_cases h : base = a
    · subst h; rw [if_neg (by omega), if_pos rfl, if_pos (by omega), Nat.sub_self]; rfl
    · by_cases h' : base + 1 ≤ a ∧ a < base + 1 + bs.length
      · rw [if_pos h', if_pos (by omega), show a - base = (a - (base + 1)) + 1 by omega]; rfl
      · rw [if_neg h', if_neg h, if_neg (by omega)]

/-- The indices a write lists are those it writes and those listed before. -/
theorem memWriteAll_within {m : Memory} {n : Nat} (h : ∀ c ∈ m, c.1 < n) {base : Nat} {bs : Bytes}
    (hb : base + bs.length ≤ n) : ∀ c ∈ memWriteAll m base bs, c.1 < n := by
  induction bs generalizing m base with
  | nil => exact h
  | cons b bs ih =>
    simp only [List.length_cons] at hb
    refine ih (fun c hc => ?_) (by omega)
    rcases mem_keySet hc with rfl | hc
    · simp only; omega
    · exact h c hc

/-- The bytes of a range, read one by one. -/
theorem memReadAll_eq_some {m : Memory} {base n : Nat} {bs : Bytes} :
    memReadAll m base n = some bs ↔ bs.length = n ∧ ∀ i, i < n → memRead m (base + i) = bs[i]? := by
  induction n generalizing base bs with
  | zero => cases bs <;> simp [memReadAll]
  | succ n ih =>
    unfold memReadAll
    constructor
    · intro h
      split at h
      · rename_i b bs' hb hbs
        cases h
        obtain ⟨hl, hr⟩ := ih.mp hbs
        refine ⟨by simp [hl], fun i hi => ?_⟩
        cases i with
        | zero => simpa using hb
        | succ i => rw [show base + (i + 1) = base + 1 + i by omega, hr i (by omega)]; rfl
      · cases h
    · rintro ⟨hl, hr⟩
      cases bs with
      | nil => simp at hl
      | cons b bs =>
        have h0 := hr 0 (by omega)
        have h1 : memReadAll m (base + 1) n = some bs := by
          refine ih.mpr ⟨by simpa using hl, fun i hi => ?_⟩
          rw [show base + 1 + i = base + (i + 1) by omega, hr (i + 1) (by omega)]; rfl
        simp only [Nat.add_zero, List.getElem?_cons_zero] at h0
        rw [h0, h1]

end Sys2Proof.Machine
end

