-- ==== Sys2Proof/Laws/State.lean ====
section
/-! SUPPORT. What each named update of the state does to each field: one lemma per field per update. -/

namespace Sys2Proof.Machine

section
variable (s : State)

/-! ### `State.answer` -/

@[simp] theorem State.answer_cfg (r : Response) : (s.answer r).cfg = s.cfg := rfl
@[simp] theorem State.answer_dfr (r : Response) : (s.answer r).dfr = s.dfr := rfl
@[simp] theorem State.answer_fb (r : Response) : (s.answer r).fb = s.fb := rfl
@[simp] theorem State.answer_ingS (r : Response) : (s.answer r).ingS = s.ingS := rfl
@[simp] theorem State.answer_ingHead (r : Response) : (s.answer r).ingHead = s.ingHead := rfl
@[simp] theorem State.answer_ingTail (r : Response) : (s.answer r).ingTail = s.ingTail := rfl
@[simp] theorem State.answer_ingLen (r : Response) : (s.answer r).ingLen = s.ingLen := rfl
@[simp] theorem State.answer_txSeq (r : Response) : (s.answer r).txSeq = s.txSeq := rfl
@[simp] theorem State.answer_canTable (r : Response) : (s.answer r).canTable = s.canTable := rfl
@[simp] theorem State.answer_pending (r : Response) : (s.answer r).pending = none := rfl
@[simp] theorem State.answer_requests (r : Response) : (s.answer r).requests = s.requests := rfl
@[simp] theorem State.answer_readReplies (r : Response) : (s.answer r).readReplies = s.readReplies := rfl
@[simp] theorem State.answer_writeReplies (r : Response) : (s.answer r).writeReplies = s.writeReplies := rfl
@[simp] theorem State.answer_flushReplies (r : Response) : (s.answer r).flushReplies = s.flushReplies := rfl
@[simp] theorem State.answer_traffic (r : Response) : (s.answer r).traffic = s.traffic := rfl
@[simp] theorem State.answer_responses (r : Response) : (s.answer r).responses = s.responses ++ [responseBytes r] := rfl
@[simp] theorem State.answer_freeCount (r : Response) : (s.answer r).freeCount = s.freeCount := rfl

/-! ### `State.log` -/

@[simp] theorem State.log_cfg (e : Event) : (s.log e).cfg = s.cfg := rfl
@[simp] theorem State.log_dfr (e : Event) : (s.log e).dfr = s.dfr := rfl
@[simp] theorem State.log_fb (e : Event) : (s.log e).fb = s.fb := rfl
@[simp] theorem State.log_ingS (e : Event) : (s.log e).ingS = s.ingS := rfl
@[simp] theorem State.log_ingHead (e : Event) : (s.log e).ingHead = s.ingHead := rfl
@[simp] theorem State.log_ingTail (e : Event) : (s.log e).ingTail = s.ingTail := rfl
@[simp] theorem State.log_ingLen (e : Event) : (s.log e).ingLen = s.ingLen := rfl
@[simp] theorem State.log_txSeq (e : Event) : (s.log e).txSeq = s.txSeq := rfl
@[simp] theorem State.log_canTable (e : Event) : (s.log e).canTable = s.canTable := rfl
@[simp] theorem State.log_pending (e : Event) : (s.log e).pending = s.pending := rfl
@[simp] theorem State.log_requests (e : Event) : (s.log e).requests = s.requests := rfl
@[simp] theorem State.log_readReplies (e : Event) : (s.log e).readReplies = s.readReplies := rfl
@[simp] theorem State.log_writeReplies (e : Event) : (s.log e).writeReplies = s.writeReplies := rfl
@[simp] theorem State.log_flushReplies (e : Event) : (s.log e).flushReplies = s.flushReplies := rfl
@[simp] theorem State.log_traffic (e : Event) : (s.log e).traffic = s.traffic ++ [e] := rfl
@[simp] theorem State.log_responses (e : Event) : (s.log e).responses = s.responses := rfl
@[simp] theorem State.log_freeCount (e : Event) : (s.log e).freeCount = s.freeCount := rfl

/-! ### `State.wait` -/

@[simp] theorem State.wait_cfg (p : Pending) : (s.wait p).cfg = s.cfg := rfl
@[simp] theorem State.wait_dfr (p : Pending) : (s.wait p).dfr = s.dfr := rfl
@[simp] theorem State.wait_fb (p : Pending) : (s.wait p).fb = s.fb := rfl
@[simp] theorem State.wait_ingS (p : Pending) : (s.wait p).ingS = s.ingS := rfl
@[simp] theorem State.wait_ingHead (p : Pending) : (s.wait p).ingHead = s.ingHead := rfl
@[simp] theorem State.wait_ingTail (p : Pending) : (s.wait p).ingTail = s.ingTail := rfl
@[simp] theorem State.wait_ingLen (p : Pending) : (s.wait p).ingLen = s.ingLen := rfl
@[simp] theorem State.wait_txSeq (p : Pending) : (s.wait p).txSeq = s.txSeq := rfl
@[simp] theorem State.wait_canTable (p : Pending) : (s.wait p).canTable = s.canTable := rfl
@[simp] theorem State.wait_pending (p : Pending) : (s.wait p).pending = some p := rfl
@[simp] theorem State.wait_requests (p : Pending) : (s.wait p).requests = s.requests := rfl
@[simp] theorem State.wait_readReplies (p : Pending) : (s.wait p).readReplies = s.readReplies := rfl
@[simp] theorem State.wait_writeReplies (p : Pending) : (s.wait p).writeReplies = s.writeReplies := rfl
@[simp] theorem State.wait_flushReplies (p : Pending) : (s.wait p).flushReplies = s.flushReplies := rfl
@[simp] theorem State.wait_traffic (p : Pending) : (s.wait p).traffic = s.traffic := rfl
@[simp] theorem State.wait_responses (p : Pending) : (s.wait p).responses = s.responses := rfl
@[simp] theorem State.wait_freeCount (p : Pending) : (s.wait p).freeCount = s.freeCount := rfl

/-! ### `State.tookRead` -/

@[simp] theorem State.tookRead_cfg (r : ReadReply) (rs : List ReadReply) : (s.tookRead r rs).cfg = s.cfg := rfl
@[simp] theorem State.tookRead_dfr (r : ReadReply) (rs : List ReadReply) : (s.tookRead r rs).dfr = s.dfr := rfl
@[simp] theorem State.tookRead_fb (r : ReadReply) (rs : List ReadReply) : (s.tookRead r rs).fb = s.fb := rfl
@[simp] theorem State.tookRead_ingS (r : ReadReply) (rs : List ReadReply) : (s.tookRead r rs).ingS = s.ingS := rfl
@[simp] theorem State.tookRead_ingHead (r : ReadReply) (rs : List ReadReply) : (s.tookRead r rs).ingHead = s.ingHead := rfl
@[simp] theorem State.tookRead_ingTail (r : ReadReply) (rs : List ReadReply) : (s.tookRead r rs).ingTail = s.ingTail := rfl
@[simp] theorem State.tookRead_ingLen (r : ReadReply) (rs : List ReadReply) : (s.tookRead r rs).ingLen = s.ingLen := rfl
@[simp] theorem State.tookRead_txSeq (r : ReadReply) (rs : List ReadReply) : (s.tookRead r rs).txSeq = s.txSeq := rfl
@[simp] theorem State.tookRead_canTable (r : ReadReply) (rs : List ReadReply) : (s.tookRead r rs).canTable = s.canTable := rfl
@[simp] theorem State.tookRead_pending (r : ReadReply) (rs : List ReadReply) : (s.tookRead r rs).pending = s.pending := rfl
@[simp] theorem State.tookRead_requests (r : ReadReply) (rs : List ReadReply) : (s.tookRead r rs).requests = s.requests := rfl
@[simp] theorem State.tookRead_readReplies (r : ReadReply) (rs : List ReadReply) : (s.tookRead r rs).readReplies = rs := rfl
@[simp] theorem State.tookRead_writeReplies (r : ReadReply) (rs : List ReadReply) : (s.tookRead r rs).writeReplies = s.writeReplies := rfl
@[simp] theorem State.tookRead_flushReplies (r : ReadReply) (rs : List ReadReply) : (s.tookRead r rs).flushReplies = s.flushReplies := rfl
@[simp] theorem State.tookRead_traffic (r : ReadReply) (rs : List ReadReply) : (s.tookRead r rs).traffic = s.traffic ++ [.readReply r] := rfl
@[simp] theorem State.tookRead_responses (r : ReadReply) (rs : List ReadReply) : (s.tookRead r rs).responses = s.responses := rfl
@[simp] theorem State.tookRead_freeCount (r : ReadReply) (rs : List ReadReply) : (s.tookRead r rs).freeCount = s.freeCount := rfl

/-! ### `State.tookWrite` -/

@[simp] theorem State.tookWrite_cfg (w : WriteReply) (ws : List WriteReply) : (s.tookWrite w ws).cfg = s.cfg := rfl
@[simp] theorem State.tookWrite_dfr (w : WriteReply) (ws : List WriteReply) : (s.tookWrite w ws).dfr = s.dfr := rfl
@[simp] theorem State.tookWrite_fb (w : WriteReply) (ws : List WriteReply) : (s.tookWrite w ws).fb = s.fb := rfl
@[simp] theorem State.tookWrite_ingS (w : WriteReply) (ws : List WriteReply) : (s.tookWrite w ws).ingS = s.ingS := rfl
@[simp] theorem State.tookWrite_ingHead (w : WriteReply) (ws : List WriteReply) : (s.tookWrite w ws).ingHead = s.ingHead := rfl
@[simp] theorem State.tookWrite_ingTail (w : WriteReply) (ws : List WriteReply) : (s.tookWrite w ws).ingTail = s.ingTail := rfl
@[simp] theorem State.tookWrite_ingLen (w : WriteReply) (ws : List WriteReply) : (s.tookWrite w ws).ingLen = s.ingLen := rfl
@[simp] theorem State.tookWrite_txSeq (w : WriteReply) (ws : List WriteReply) : (s.tookWrite w ws).txSeq = s.txSeq := rfl
@[simp] theorem State.tookWrite_canTable (w : WriteReply) (ws : List WriteReply) : (s.tookWrite w ws).canTable = s.canTable := rfl
@[simp] theorem State.tookWrite_pending (w : WriteReply) (ws : List WriteReply) : (s.tookWrite w ws).pending = s.pending := rfl
@[simp] theorem State.tookWrite_requests (w : WriteReply) (ws : List WriteReply) : (s.tookWrite w ws).requests = s.requests := rfl
@[simp] theorem State.tookWrite_readReplies (w : WriteReply) (ws : List WriteReply) : (s.tookWrite w ws).readReplies = s.readReplies := rfl
@[simp] theorem State.tookWrite_writeReplies (w : WriteReply) (ws : List WriteReply) : (s.tookWrite w ws).writeReplies = ws := rfl
@[simp] theorem State.tookWrite_flushReplies (w : WriteReply) (ws : List WriteReply) : (s.tookWrite w ws).flushReplies = s.flushReplies := rfl
@[simp] theorem State.tookWrite_traffic (w : WriteReply) (ws : List WriteReply) : (s.tookWrite w ws).traffic = s.traffic ++ [.writeReply w] := rfl
@[simp] theorem State.tookWrite_responses (w : WriteReply) (ws : List WriteReply) : (s.tookWrite w ws).responses = s.responses := rfl
@[simp] theorem State.tookWrite_freeCount (w : WriteReply) (ws : List WriteReply) : (s.tookWrite w ws).freeCount = s.freeCount := rfl

/-! ### `State.tookFlush` -/

@[simp] theorem State.tookFlush_cfg (f : FlushReply) (fs : List FlushReply) : (s.tookFlush f fs).cfg = s.cfg := rfl
@[simp] theorem State.tookFlush_dfr (f : FlushReply) (fs : List FlushReply) : (s.tookFlush f fs).dfr = s.dfr := rfl
@[simp] theorem State.tookFlush_fb (f : FlushReply) (fs : List FlushReply) : (s.tookFlush f fs).fb = s.fb := rfl
@[simp] theorem State.tookFlush_ingS (f : FlushReply) (fs : List FlushReply) : (s.tookFlush f fs).ingS = s.ingS := rfl
@[simp] theorem State.tookFlush_ingHead (f : FlushReply) (fs : List FlushReply) : (s.tookFlush f fs).ingHead = s.ingHead := rfl
@[simp] theorem State.tookFlush_ingTail (f : FlushReply) (fs : List FlushReply) : (s.tookFlush f fs).ingTail = s.ingTail := rfl
@[simp] theorem State.tookFlush_ingLen (f : FlushReply) (fs : List FlushReply) : (s.tookFlush f fs).ingLen = s.ingLen := rfl
@[simp] theorem State.tookFlush_txSeq (f : FlushReply) (fs : List FlushReply) : (s.tookFlush f fs).txSeq = s.txSeq := rfl
@[simp] theorem State.tookFlush_canTable (f : FlushReply) (fs : List FlushReply) : (s.tookFlush f fs).canTable = s.canTable := rfl
@[simp] theorem State.tookFlush_pending (f : FlushReply) (fs : List FlushReply) : (s.tookFlush f fs).pending = s.pending := rfl
@[simp] theorem State.tookFlush_requests (f : FlushReply) (fs : List FlushReply) : (s.tookFlush f fs).requests = s.requests := rfl
@[simp] theorem State.tookFlush_readReplies (f : FlushReply) (fs : List FlushReply) : (s.tookFlush f fs).readReplies = s.readReplies := rfl
@[simp] theorem State.tookFlush_writeReplies (f : FlushReply) (fs : List FlushReply) : (s.tookFlush f fs).writeReplies = s.writeReplies := rfl
@[simp] theorem State.tookFlush_flushReplies (f : FlushReply) (fs : List FlushReply) : (s.tookFlush f fs).flushReplies = fs := rfl
@[simp] theorem State.tookFlush_traffic (f : FlushReply) (fs : List FlushReply) : (s.tookFlush f fs).traffic = s.traffic ++ [.flushReply f] := rfl
@[simp] theorem State.tookFlush_responses (f : FlushReply) (fs : List FlushReply) : (s.tookFlush f fs).responses = s.responses := rfl
@[simp] theorem State.tookFlush_freeCount (f : FlushReply) (fs : List FlushReply) : (s.tookFlush f fs).freeCount = s.freeCount := rfl

/-! ### `State.setDfr` -/

@[simp] theorem State.setDfr_cfg (d : Dfr) : (s.setDfr d).cfg = s.cfg := rfl
@[simp] theorem State.setDfr_dfr (d : Dfr) : (s.setDfr d).dfr = d := rfl
@[simp] theorem State.setDfr_fb (d : Dfr) : (s.setDfr d).fb = s.fb := rfl
@[simp] theorem State.setDfr_ingS (d : Dfr) : (s.setDfr d).ingS = s.ingS := rfl
@[simp] theorem State.setDfr_ingHead (d : Dfr) : (s.setDfr d).ingHead = s.ingHead := rfl
@[simp] theorem State.setDfr_ingTail (d : Dfr) : (s.setDfr d).ingTail = s.ingTail := rfl
@[simp] theorem State.setDfr_ingLen (d : Dfr) : (s.setDfr d).ingLen = s.ingLen := rfl
@[simp] theorem State.setDfr_txSeq (d : Dfr) : (s.setDfr d).txSeq = s.txSeq := rfl
@[simp] theorem State.setDfr_canTable (d : Dfr) : (s.setDfr d).canTable = s.canTable := rfl
@[simp] theorem State.setDfr_pending (d : Dfr) : (s.setDfr d).pending = s.pending := rfl
@[simp] theorem State.setDfr_requests (d : Dfr) : (s.setDfr d).requests = s.requests := rfl
@[simp] theorem State.setDfr_readReplies (d : Dfr) : (s.setDfr d).readReplies = s.readReplies := rfl
@[simp] theorem State.setDfr_writeReplies (d : Dfr) : (s.setDfr d).writeReplies = s.writeReplies := rfl
@[simp] theorem State.setDfr_flushReplies (d : Dfr) : (s.setDfr d).flushReplies = s.flushReplies := rfl
@[simp] theorem State.setDfr_traffic (d : Dfr) : (s.setDfr d).traffic = s.traffic := rfl
@[simp] theorem State.setDfr_responses (d : Dfr) : (s.setDfr d).responses = s.responses := rfl
@[simp] theorem State.setDfr_freeCount (d : Dfr) : (s.setDfr d).freeCount = s.freeCount := rfl

/-! ### `State.setCan` -/

@[simp] theorem State.setCan_cfg (t : CanTable) : (s.setCan t).cfg = s.cfg := rfl
@[simp] theorem State.setCan_dfr (t : CanTable) : (s.setCan t).dfr = s.dfr := rfl
@[simp] theorem State.setCan_fb (t : CanTable) : (s.setCan t).fb = s.fb := rfl
@[simp] theorem State.setCan_ingS (t : CanTable) : (s.setCan t).ingS = s.ingS := rfl
@[simp] theorem State.setCan_ingHead (t : CanTable) : (s.setCan t).ingHead = s.ingHead := rfl
@[simp] theorem State.setCan_ingTail (t : CanTable) : (s.setCan t).ingTail = s.ingTail := rfl
@[simp] theorem State.setCan_ingLen (t : CanTable) : (s.setCan t).ingLen = s.ingLen := rfl
@[simp] theorem State.setCan_txSeq (t : CanTable) : (s.setCan t).txSeq = s.txSeq := rfl
@[simp] theorem State.setCan_canTable (t : CanTable) : (s.setCan t).canTable = t := rfl
@[simp] theorem State.setCan_pending (t : CanTable) : (s.setCan t).pending = s.pending := rfl
@[simp] theorem State.setCan_requests (t : CanTable) : (s.setCan t).requests = s.requests := rfl
@[simp] theorem State.setCan_readReplies (t : CanTable) : (s.setCan t).readReplies = s.readReplies := rfl
@[simp] theorem State.setCan_writeReplies (t : CanTable) : (s.setCan t).writeReplies = s.writeReplies := rfl
@[simp] theorem State.setCan_flushReplies (t : CanTable) : (s.setCan t).flushReplies = s.flushReplies := rfl
@[simp] theorem State.setCan_traffic (t : CanTable) : (s.setCan t).traffic = s.traffic := rfl
@[simp] theorem State.setCan_responses (t : CanTable) : (s.setCan t).responses = s.responses := rfl
@[simp] theorem State.setCan_freeCount (t : CanTable) : (s.setCan t).freeCount = s.freeCount := rfl

/-! ### `State.stored` -/

@[simp] theorem State.stored_cfg (bytes : Bytes) : (s.stored bytes).cfg = s.cfg := rfl
@[simp] theorem State.stored_dfr (bytes : Bytes) : (s.stored bytes).dfr = s.dfr := rfl
@[simp] theorem State.stored_fb (bytes : Bytes) : (s.stored bytes).fb = s.fb := rfl
@[simp] theorem State.stored_ingS (bytes : Bytes) : (s.stored bytes).ingS = memWriteAll s.ingS (ingStart s) bytes := rfl
@[simp] theorem State.stored_ingHead (bytes : Bytes) : (s.stored bytes).ingHead = ingStart s + bytes.length := rfl
@[simp] theorem State.stored_ingTail (bytes : Bytes) : (s.stored bytes).ingTail = s.ingTail := rfl
@[simp] theorem State.stored_ingLen (bytes : Bytes) : (s.stored bytes).ingLen = max s.ingLen (ingStart s + bytes.length) := rfl
@[simp] theorem State.stored_txSeq (bytes : Bytes) : (s.stored bytes).txSeq = s.txSeq := rfl
@[simp] theorem State.stored_canTable (bytes : Bytes) : (s.stored bytes).canTable = s.canTable := rfl
@[simp] theorem State.stored_pending (bytes : Bytes) : (s.stored bytes).pending = s.pending := rfl
@[simp] theorem State.stored_requests (bytes : Bytes) : (s.stored bytes).requests = s.requests := rfl
@[simp] theorem State.stored_readReplies (bytes : Bytes) : (s.stored bytes).readReplies = s.readReplies := rfl
@[simp] theorem State.stored_writeReplies (bytes : Bytes) : (s.stored bytes).writeReplies = s.writeReplies := rfl
@[simp] theorem State.stored_flushReplies (bytes : Bytes) : (s.stored bytes).flushReplies = s.flushReplies := rfl
@[simp] theorem State.stored_traffic (bytes : Bytes) : (s.stored bytes).traffic = s.traffic := rfl
@[simp] theorem State.stored_responses (bytes : Bytes) : (s.stored bytes).responses = s.responses := rfl
@[simp] theorem State.stored_freeCount (bytes : Bytes) : (s.stored bytes).freeCount = s.freeCount := rfl

/-! ### `State.scrambled` -/

@[simp] theorem State.scrambled_cfg : s.scrambled.cfg = s.cfg := rfl
@[simp] theorem State.scrambled_dfr : s.scrambled.dfr = s.dfr := rfl
@[simp] theorem State.scrambled_fb : s.scrambled.fb = s.fb := rfl
@[simp] theorem State.scrambled_ingS : s.scrambled.ingS = memWriteAll s.ingS (ingStart s) (freeBytes s s.cfg.chunk) := rfl
@[simp] theorem State.scrambled_ingHead : s.scrambled.ingHead = s.ingHead := rfl
@[simp] theorem State.scrambled_ingTail : s.scrambled.ingTail = s.ingTail := rfl
@[simp] theorem State.scrambled_ingLen : s.scrambled.ingLen = s.ingLen := rfl
@[simp] theorem State.scrambled_txSeq : s.scrambled.txSeq = s.txSeq := rfl
@[simp] theorem State.scrambled_canTable : s.scrambled.canTable = s.canTable := rfl
@[simp] theorem State.scrambled_pending : s.scrambled.pending = s.pending := rfl
@[simp] theorem State.scrambled_requests : s.scrambled.requests = s.requests := rfl
@[simp] theorem State.scrambled_readReplies : s.scrambled.readReplies = s.readReplies := rfl
@[simp] theorem State.scrambled_writeReplies : s.scrambled.writeReplies = s.writeReplies := rfl
@[simp] theorem State.scrambled_flushReplies : s.scrambled.flushReplies = s.flushReplies := rfl
@[simp] theorem State.scrambled_traffic : s.scrambled.traffic = s.traffic := rfl
@[simp] theorem State.scrambled_responses : s.scrambled.responses = s.responses := rfl
@[simp] theorem State.scrambled_freeCount : s.scrambled.freeCount = s.freeCount + s.cfg.chunk := rfl

/-! ### `State.advanced` -/

@[simp] theorem State.advanced_cfg : s.advanced.cfg = s.cfg := rfl
@[simp] theorem State.advanced_dfr : s.advanced.dfr = s.dfr := rfl
@[simp] theorem State.advanced_fb : s.advanced.fb = s.fb := rfl
@[simp] theorem State.advanced_ingS : s.advanced.ingS = s.ingS := rfl
@[simp] theorem State.advanced_ingHead : s.advanced.ingHead = s.ingHead := rfl
@[simp] theorem State.advanced_ingTail : s.advanced.ingTail = s.ingTail + 1 := rfl
@[simp] theorem State.advanced_ingLen : s.advanced.ingLen = s.ingLen := rfl
@[simp] theorem State.advanced_txSeq : s.advanced.txSeq = s.txSeq := rfl
@[simp] theorem State.advanced_canTable : s.advanced.canTable = s.canTable := rfl
@[simp] theorem State.advanced_pending : s.advanced.pending = s.pending := rfl
@[simp] theorem State.advanced_requests : s.advanced.requests = s.requests := rfl
@[simp] theorem State.advanced_readReplies : s.advanced.readReplies = s.readReplies := rfl
@[simp] theorem State.advanced_writeReplies : s.advanced.writeReplies = s.writeReplies := rfl
@[simp] theorem State.advanced_flushReplies : s.advanced.flushReplies = s.flushReplies := rfl
@[simp] theorem State.advanced_traffic : s.advanced.traffic = s.traffic := rfl
@[simp] theorem State.advanced_responses : s.advanced.responses = s.responses := rfl
@[simp] theorem State.advanced_freeCount : s.advanced.freeCount = s.freeCount := rfl

/-! ### `State.framed` -/

@[simp] theorem State.framed_cfg (r : Nat) (b : Byte) : (s.framed r b).cfg = s.cfg := rfl
@[simp] theorem State.framed_dfr (r : Nat) (b : Byte) : (s.framed r b).dfr = s.dfr := rfl
@[simp] theorem State.framed_fb (r : Nat) (b : Byte) : (s.framed r b).fb = memWrite s.fb r b := rfl
@[simp] theorem State.framed_ingS (r : Nat) (b : Byte) : (s.framed r b).ingS = s.ingS := rfl
@[simp] theorem State.framed_ingHead (r : Nat) (b : Byte) : (s.framed r b).ingHead = s.ingHead := rfl
@[simp] theorem State.framed_ingTail (r : Nat) (b : Byte) : (s.framed r b).ingTail = s.ingTail := rfl
@[simp] theorem State.framed_ingLen (r : Nat) (b : Byte) : (s.framed r b).ingLen = s.ingLen := rfl
@[simp] theorem State.framed_txSeq (r : Nat) (b : Byte) : (s.framed r b).txSeq = s.txSeq := rfl
@[simp] theorem State.framed_canTable (r : Nat) (b : Byte) : (s.framed r b).canTable = s.canTable := rfl
@[simp] theorem State.framed_pending (r : Nat) (b : Byte) : (s.framed r b).pending = s.pending := rfl
@[simp] theorem State.framed_requests (r : Nat) (b : Byte) : (s.framed r b).requests = s.requests := rfl
@[simp] theorem State.framed_readReplies (r : Nat) (b : Byte) : (s.framed r b).readReplies = s.readReplies := rfl
@[simp] theorem State.framed_writeReplies (r : Nat) (b : Byte) : (s.framed r b).writeReplies = s.writeReplies := rfl
@[simp] theorem State.framed_flushReplies (r : Nat) (b : Byte) : (s.framed r b).flushReplies = s.flushReplies := rfl
@[simp] theorem State.framed_traffic (r : Nat) (b : Byte) : (s.framed r b).traffic = s.traffic := rfl
@[simp] theorem State.framed_responses (r : Nat) (b : Byte) : (s.framed r b).responses = s.responses := rfl
@[simp] theorem State.framed_freeCount (r : Nat) (b : Byte) : (s.framed r b).freeCount = s.freeCount := rfl

/-! ### `State.bumped` -/

@[simp] theorem State.bumped_cfg : s.bumped.cfg = s.cfg := rfl
@[simp] theorem State.bumped_dfr : s.bumped.dfr = s.dfr := rfl
@[simp] theorem State.bumped_fb : s.bumped.fb = s.fb := rfl
@[simp] theorem State.bumped_ingS : s.bumped.ingS = s.ingS := rfl
@[simp] theorem State.bumped_ingHead : s.bumped.ingHead = s.ingHead := rfl
@[simp] theorem State.bumped_ingTail : s.bumped.ingTail = s.ingTail := rfl
@[simp] theorem State.bumped_ingLen : s.bumped.ingLen = s.ingLen := rfl
@[simp] theorem State.bumped_txSeq : s.bumped.txSeq = s.txSeq + 1 := rfl
@[simp] theorem State.bumped_canTable : s.bumped.canTable = s.canTable := rfl
@[simp] theorem State.bumped_pending : s.bumped.pending = s.pending := rfl
@[simp] theorem State.bumped_requests : s.bumped.requests = s.requests := rfl
@[simp] theorem State.bumped_readReplies : s.bumped.readReplies = s.readReplies := rfl
@[simp] theorem State.bumped_writeReplies : s.bumped.writeReplies = s.writeReplies := rfl
@[simp] theorem State.bumped_flushReplies : s.bumped.flushReplies = s.flushReplies := rfl
@[simp] theorem State.bumped_traffic : s.bumped.traffic = s.traffic := rfl
@[simp] theorem State.bumped_responses : s.bumped.responses = s.responses := rfl
@[simp] theorem State.bumped_freeCount : s.bumped.freeCount = s.freeCount := rfl

/-! ### `State.rewound` (40_ingest.md R114) -/

@[simp] theorem State.rewound_cfg : s.rewound.cfg = s.cfg := by unfold State.rewound; split <;> rfl
@[simp] theorem State.rewound_dfr : s.rewound.dfr = s.dfr := by unfold State.rewound; split <;> rfl
@[simp] theorem State.rewound_fb : s.rewound.fb = s.fb := by unfold State.rewound; split <;> rfl
@[simp] theorem State.rewound_ingS : s.rewound.ingS = s.ingS := by unfold State.rewound; split <;> rfl
@[simp] theorem State.rewound_ingHead : s.rewound.ingHead = s.ingHead := by unfold State.rewound; split <;> rfl
@[simp] theorem State.rewound_txSeq : s.rewound.txSeq = s.txSeq := by unfold State.rewound; split <;> rfl
@[simp] theorem State.rewound_canTable : s.rewound.canTable = s.canTable := by unfold State.rewound; split <;> rfl
@[simp] theorem State.rewound_pending : s.rewound.pending = s.pending := by unfold State.rewound; split <;> rfl
@[simp] theorem State.rewound_requests : s.rewound.requests = s.requests := by unfold State.rewound; split <;> rfl
@[simp] theorem State.rewound_readReplies : s.rewound.readReplies = s.readReplies := by unfold State.rewound; split <;> rfl
@[simp] theorem State.rewound_writeReplies : s.rewound.writeReplies = s.writeReplies := by unfold State.rewound; split <;> rfl
@[simp] theorem State.rewound_flushReplies : s.rewound.flushReplies = s.flushReplies := by unfold State.rewound; split <;> rfl
@[simp] theorem State.rewound_traffic : s.rewound.traffic = s.traffic := by unfold State.rewound; split <;> rfl
@[simp] theorem State.rewound_responses : s.rewound.responses = s.responses := by unfold State.rewound; split <;> rfl
@[simp] theorem State.rewound_freeCount : s.rewound.freeCount = s.freeCount := by unfold State.rewound; split <;> rfl

/-- The rewind happens. -/
theorem State.rewound_of_drained {s : State} (h : s.ingTail ≥ s.ingLen ∧ s.ingHead < s.ingLen) :
    s.rewound = { s with ingLen := s.ingHead, ingTail := 0 } := by unfold State.rewound; rw [if_pos h]

/-- The rewind does not happen. -/
theorem State.rewound_of_not_drained {s : State} (h : ¬ (s.ingTail ≥ s.ingLen ∧ s.ingHead < s.ingLen)) :
    s.rewound = s := by unfold State.rewound; rw [if_neg h]

end

end Sys2Proof.Machine
end

