-- ==== Sys2Proof/Laws/Ops.lean ====
section
/-! SUPPORT. Once for each shared operation, everything it can do. -/

namespace Sys2Proof.Machine

/-! ### Responses -/

theorem respond_eq (s : State) (r : Response) : respond s r = .next (s.answer r) := rfl

theorem answer_eq_responded (s : State) (r : Response) : s.answer r = responded s (responseBytes r) := rfl

theorem fail_eq (s : State) (f : Failure) : fail s f = .next (responded s (failureCode f :: failureInfo f)) := rfl

/-- A malformed instruction answers BAD_OPERAND; any other runs its own rule (30_encoding.md R87, R88). -/
theorem guardOperands_eq (i : Instr) (s : State) (own : Result) :
    guardOperands i s own = if malformed i = true then .next (responded s [0xFD]) else own := rfl

/-- Every error status is one of R200. -/
theorem failureCode_defined (f : Failure) : failureCode f ∈ definedStatuses := by
  cases f <;> simp [failureCode, definedStatuses]

/-- Every response has a status of R200. -/
theorem responseBytes_status (r : Response) : ∃ c fields, responseBytes r = c :: fields ∧ c ∈ definedStatuses := by
  cases r with
  | failed f => exact ⟨_, _, rfl, failureCode_defined f⟩
  | pushed n => exact ⟨_, _, rfl, by simp [definedStatuses]⟩
  | popped b => exact ⟨_, _, rfl, by simp [definedStatuses]⟩
  | feedNone => exact ⟨_, _, rfl, by simp [definedStatuses]⟩
  | feedFrame f => exact ⟨_, _, rfl, by simp [definedStatuses]⟩
  | discardShort len => exact ⟨_, _, rfl, by simp [definedStatuses]⟩
  | resetDone => exact ⟨_, _, rfl, by simp [definedStatuses]⟩
  | decoded m => exact ⟨_, _, rfl, by simp [definedStatuses]⟩
  | sent seq => exact ⟨_, _, rfl, by simp [definedStatuses]⟩
  | canPending => exact ⟨_, _, rfl, by simp [definedStatuses]⟩
  | canComplete bytes => exact ⟨_, _, rfl, by simp [definedStatuses]⟩

/-! ### Ranges of a store -/

/-- A range of a store whose bytes are not touched reads as before. -/
theorem readRange_congr {m m' : Memory} {a b : Nat} (h : ∀ i, a ≤ i → i < b → memRead m' i = memRead m i) :
    readRange m' a b = readRange m a b := by
  refine List.map_congr_left fun i hi => ?_
  rw [List.mem_range'_1] at hi
  exact h i hi.1 (by omega)

theorem readRange_append (m : Memory) {a b c : Nat} (hab : a ≤ b) (hbc : b ≤ c) :
    readRange m a b ++ readRange m b c = readRange m a c := by
  simp only [readRange, ← List.map_append]
  congr 1
  rw [show c - a = (b - a) + (c - b) by omega, ← List.range'_append_1, show a + (b - a) = b by omega]

theorem readRange_nil (m : Memory) {a b : Nat} (h : b ≤ a) : readRange m a b = [] := by
  rw [readRange, show b - a = 0 by omega]; rfl

theorem readRange_cons (m : Memory) {a b : Nat} (h : a < b) :
    readRange m a b = memRead m a :: readRange m (a + 1) b := by
  rw [readRange, show b - a = (b - (a + 1)) + 1 by omega, List.range'_succ]; rfl

/-- The range just written reads as the bytes written. -/
theorem readRange_memWriteAll (m : Memory) (base : Nat) (bs : Bytes) :
    readRange (memWriteAll m base bs) base (base + bs.length) = bs.map some := by
  induction bs generalizing m base with
  | nil => exact readRange_nil _ (by simp)
  | cons b bs ih =>
    rw [readRange_cons _ (by simp), memRead_memWriteAll, if_pos (by simp), Nat.sub_self]
    have := ih (memWrite m base b) (base + 1)
    simp only [memWriteAll, List.length_cons, List.map_cons, List.getElem?_cons_zero]
    rw [show base + (bs.length + 1) = base + 1 + bs.length by omega, this]

theorem mem_readRange {m : Memory} {a b : Nat} {x : Option Byte} :
    x ∈ readRange m a b ↔ ∃ i, a ≤ i ∧ i < b ∧ memRead m i = x := by
  simp only [readRange, List.mem_map, List.mem_range'_1]
  exact ⟨fun ⟨i, h, e⟩ => ⟨i, h.1, by omega, e⟩, fun ⟨i, h1, h2, e⟩ => ⟨i, ⟨h1, by omega⟩, e⟩⟩

/-! ### The ingest buffer -/

/-- The unread contents in the wrapped shape (10_state.md R32). -/
theorem unread_of_lt {s : State} (h : s.ingHead < s.ingLen) :
    unread s = readRange s.ingS s.ingTail s.ingLen ++ readRange s.ingS 0 s.ingHead := if_pos h

/-- The unread contents in the linear shape (R32). -/
theorem unread_of_not_lt {s : State} (h : ¬ s.ingHead < s.ingLen) :
    unread s = readRange s.ingS s.ingTail s.ingHead := if_neg h

theorem ingStart_le (s : State) : ingStart s ≤ s.cfg.chunk := by
  unfold ingStart; split <;> omega

theorem ingAdmit_iff (s : State) : ingAdmit s = true ↔ admitted s := by
  unfold ingAdmit ingLinear admitted
  by_cases h : s.ingHead = s.ingLen <;> by_cases h' : s.ingHead ≤ s.cfg.chunk <;> simp [h, h'] <;> omega

@[simp] theorem freeBytes_length (s : State) (n : Nat) : (freeBytes s n).length = n := by simp [freeBytes]

/-- A push: OVERFLOW, a wait for the read's reply, or the reply's end. -/
theorem execIngPush_eq (s : State) :
    (¬ admitted s ∧ execIngPush s = .next (responded s [0x02])) ∨
    (admitted s ∧ s.readReplies = [] ∧
      execIngPush s = .next { s with traffic := s.traffic ++ [.read s.cfg.chunk], pending := some .read }) ∨
    (admitted s ∧ ∃ r rs, s.readReplies = r :: rs ∧
      execIngPush s =
        finishRead r { s with readReplies := rs, traffic := s.traffic ++ [.read s.cfg.chunk, .readReply r] }) := by
  unfold execIngPush
  by_cases h : admitted s
  · rw [if_pos ((ingAdmit_iff s).mpr h)]
    rcases hr : s.readReplies with _ | ⟨r, rs⟩
    · exact .inr (.inl ⟨h, rfl, by simp [awaitRead, hr, State.wait, State.log]⟩)
    · exact .inr (.inr ⟨h, r, rs, rfl, by simp [awaitRead, hr, State.tookRead, State.log]⟩)
  · rw [if_neg (fun e => h ((ingAdmit_iff s).mp e))]
    exact .inl ⟨h, rfl⟩

/-- The end of a read: refused, stored, or failed with the cursors as they were. -/
theorem finishRead_eq (r : ReadReply) (s : State) :
    (∃ bytes, r = .ok bytes ∧ bytes.length > s.cfg.chunk ∧ finishRead r s = .refused .overlongRead) ∨
    (∃ bytes, r = .ok bytes ∧ bytes.length ≤ s.cfg.chunk ∧
      finishRead r s = .next (responded (s.stored bytes) (0x00 :: countBytes bytes.length))) ∨
    (∃ e, r = .err e ∧ finishRead r s = .next (responded s.scrambled [0x03, e])) ∨
    (r = .cancelled ∧ finishRead r s = .next (responded s.scrambled [0x0B])) := by
  cases r with
  | ok bytes =>
    by_cases h : bytes.length > s.cfg.chunk
    · exact .inl ⟨bytes, rfl, h, by simp [finishRead, h]⟩
    · exact .inr (.inl ⟨bytes, rfl, by omega, by simp only [finishRead, if_neg h]; rfl⟩)
  | err e => exact .inr (.inr (.inl ⟨e, rfl, rfl⟩))
  | cancelled => exact .inr (.inr (.inr ⟨rfl, rfl⟩))

/-- A pop: EMPTY, the byte at the read cursor, or a byte that is not there. -/
theorem execIngPop_eq (s : State) :
    (s.ingHead = s.rewound.ingTail ∧ execIngPop s = .next (responded s.rewound [0x01])) ∨
    (s.ingHead ≠ s.rewound.ingTail ∧ ∃ b, s.rewound.ingTail < 2 * s.cfg.chunk ∧
      memRead s.ingS s.rewound.ingTail = some b ∧
      execIngPop s = .next (responded s.rewound.advanced [0x00, b])) ∨
    (s.ingHead ≠ s.rewound.ingTail ∧
      (s.rewound.ingTail < 2 * s.cfg.chunk → memRead s.ingS s.rewound.ingTail = none) ∧
      execIngPop s = .fault .ingestByteAbsent) := by
  unfold execIngPop popByte
  by_cases h : s.ingHead = s.rewound.ingTail
  · exact .inl ⟨h, by simp only [State.rewound_ingHead, if_pos h]; rfl⟩
  · simp only [State.rewound_ingHead, if_neg h, ingByte, ingestSize, State.rewound_cfg, State.rewound_ingS]
    by_cases hr : s.rewound.ingTail < 2 * s.cfg.chunk
    · rw [if_pos hr]
      cases hm : memRead s.ingS s.rewound.ingTail with
      | none => exact .inr (.inr ⟨h, fun _ => rfl, rfl⟩)
      | some b => exact .inr (.inl ⟨h, b, hr, rfl, rfl⟩)
    · rw [if_neg hr]
      exact .inr (.inr ⟨h, fun e => absurd e hr, rfl⟩)

/-! ### The deframer -/

/-- One byte fed: a next state in which only `DFR_STATE`, `FB[r]` in `BODY(e, r)`, the response log and the waiting
operation differ; or a byte or index that is not there. -/
theorem execDfrFeed_eq (b : Byte) (s : State) :
    (∃ d resp, (∀ e r, s.dfr ≠ .body e r) ∧ (d = .sync 0 ∨ d = .sync 1 ∨ d = .length ∨
        (d = .body b.toNat 0 ∧ 6 ≤ b.toNat)) ∧
      execDfrFeed b s = .next ((s.setDfr d).answer resp)) ∨
    (∃ e r, s.dfr = .body e r ∧ r < 256 ∧ r + 1 ≠ e ∧
      execDfrFeed b s = .next (((s.framed r b).setDfr (.body e (r + 1))).answer .feedNone)) ∨
    (∃ e r f, s.dfr = .body e r ∧ r < 256 ∧ r + 1 = e ∧ memReadAll (memWrite s.fb r b) 0 e = some f ∧
      execDfrFeed b s = .next (((s.framed r b).setDfr (.sync 0)).answer (.feedFrame (frameOf f)))) ∨
    (∃ e r, s.dfr = .body e r ∧ 256 ≤ r ∧ execDfrFeed b s = .fault .frameIndexAbsent) ∨
    (∃ e r, s.dfr = .body e r ∧ r < 256 ∧ r + 1 = e ∧ memReadAll (memWrite s.fb r b) 0 e = none ∧
      execDfrFeed b s = .fault .frameByteAbsent) := by
  unfold execDfrFeed
  split
  · rename_i p hd
    refine .inl ?_
    unfold feedSync
    split
    · split
      · exact ⟨.length, .feedNone, by simp [hd], by simp, rfl⟩
      · refine ⟨.sync (p + 1), .feedNone, by simp [hd], ?_, rfl⟩
        have : p = 0 ∨ p = 1 := by omega
        rcases this with rfl | rfl
        · exact .inr (.inl rfl)
        · exact absurd rfl ‹¬ _›
    · exact ⟨.sync 0, .feedNone, by simp [hd], by simp, rfl⟩
  · rename_i hd
    refine .inl ?_
    unfold feedLength
    split
    · exact ⟨.sync 0, _, by simp [hd], by simp, rfl⟩
    · split
      · exact ⟨.sync 0, _, by simp [hd], by simp, rfl⟩
      · refine ⟨.body b.toNat 0, _, by simp [hd], .inr (.inr (.inr ⟨rfl, ?_⟩)), rfl⟩
        simp only [Config.hdrLen] at *; omega
  · rename_i e r hd
    refine .inr ?_
    unfold feedBody
    by_cases hr : r < 256
    · rw [if_pos (show r < Config.frameCap from hr)]
      by_cases he : r + 1 = e
      · rw [if_pos he]
        unfold emitFrame
        cases hm : memReadAll (memWrite s.fb r b) 0 e with
        | some f => exact .inr (.inl ⟨e, r, f, hd, hr, he, hm, by simp only [State.framed_fb, hm]; rfl⟩)
        | none => exact .inr (.inr (.inr ⟨e, r, hd, hr, he, hm, by simp only [State.framed_fb, hm]⟩))
      · rw [if_neg he]
        exact .inl ⟨e, r, hd, hr, he, rfl⟩
    · rw [if_neg (show ¬ r < Config.frameCap from hr)]
      exact .inr (.inr (.inl ⟨e, r, hd, by omega, rfl⟩))

/-! ### Message decode -/

/-- A message decode of a payload that has a count is one response and nothing else (41_deframer.md R141, R142). -/
theorem execMsgDecode_eq {dest : Byte} {data : Bytes} (h : data.length ≤ 65535) (s : State) :
    execMsgDecode dest data s = .next (responded s (responseBytes (messageResponse (messageOf dest data)))) := by
  unfold execMsgDecode
  rw [guardOperands_eq, if_neg (by simp [malformed, Instr.wellFormed, operandsLegal, h])]; rfl

/-! ### Operations in a row -/

theorem execAll_cons {i : Instr} {is : List Instr} {s t : State} (h : exec i s = .next t) :
    execAll (i :: is) s = execAll is t := by simp only [execAll, h]

theorem execAll_append {xs : List Instr} (ys : List Instr) {s t : State} (h : execAll xs s = .next t) :
    execAll (xs ++ ys) s = execAll ys t := by
  induction xs generalizing s with
  | nil => cases h; rfl
  | cons x xs ih =>
    simp only [execAll, List.cons_append] at h ⊢
    cases hx : exec x s with
    | next u => rw [hx] at h; exact ih h
    | fault f => rw [hx] at h; cases h
    | refused f => rw [hx] at h; cases h

theorem feedAll_cons {b : Byte} {bs : Bytes} {s t : State} (h : exec (.dfrFeed b) s = .next t) :
    feedAll (b :: bs) s = feedAll bs t := execAll_cons h

theorem feedAll_append {bs : Bytes} (cs : Bytes) {s t : State} (h : feedAll bs s = .next t) :
    feedAll (bs ++ cs) s = feedAll cs t := by
  unfold feedAll; rw [List.map_append]; exact execAll_append _ h

end Sys2Proof.Machine
end

