-- ==== Sys2Proof/Laws/Can.lean ====
section
/-! SUPPORT. Once for the reassembler (43_can_reassembler.md R181 to R189), everything it can do. -/

namespace Sys2Proof.Machine

/-- The buffer step 4 leaves to be checked: empty after a restart (R185). -/
def checkedBuffer (f : Fragment) (buf : Bytes) : Bytes := if f.seqNum = 0 then [] else buf

/-- The table step 4 leaves: the entry emptied by a restart (R185). -/
def restartedTable (f : Fragment) (t : CanTable) : CanTable := if f.seqNum = 0 then canSet t f.src [] else t

/-- Steps 5 to 7: what is answered and what table is left, from the entry's buffer `buf` (R186 to R189). -/
theorem orderCheck_eq (f : Fragment) (buf : Bytes) (s : State) :
    orderCheck f buf s =
      if f.seqNum = buf.length / 5 then
        if buf.length + f.payload.length > s.cfg.maxPacket then .next (responded s [0x08])
        else if f.seqNum ≥ f.seqLen then
          .next (responded { s with canTable := canErase s.canTable f.src }
            ([0x00, 0x01] ++ countBytes (buf ++ f.payload).length ++ (buf ++ f.payload)))
        else .next (responded { s with canTable := canSet s.canTable f.src (buf ++ f.payload) } [0x00, 0x00])
      else if f.seqNum < buf.length / 5 then .next (responded s [0x00, 0x00])
      else .next (responded { s with canTable := canSet s.canTable f.src [] } [0x0A]) := rfl

theorem restart_eq (f : Fragment) (buf : Bytes) (s : State) :
    restart f buf s = orderCheck f (checkedBuffer f buf) (s.setCan (restartedTable f s.canTable)) := by
  unfold restart checkedBuffer restartedTable
  by_cases h : f.seqNum = 0
  · simp only [if_pos h]
  · simp only [if_neg h]; rfl

/-- Every CAN frame is answered at once: only the table and the response log change, and of the table only the entry of
the fragment's source. -/
theorem offerFragment_cases (f : Fragment) (s : State) :
    ∃ tbl resp, offerFragment f s = .next (responded { s with canTable := tbl } resp) ∧
      (tbl = s.canTable ∨ (∃ buf, tbl = canSet s.canTable f.src buf) ∨
        (tbl = canErase (canSet s.canTable f.src []) f.src ∨ tbl = canErase s.canTable f.src) ∧
          ∃ m : Bytes, resp = [0x00, 0x01] ++ countBytes m.length ++ m) := by
  have order : ∀ (buf : Bytes) (t : CanTable), (t = s.canTable ∨ t = canSet s.canTable f.src []) →
      ∃ tbl resp, orderCheck f buf (s.setCan t) = .next (responded { s with canTable := tbl } resp) ∧
      (tbl = s.canTable ∨ (∃ buf, tbl = canSet s.canTable f.src buf) ∨
        (tbl = canErase (canSet s.canTable f.src []) f.src ∨ tbl = canErase s.canTable f.src) ∧
          ∃ m : Bytes, resp = [0x00, 0x01] ++ countBytes m.length ++ m) := by
    intro buf t ht
    have same : t = s.canTable ∨ (∃ buf, t = canSet s.canTable f.src buf) ∨
        (t = canErase (canSet s.canTable f.src []) f.src ∨ t = canErase s.canTable f.src) ∧
          ∃ m : Bytes, ([] : Bytes) = [0x00, 0x01] ++ countBytes m.length ++ m := by
      rcases ht with h | h
      · exact .inl h
      · exact .inr (.inl ⟨[], h⟩)
    have set : ∀ b, canSet t f.src b = canSet s.canTable f.src b := by
      intro b
      rcases ht with h | h
      · rw [h]
      · rw [h]; exact keySet_keySet ..
    have noResp : ∀ resp, t = s.canTable ∨ (∃ buf, t = canSet s.canTable f.src buf) ∨
        (t = canErase (canSet s.canTable f.src []) f.src ∨ t = canErase s.canTable f.src) ∧
          ∃ m : Bytes, resp = [0x00, 0x01] ++ countBytes m.length ++ m := by
      intro resp
      rcases same with h | h | ⟨_, m, h⟩
      · exact .inl h
      · exact .inr (.inl h)
      · simp at h
    rw [orderCheck_eq]
    split
    · split
      · exact ⟨t, _, rfl, noResp _⟩
      · split
        · refine ⟨canErase t f.src, _, rfl, .inr (.inr ⟨?_, _, rfl⟩)⟩
          rcases ht with h | h
          · exact .inr (by rw [h])
          · exact .inl (by rw [h])
        · exact ⟨_, _, rfl, .inr (.inl ⟨_, set _⟩)⟩
    · split
      · exact ⟨t, _, rfl, noResp _⟩
      · exact ⟨_, _, rfl, .inr (.inl ⟨_, set _⟩)⟩
  unfold offerFragment
  split
  · exact ⟨s.canTable, _, rfl, .inl rfl⟩
  · unfold lookup
    split
    · rw [restart_eq]
      exact order _ _ (by unfold restartedTable; split <;> simp)
    · split
      · exact ⟨s.canTable, _, rfl, .inl rfl⟩
      · rw [restart_eq]
        refine order _ _ (.inr ?_)
        unfold restartedTable
        split
        · exact keySet_keySet ..
        · rfl

/-- The same for the whole operation. -/
theorem execCanRx_cases (ide rtr : Bool) (rsv : BitVec 6) (id : Word) (dlc : Byte) (data : Bytes) (s : State) :
    ∃ tbl resp, execCanRx ide rtr rsv id dlc data s = .next (responded { s with canTable := tbl } resp) ∧
      (tbl = s.canTable ∨ (∃ buf, tbl = canSet s.canTable (sourceIn s id) buf) ∨
        (tbl = canErase (canSet s.canTable (sourceIn s id) []) (sourceIn s id) ∨
          tbl = canErase s.canTable (sourceIn s id)) ∧
          ∃ m : Bytes, resp = [0x00, 0x01] ++ countBytes m.length ++ m) := by
  unfold execCanRx
  rw [guardOperands_eq]
  split
  · exact ⟨s.canTable, _, rfl, .inl rfl⟩
  · unfold receive
    split
    · exact ⟨s.canTable, _, rfl, .inl rfl⟩
    · exact offerFragment_cases (fragmentOf s.cfg.sourceMap id dlc data) s

/-- A fragment in the form of 30_encoding.md R77 goes to step 2 with its fields (R182). -/
theorem execCanRx_fragment {s : State} {id : Word} {sn rv sl : Byte} {payload : Bytes} (h29 : id.toNat < 2 ^ 29)
    (h1 : 1 ≤ payload.length) (h5 : payload.length ≤ 5) :
    exec (fragmentFrame id sn rv sl payload) s =
      offerFragment { src := sourceIn s id, seqNum := sn.toNat, seqLen := sl.toNat, payload := payload } s := by
  have hd : (BitVec.ofNat 8 (payload.length + 3)).toNat = payload.length + 3 := by
    simp only [BitVec.toNat_ofNat]; omega
  show execCanRx _ _ _ _ _ _ _ = _
  unfold execCanRx
  rw [guardOperands_eq, if_neg, receive, if_neg]
  · congr 1
    simp only [fragmentOf, hd]
    congr 1
    simp [slice, Config.fragHdr]
  · rw [hd]; simp; omega
  · simp only [malformed, Instr.wellFormed, operandsLegal, kDataLength, hd]
    simp; omega

end Sys2Proof.Machine
end

