-- ==== Sys2Proof/Laws/Encoding.lean ====
section
/-! SUPPORT. The laws of the little-endian fields and of the opcode map, and what the decoder accepts. -/

namespace Sys2Proof

/-! ### Little-endian fields -/

theorem half_toNat (a b : Byte) : (half a b).toNat = a.toNat + 256 * b.toNat := by
  have := a.isLt; have := b.isLt
  simp only [half, BitVec.toNat_ofNat]; omega

theorem lo_toNat (v : Half) : (lo v).toNat = v.toNat % 256 := by
  simp only [lo, BitVec.toNat_ofNat]; omega

theorem hi_toNat (v : Half) : (hi v).toNat = v.toNat / 256 := by
  have := v.isLt
  simp only [hi, BitVec.toNat_ofNat]; omega

@[simp] theorem lo_half (a b : Byte) : lo (half a b) = a := by
  have := a.isLt
  apply BitVec.eq_of_toNat_eq; rw [lo_toNat, half_toNat]; omega

@[simp] theorem hi_half (a b : Byte) : hi (half a b) = b := by
  have := a.isLt
  apply BitVec.eq_of_toNat_eq; rw [hi_toNat, half_toNat]; omega

@[simp] theorem half_lo_hi (v : Half) : half (lo v) (hi v) = v := by
  apply BitVec.eq_of_toNat_eq; rw [half_toNat, lo_toNat, hi_toNat]; omega

/-- The count bytes of a count in range hold the count. -/
theorem half_count_toNat {n : Nat} (h : n ≤ 65535) :
    (half (lo (BitVec.ofNat 16 n)) (hi (BitVec.ofNat 16 n))).toNat = n := by
  rw [half_lo_hi, BitVec.toNat_ofNat]; omega

/-- The count bytes written out. -/
theorem countBytes_eq (n : Nat) : countBytes n = [BitVec.ofNat 8 n, BitVec.ofNat 8 (n / 256)] := by
  have h : ∀ a b : Byte, a.toNat = b.toNat → a = b := fun _ _ => BitVec.eq_of_toNat_eq
  simp only [countBytes, halfBytes, List.cons.injEq, and_true]
  constructor <;> apply h
  · rw [lo_toNat]; simp only [BitVec.toNat_ofNat]; omega
  · rw [hi_toNat]; simp only [BitVec.toNat_ofNat]; omega

theorem word_toNat (a b c d : Byte) :
    (word a b c d).toNat = a.toNat + 2 ^ 8 * b.toNat + 2 ^ 16 * c.toNat + 2 ^ 24 * d.toNat := by
  have := a.isLt; have := b.isLt; have := c.isLt; have := d.isLt
  simp only [word, BitVec.toNat_ofNat]; omega

/-- The bytes of a word put together again are the word. -/
theorem word_wordBytes (v : Word) :
    word (BitVec.ofNat 8 (v.toNat % 256)) (BitVec.ofNat 8 (v.toNat / 2 ^ 8 % 256))
      (BitVec.ofNat 8 (v.toNat / 2 ^ 16 % 256)) (BitVec.ofNat 8 (v.toNat / 2 ^ 24 % 256)) = v := by
  have := v.isLt
  apply BitVec.eq_of_toNat_eq; rw [word_toNat]; simp only [BitVec.toNat_ofNat]; omega

/-- The bytes of a word put together from four bytes are the four bytes. -/
@[simp] theorem wordBytes_word (a b c d : Byte) : wordBytes (word a b c d) = [a, b, c, d] := by
  have := a.isLt; have := b.isLt; have := c.isLt; have := d.isLt
  simp only [wordBytes, word_toNat, List.cons.injEq, and_true]
  refine ⟨?_, ?_, ?_, ?_⟩ <;> apply BitVec.eq_of_toNat_eq <;> simp only [BitVec.toNat_ofNat] <;> omega

/-! ### Format K flags -/

theorem flags_of_byte : ∀ b : Byte, flagsByte (flagIde b) (flagRtr b) (flagRsv b) = b := by decide

theorem flagIde_flagsByte : ∀ (ide rtr : Bool) (rsv : BitVec 6), flagIde (flagsByte ide rtr rsv) = ide := by decide

theorem flagRtr_flagsByte : ∀ (ide rtr : Bool) (rsv : BitVec 6), flagRtr (flagsByte ide rtr rsv) = rtr := by decide

theorem flagRsv_flagsByte : ∀ (ide rtr : Bool) (rsv : BitVec 6), flagRsv (flagsByte ide rtr rsv) = rsv := by decide

/-! ### The opcode map -/

/-- Two operations never share an opcode byte. -/
theorem opcodeRows_distinct : opcodeRows.Pairwise (fun a b => opcodeByte a ≠ opcodeByte b) := by decide

@[simp] theorem opOfByte_opcodeByte (o : Op) : opOfByte (opcodeByte o) = some o := by cases o <;> decide

/-- The byte of a decoded opcode is that opcode's. -/
theorem opcodeByte_of_opOfByte {b : Byte} {o : Op} (h : opOfByte b = some o) : opcodeByte o = b := by
  have := List.find?_some h
  exact eq_of_beq this

/-- A byte is reserved exactly if it is none of the eight opcodes. -/
theorem opOfByte_eq_none {b : Byte} :
    opOfByte b = none ↔ b ∉ ([0x01, 0x02, 0x10, 0x11, 0x12, 0x20, 0x21, 0x30] : Bytes) := by
  revert b; decide

/-! ### The decoder -/

theorem decode_cons (op : Byte) (args : Bytes) :
    decode (op :: args) = match opOfByte op with
      | none => .error .illegalOpcode
      | some o => decodeOperands o args := rfl

/-- The operand bytes of a decoded instruction are those it encodes to, and the instruction is well-formed. -/
theorem decodeOperands_ok {o : Op} {args : Bytes} {i : Instr} (h : decodeOperands o args = .ok i) :
    opOf i = o ∧ encodeOperands i = args ∧ i.wellFormed = true := by
  unfold decodeOperands at h
  split at h
  · cases h; exact ⟨rfl, rfl, rfl⟩
  · cases h; exact ⟨rfl, rfl, rfl⟩
  · cases h; exact ⟨rfl, rfl, rfl⟩
  · cases h; exact ⟨rfl, rfl, rfl⟩
  all_goals try (split at h)
  all_goals try (cases h)
  case h_5.isTrue dest n0 n1 data hl =>
    have := (half n0 n1).isLt
    refine ⟨rfl, ?_, by simp only [Instr.wellFormed, decide_eq_true_eq]; omega⟩
    simp [encodeOperands, hl, countBytes, halfBytes]
  case h_6.isTrue dest n0 n1 data hl =>
    have := (half n0 n1).isLt
    refine ⟨rfl, ?_, by simp only [Instr.wellFormed, decide_eq_true_eq]; omega⟩
    simp [encodeOperands, hl, countBytes, halfBytes]
  case h_7 c => exact ⟨rfl, rfl, rfl⟩
  case h_8.isTrue hl =>
    refine ⟨rfl, ?_, by simp only [Instr.wellFormed, decide_eq_true_eq]; exact hl⟩
    simp [encodeOperands, flags_of_byte]

end Sys2Proof
end

