-- ==== Sys2Proof/Laws/PerInstr.lean ====
section
/-! SUPPORT. One statement for each operation as syntax: its request begins with its opcode (30_encoding.md R82) and is as
long as the decoder finds it to be from its count fields (R85). -/

namespace Sys2Proof.Laws.Request

open Sys2Proof

/-- The request begins with the operation's opcode and has the length R85 finds from its count fields. -/
def Statement (i : Instr) : Prop :=
  i.wellFormed = true →
    (encode i).head? = some (opcodeByte (opOf i)) ∧
      (encode i).length = requestLength (opOf i) (fun k => (encode i).getD k 0)

theorem ingPush : Statement .ingPush := fun _ => ⟨rfl, rfl⟩

theorem ingPop : Statement .ingPop := fun _ => ⟨rfl, rfl⟩

theorem dfrFeed (b : Byte) : Statement (.dfrFeed b) := fun _ => ⟨rfl, rfl⟩

theorem dfrReset : Statement .dfrReset := fun _ => ⟨rfl, rfl⟩

/-- The count field of a format D request holds the number of its data bytes. -/
theorem counted (o : Op) (dest : Byte) {data : Bytes} (h : data.length ≤ 65535) :
    (opcodeByte o :: dest :: countBytes data.length ++ data).length =
      4 + (half ((opcodeByte o :: dest :: countBytes data.length ++ data).getD 2 0)
        ((opcodeByte o :: dest :: countBytes data.length ++ data).getD 3 0)).toNat := by
  have : (half ((opcodeByte o :: dest :: countBytes data.length ++ data).getD 2 0)
      ((opcodeByte o :: dest :: countBytes data.length ++ data).getD 3 0)).toNat = data.length :=
    half_count_toNat h
  rw [this]
  simp only [List.length_append, List.length_cons, countBytes, halfBytes, List.length_nil]

theorem msgDecode (dest : Byte) (data : Bytes) : Statement (.msgDecode dest data) :=
  fun h => ⟨rfl, counted .msgDecode dest (of_decide_eq_true h)⟩

theorem txSend (dest : Byte) (data : Bytes) : Statement (.txSend dest data) :=
  fun h => ⟨rfl, counted .txSend dest (of_decide_eq_true h)⟩

theorem txCmd (c : Byte) : Statement (.txCmd c) := fun _ => ⟨rfl, rfl⟩

theorem canRx (ide rtr : Bool) (rsv : BitVec 6) (id : Word) (dlc : Byte) (data : Bytes) :
    Statement (.canRx ide rtr rsv id dlc data) := by
  intro h
  refine ⟨rfl, ?_⟩
  have hl : data.length = kDataLength rtr dlc := of_decide_eq_true h
  have : requestLength .canRx (fun k => (encode (.canRx ide rtr rsv id dlc data)).getD k 0) =
      7 + kDataLength (flagRtr (flagsByte ide rtr rsv)) dlc := rfl
  rw [opOf, this, flagRtr_flagsByte, ← hl]
  simp only [encode, encodeOperands, wordBytes, List.length_append, List.length_cons, List.length_nil]; omega

end Sys2Proof.Laws.Request
end

