-- ==== Sys2Proof/Laws/Send.lean ====
section
/-! SUPPORT. Once for the send loop (42_encoder.md R163 to R165), everything it can do. -/

namespace Sys2Proof.Machine

/-- How a send stands after a step of it: it waits for the reply to a write of some bytes, or to a flush, or has ended
with one response. -/
inductive SendEnd (s t : State) : Prop where
  | waitsWrite (rest : Bytes) (seq : Half) (pending : t.pending = some (.write rest seq)) (left : rest ≠ [])
      (silent : t.writeReplies = []) (responses : t.responses = s.responses)
  | waitsFlush (rest : Bytes) (seq : Half) (pending : t.pending = some (.flush rest seq))
      (silent : t.flushReplies = []) (responses : t.responses = s.responses)
  | sent (seq : Half) (pending : t.pending = none)
      (responses : t.responses = s.responses ++ [[0x00, lo seq, hi seq]])
  | failed (e : Byte) (pending : t.pending = none) (responses : t.responses = s.responses ++ [[0x04, e]])

/-- What a step of a send leaves alone, and how it stands after. -/
structure SendEffect (s t : State) : Prop where
  cfg : t.cfg = s.cfg
  dfr : t.dfr = s.dfr
  fb : t.fb = s.fb
  ingS : t.ingS = s.ingS
  ingHead : t.ingHead = s.ingHead
  ingTail : t.ingTail = s.ingTail
  ingLen : t.ingLen = s.ingLen
  txSeq : t.txSeq = s.txSeq
  canTable : t.canTable = s.canTable
  requests : t.requests = s.requests
  readReplies : t.readReplies = s.readReplies
  freeCount : t.freeCount = s.freeCount
  traffic : ∃ es, t.traffic = s.traffic ++ es
  ending : SendEnd s t

/-- Two steps of a send in a row, the first of which gave no response. -/
theorem SendEffect.after {s u t : State} (h : SendEffect u t) (hs : u = { s with
    writeReplies := u.writeReplies, flushReplies := u.flushReplies, traffic := u.traffic })
    (ht : ∃ es, u.traffic = s.traffic ++ es) : SendEffect s t := by
  obtain ⟨es, hes⟩ := ht
  obtain ⟨es', hes'⟩ := h.traffic
  have r : u.responses = s.responses := by rw [hs]
  refine ⟨h.cfg.trans (by rw [hs]), h.dfr.trans (by rw [hs]), h.fb.trans (by rw [hs]), h.ingS.trans (by rw [hs]),
    h.ingHead.trans (by rw [hs]), h.ingTail.trans (by rw [hs]), h.ingLen.trans (by rw [hs]),
    h.txSeq.trans (by rw [hs]), h.canTable.trans (by rw [hs]), h.requests.trans (by rw [hs]),
    h.readReplies.trans (by rw [hs]), h.freeCount.trans (by rw [hs]),
    ⟨es ++ es', by rw [hes', hes, List.append_assoc]⟩, ?_⟩
  cases h.ending with
  | waitsWrite rest seq a b c d => exact .waitsWrite rest seq a b c (d.trans r)
  | waitsFlush rest seq a b c => exact .waitsFlush rest seq a b (c.trans r)
  | sent seq a b => exact .sent seq a (by rw [b, r])
  | failed e a b => exact .failed e a (by rw [b, r])

/-- A claim outside the sink's liberties that follows a good round of `k` bytes is one after the rounds with that round
in front. -/
theorem overclaims_cons {rest : Bytes} {k : Nat} {ws : List WriteReply} {fs : List FlushReply}
    (h : overclaims (rest.drop k) ws fs) : overclaims rest (.ok k :: ws) (.ok :: fs) := by
  obtain ⟨ks, k', ws', fs', h1, h2, rfl, rfl⟩ := h
  rw [List.length_drop] at h1 h2
  exact ⟨k :: ks, k', ws', fs', by simp only [List.sum_cons]; omega, by simp only [List.sum_cons]; omega, rfl,
    by simp [List.replicate_succ]⟩

/-- The flush half of a round, given what the next round does. -/
theorem awaitFlush_cases {rest : Bytes} {seq : Half} {again : State → Result} (s : State) {P : List FlushReply → Prop}
    (hagain : ∀ u, u.writeReplies = s.writeReplies → rest ≠ [] →
      (again u = .refused .overclaimedWrite ∧ P u.flushReplies) ∨ ∃ t, again u = .next t ∧ SendEffect u t) :
    (awaitFlush rest seq again s = .refused .overclaimedWrite ∧ ∃ fs, s.flushReplies = .ok :: fs ∧ P fs) ∨
      ∃ t, awaitFlush rest seq again s = .next t ∧ SendEffect s t := by
  unfold awaitFlush
  split
  · rename_i hf
    exact .inr ⟨_, rfl, ⟨rfl, rfl, rfl, rfl, rfl, rfl, rfl, rfl, rfl, rfl, rfl, rfl, ⟨[], by simp⟩,
      .waitsFlush rest seq rfl hf rfl⟩⟩
  · rename_i e fs hf
    exact .inr ⟨_, rfl, ⟨rfl, rfl, rfl, rfl, rfl, rfl, rfl, rfl, rfl, rfl, rfl, rfl, ⟨_, rfl⟩,
      .failed e rfl rfl⟩⟩
  · rename_i fs hf
    split
    · exact .inr ⟨_, rfl, ⟨rfl, rfl, rfl, rfl, rfl, rfl, rfl, rfl, rfl, rfl, rfl, rfl, ⟨_, rfl⟩,
        .sent seq rfl rfl⟩⟩
    · rename_i hne
      rcases hagain ((s.tookFlush .ok fs).log (.write rest)) rfl (by simpa using hne) with h | ⟨t, ht, he⟩
      · exact .inl ⟨h.1, fs, hf, h.2⟩
      · exact .inr ⟨t, ht, he.after rfl ⟨[.flushReply .ok, .write rest], by simp⟩⟩

/-- The send loop answers a next state, or refuses a claim outside the sink's liberties. -/
theorem awaitWrite_cases (seq : Half) (ws : List WriteReply) {rest : Bytes} (s : State) (hne : rest ≠ [])
    (hws : s.writeReplies = ws) :
    (awaitWrite seq ws rest s = .refused .overclaimedWrite ∧ overclaims rest ws s.flushReplies) ∨
      ∃ t, awaitWrite seq ws rest s = .next t ∧ SendEffect s t := by
  induction ws generalizing rest s with
  | nil =>
    exact .inr ⟨_, rfl, ⟨rfl, rfl, rfl, rfl, rfl, rfl, rfl, rfl, rfl, rfl, rfl, rfl, ⟨[], by simp [State.wait]⟩,
      .waitsWrite rest seq rfl hne hws rfl⟩⟩
  | cons w ws ih =>
    cases w with
    | err e =>
      exact .inr ⟨_, rfl, ⟨rfl, rfl, rfl, rfl, rfl, rfl, rfl, rfl, rfl, rfl, rfl, rfl, ⟨_, rfl⟩, .failed e rfl rfl⟩⟩
    | ok k =>
      unfold awaitWrite
      split
      · rename_i hk
        exact .inl ⟨rfl, [], k, ws, s.flushReplies, List.length_pos_iff.mpr hne, hk, rfl, rfl⟩
      · rcases awaitFlush_cases ((s.tookWrite (.ok k) ws).log .flush) (P := overclaims (rest.drop k) ws)
            (fun u hu hr => ih u hr hu) with ⟨h, fs, hf, hp⟩ | ⟨t, ht, he⟩
        · exact .inl ⟨h, (show s.flushReplies = .ok :: fs from hf) ▸ overclaims_cons hp⟩
        · exact .inr ⟨t, ht, he.after rfl ⟨[.writeReply (.ok k), .flush], by simp⟩⟩

/-- The send loop refuses a claim outside the sink's liberties (R163). -/
theorem awaitWrite_of_overclaims (seq : Half) {ws : List WriteReply} {rest : Bytes} {s : State}
    (h : overclaims rest ws s.flushReplies) : awaitWrite seq ws rest s = .refused .overclaimedWrite := by
  obtain ⟨ks, k, ws', fs, hl, hk, rfl, hf⟩ := h
  induction ks generalizing rest s with
  | nil => exact if_pos hk
  | cons n ks ih =>
    simp only [List.sum_cons] at hl hk
    simp only [List.map_cons, List.cons_append]
    rw [awaitWrite, if_neg (by omega)]
    unfold awaitFlush
    simp only [State.log, State.tookWrite, hf, List.length_cons, List.replicate_succ, List.cons_append]
    rw [if_neg (by simp; omega)]
    exact ih (by simp; omega) (by simp; omega) rfl

/-- A frame is never empty. -/
theorem frameBytes_ne_nil (hwid seq : Half) (dest : Byte) (data : Bytes) : frameBytes hwid seq dest data ≠ [] := by
  simp [frameBytes, Config.magic]

/-- A frame written out (30_encoding.md R70). -/
theorem frameBytes_eq_wireFrame (hwid seq : Half) (dest : Byte) (data : Bytes) :
    frameBytes hwid seq dest data = wireFrame hwid seq dest data := by
  have : BitVec.ofNat 8 ((data.length + Config.hdrLen) % 256) = BitVec.ofNat 8 (data.length + 5) := by
    apply BitVec.eq_of_toNat_eq; simp [Config.hdrLen]
  simp only [frameBytes, this]; rfl

/-- A send: MESSAGE_TOO_LONG with nothing changed, or the counter advanced, the frame offered, and the loop run. -/
theorem transmit_cases (dest : Byte) (data : Bytes) (s : State) :
    (data.length > s.cfg.txMaxPayload ∧ transmit dest data s = .next (responded s [0x05])) ∨
    (data.length ≤ s.cfg.txMaxPayload ∧
      transmit dest data s = awaitWrite s.txSeq s.writeReplies (wireFrame s.cfg.hwid s.txSeq dest data)
        (s.bumped.log (.write (wireFrame s.cfg.hwid s.txSeq dest data)))) := by
  unfold transmit
  by_cases h : data.length > s.cfg.txMaxPayload
  · exact .inl ⟨h, by rw [if_pos h]; rfl⟩
  · exact .inr ⟨by omega, by rw [if_neg h, frameBytes_eq_wireFrame]⟩

/-- A send: MESSAGE_TOO_LONG with nothing changed, a refusal of a claim outside the sink's liberties, or a send from the
state with the counter advanced and the frame offered. -/
theorem transmit_effect (dest : Byte) (data : Bytes) (s : State) :
    (data.length > s.cfg.txMaxPayload ∧ transmit dest data s = .next (responded s [0x05])) ∨
    (data.length ≤ s.cfg.txMaxPayload ∧ transmit dest data s = .refused .overclaimedWrite ∧
      overclaims (wireFrame s.cfg.hwid s.txSeq dest data) s.writeReplies s.flushReplies) ∨
    (data.length ≤ s.cfg.txMaxPayload ∧ ∃ t, transmit dest data s = .next t ∧
      SendEffect (s.bumped.log (.write (wireFrame s.cfg.hwid s.txSeq dest data))) t) := by
  rcases transmit_cases dest data s with h | ⟨hl, h⟩
  · exact .inl h
  · rw [h]
    rcases awaitWrite_cases s.txSeq s.writeReplies
      (s.bumped.log (.write (wireFrame s.cfg.hwid s.txSeq dest data))) (rest := wireFrame s.cfg.hwid s.txSeq dest data)
      (by simp [wireFrame]) rfl with h | h
    · exact .inr (.inl ⟨hl, h⟩)
    · exact .inr (.inr ⟨hl, h⟩)

/-- A send of a payload that has a count is the common path (R160). -/
theorem execTxSend_eq {dest : Byte} {data : Bytes} (h : data.length ≤ 65535) (s : State) :
    execTxSend dest data s = transmit dest data s := by
  unfold execTxSend
  rw [guardOperands_eq, if_neg (by simp [malformed, Instr.wellFormed, operandsLegal, h])]

/-- A command is the common path with the one byte, or BAD_OPERAND (R166, 30_encoding.md R87). -/
theorem execTxCmd_eq (c : Byte) (s : State) :
    execTxCmd c s = if c = 0x12 ∨ c = 0x17 then transmit 0x01 [c] s else .next (responded s [0xFD]) := by
  unfold execTxCmd
  rw [guardOperands_eq]
  by_cases h : c = 0x12 ∨ c = 0x17
  · rw [if_pos h, if_neg (by rcases h with rfl | rfl <;> decide)]; rfl
  · rw [if_neg h, if_pos (by revert h; revert c; decide)]

/-- A send that passes its checks is the common path (R160, R166). -/
theorem exec_of_legalSend {s : State} {i : Instr} {dest : Byte} {data : Bytes} (h : legalSend s i dest data) :
    data.length ≤ s.cfg.txMaxPayload ∧ exec i s = transmit dest data s := by
  obtain ⟨rfl, hl, hc⟩ | ⟨c, rfl, hc, rfl, rfl, hl⟩ := h
  · exact ⟨hl, execTxSend_eq hc s⟩
  · exact ⟨hl, (execTxCmd_eq c s).trans (if_pos hc)⟩

/-- Good rounds that leave bytes to write: the loop goes on with the unsent suffix (R163). -/
theorem awaitWrite_goodRounds (seq : Half) (ks : List Nat) (ws : List WriteReply) (fs : List FlushReply) {rest : Bytes}
    {s : State} (hl : ks.sum < rest.length) (hw : s.writeReplies = ks.map .ok ++ ws)
    (hf : s.flushReplies = List.replicate ks.length .ok ++ fs) :
    awaitWrite seq (ks.map .ok ++ ws) rest { s with traffic := s.traffic ++ [.write rest] } =
      awaitWrite seq ws (rest.drop ks.sum)
        { s with
          writeReplies := ws
          flushReplies := fs
          traffic := s.traffic ++ goodRounds rest ks ++ [.write (rest.drop ks.sum)] } := by
  induction ks generalizing rest s with
  | nil => simp at hw hf; cases s; simp_all [goodRounds]
  | cons k ks ih =>
    simp only [List.sum_cons] at hl
    simp only [List.map_cons, List.cons_append]
    rw [awaitWrite, if_neg (by omega)]
    unfold awaitFlush
    simp only [State.log, State.tookWrite, hf, List.length_cons, List.replicate_succ, List.cons_append]
    rw [if_neg (by simp; omega)]
    have := ih (rest := rest.drop k)
      (s := { s with
        writeReplies := ks.map .ok ++ ws
        flushReplies := List.replicate ks.length .ok ++ fs
        traffic := s.traffic ++ [.write rest, .writeReply (.ok k), .flush, .flushReply .ok] })
      (by simp; omega) rfl rfl
    simp only [State.tookFlush]
    simp only [List.append_assoc, List.cons_append, List.nil_append] at this ⊢
    rw [this]
    simp [goodRounds, List.drop_drop]

/-- A send whose first rounds go well (R161 to R163). -/
theorem transmit_goodRounds {dest : Byte} {data : Bytes} {s : State} {ks : List Nat} {ws : List WriteReply}
    {fs : List FlushReply} (hl : data.length ≤ s.cfg.txMaxPayload) (hk : ks.sum < data.length + 8)
    (hw : s.writeReplies = ks.map .ok ++ ws) (hf : s.flushReplies = List.replicate ks.length .ok ++ fs) :
    transmit dest data s =
      awaitWrite s.txSeq ws ((wireFrame s.cfg.hwid s.txSeq dest data).drop ks.sum)
        { s with
          txSeq := s.txSeq + 1
          writeReplies := ws
          flushReplies := fs
          traffic := s.traffic ++ goodRounds (wireFrame s.cfg.hwid s.txSeq dest data) ks ++
            [.write ((wireFrame s.cfg.hwid s.txSeq dest data).drop ks.sum)] } := by
  rcases transmit_cases dest data s with ⟨h, _⟩ | ⟨_, h⟩
  · omega
  · rw [h, hw]
    exact awaitWrite_goodRounds s.txSeq ks ws fs (rest := wireFrame s.cfg.hwid s.txSeq dest data)
      (s := { s with txSeq := s.txSeq + 1 }) (by simp [wireFrame]; omega) hw hf

end Sys2Proof.Machine
end

