-- ==== Sys2Proof/Tests/Slice0.lean ====
section
/-! SUPPORT. The model's own tests: the well-formedness smoke test, one request of every operation decoded, at most two
steps of every operation with the results of spec/95_test_vectors.md, and for every statement with hypotheses a witness
that meets them (`witness_<statement>`). -/

namespace Sys2Proof.Tests

open Sys2Proof Sys2Proof.Machine

/-! ### States -/

/-- The parameters of 95_test_vectors.md. -/
def testParams : Params where
  chunk := 4
  numSources := 2
  maxPacket := 20
  sourceMap := { lowBits := 8, overrides := [] }
  hwid := 0x1234
  seqInit := 0
  txMaxPayload := 250

/-- The block of 95_test_vectors.md after reset. -/
def fresh : State := State.resetWith testParams

/-- With ingest cursors `(head, tail, len)`, and byte `i` of `ING_S` holding `0xA0 + i`. -/
def ingest (head tail len : Nat) : State :=
  { fresh with
    ingS := memWriteAll [] 0 [0xA0, 0xA1, 0xA2, 0xA3, 0xA4, 0xA5, 0xA6, 0xA7]
    ingHead := head
    ingTail := tail
    ingLen := len }

/-- In `BODY(6, 3)`, with the three bytes of DF-12. -/
def inBody : State := { fresh with dfr := .body 6 3, fb := memWriteAll [] 0 [0x42, 0x00, 0x00] }

/-- In `BODY(6, 5)`, one byte before the end of the frame. -/
def nearlyDone : State := { fresh with dfr := .body 6 5, fb := memWriteAll [] 0 [0x42, 0x00, 0x00, 0x22, 0x69] }

/-- With the replies the sink will give. -/
def withSink (s : State) (ws : List WriteReply) (fs : List FlushReply) : State :=
  { s with writeReplies := ws, flushReplies := fs }

/-- Identifier A of 95_test_vectors.md, of source 0x123. -/
def idA : Word := 0x00012300

/-- Identifier D of 95_test_vectors.md, of source 0x789. -/
def idD : Word := 0x00078900

/-- With the CAN table given. -/
def withTable (t : CanTable) : State := { fresh with canTable := t }

/-- With 10 bytes of source A, the table after step 2 of S6. -/
def tenOfA : State := withTable [(0x123, [1, 2, 3, 4, 5, 6, 7, 8, 9, 10])]

/-- The last response of a step. -/
def answerOf (r : Result) : Option Bytes := (nextState r).bind fun t => t.responses.getLast?

/-- The cursors after a step. -/
def cursorsOf (r : Result) : Option (Nat × Nat × Nat) :=
  (nextState r).map fun t => (t.ingHead, t.ingTail, t.ingLen)

/-- A payload of `n` zeros. -/
def zeros (n : Nat) : Bytes := List.replicate n 0

theorem zeros_length (n : Nat) : (zeros n).length = n := List.length_replicate

/-! ### Well-formedness -/

/-- A payload of 65536 bytes has no count (R83). -/
theorem test_overlong_decode_ill_formed : (Instr.msgDecode 0x01 (zeros 65536)).wellFormed = false := by
  simp only [Instr.wellFormed, zeros_length]; decide

/-- The same for a send. -/
theorem test_overlong_send_ill_formed : (Instr.txSend 0x01 (zeros 65536)).wellFormed = false := by
  simp only [Instr.wellFormed, zeros_length]; decide

/-- A data frame of length code 4 with three bytes (R81). -/
theorem test_short_can_ill_formed : (Instr.canRx true false 0 idA 4 [0, 0, 0]).wellFormed = false := by decide

/-- A remote frame with a data byte (R81, PE-8). -/
theorem test_remote_data_ill_formed : (Instr.canRx true true 0 idA 2 [0xAA, 0xBB]).wellFormed = false := by decide

/-- `tx.cmd 0x13` and a length code of 9 are requests, but malformed ones (R87, points 2 and 3; TX-10, CN-16). -/
theorem test_malformed_operands :
    malformed (.txCmd 0x13) = true ∧ malformed (.canRx true false 0 idA 9 (List.replicate 9 0)) = true ∧
      malformed (.canRx true false 1 idA 4 [0, 0, 0, 1]) = true ∧
      malformed (.canRx true false 0 0x20000000 4 [0, 0, 0, 1]) = true ∧
      malformed (.canRx false false 0 0x800 4 [0, 0, 0, 1]) = true := by decide

/-! ### Requests (R81, R82, R85) -/

theorem test_decode_ing_push : decode [0x01] = .ok .ingPush := by decide
theorem test_decode_ing_pop : decode [0x02] = .ok .ingPop := by decide
theorem test_decode_dfr_feed : decode [0x10, 0x69] = .ok (.dfrFeed 0x69) := by decide
theorem test_decode_dfr_reset : decode [0x11] = .ok .dfrReset := by decide
theorem test_decode_msg_decode : decode [0x12, 0x11, 0x02, 0x00, 0xAA, 0xBB] = .ok (.msgDecode 0x11 [0xAA, 0xBB]) := by
  decide
theorem test_decode_tx_send : decode [0x20, 0x11, 0x01, 0x00, 0xAA] = .ok (.txSend 0x11 [0xAA]) := by decide
theorem test_decode_tx_cmd : decode [0x21, 0x17] = .ok (.txCmd 0x17) := by decide
/-- CN-14. -/
theorem test_decode_can_rx :
    decode [0x30, 0x01, 0x00, 0x23, 0x01, 0x00, 0x05, 0x00, 0x5A, 0x00, 0x61, 0x62] =
      .ok (.canRx true false 0 idA 5 [0x00, 0x5A, 0x00, 0x61, 0x62]) := by decide
/-- A standard frame, a remote frame and a frame with reserved flags. -/
theorem test_decode_can_flags :
    decode [0x30, 0x00, 0x23, 0x01, 0x00, 0x00, 0x00] = .ok (.canRx false false 0 0x123 0 []) ∧
      decode [0x30, 0x03, 0x00, 0x23, 0x01, 0x00, 0x08] = .ok (.canRx true true 0 idA 8 []) ∧
      decode [0x30, 0x05, 0x00, 0x23, 0x01, 0x00, 0x00] = .ok (.canRx true false 1 idA 0 []) := by decide

/-- PE-1 to PE-8. -/
theorem test_port_errors :
    decode [0x00] = .error .illegalOpcode ∧ decode [0x03] = .error .illegalOpcode ∧
      decode [0xFF, 0x01, 0x02] = .error .illegalOpcode ∧ decode [0x01, 0x00] = .error .badLength ∧
      decode [0x10] = .error .badLength ∧ decode [0x20, 0x11, 0x02, 0x00, 0xAA] = .error .badLength ∧
      decode [0x12, 0x01, 0x00, 0x00, 0x10] = .error .badLength ∧
      decode [0x30, 0x03, 0x00, 0x23, 0x01, 0x00, 0x02, 0xAA, 0xBB] = .error .badLength := by decide

/-- A table word runs as the first operation after reset (log 11). -/
theorem test_fetch_word :
    decodeTableWord 8 0x11 = some .dfrReset ∧
      answerOf (step (fresh.withFetchWord 8 0x11)) = some [0x00] ∧
      answerOf (step (fresh.withFetchWord 8 0x10)) = some [0x00, 0x00] := by decide

/-! ### The ingest buffer (95_test_vectors.md 2.1) -/

/-- IN-7: the push wraps. -/
theorem test_push_wraps :
    cursorsOf (exec .ingPush (offerRead (.ok [0xC1, 0xC2]) (ingest 8 5 8))) = some (2, 5, 8) ∧
      answerOf (exec .ingPush (offerRead (.ok [0xC1, 0xC2]) (ingest 8 5 8))) = some [0x00, 0x02, 0x00] := by decide

/-- IN-8 and IN-13: wrapped without room. -/
theorem test_push_overflows :
    answerOf (exec .ingPush (ingest 2 5 8)) = some [0x02] ∧ answerOf (exec .ingPush (ingest 5 6 8)) = some [0x02] := by
  decide

/-- IN-14: rewind, then the byte at index 0. -/
theorem test_pop_rewinds :
    cursorsOf (exec .ingPop (ingest 2 8 8)) = some (2, 1, 2) ∧
      answerOf (exec .ingPop (ingest 2 8 8)) = some [0x00, 0xA0] := by decide

/-- IN-15 and IN-17: EMPTY without and with a rewind. -/
theorem test_pop_empty :
    cursorsOf (exec .ingPop (ingest 3 3 3)) = some (3, 3, 3) ∧ cursorsOf (exec .ingPop (ingest 0 6 6)) = some (0, 0, 0) ∧
      answerOf (exec .ingPop (ingest 0 6 6)) = some [0x01] := by decide

/-! ### The deframer (2.2) -/

/-- DF-2: the mismatching byte is not compared with the first magic byte. -/
theorem test_feed_misses_overlap :
    (nextState (exec (.dfrFeed 0x22) { fresh with dfr := .sync 1 })).map State.dfr = some (.sync 0) := by decide

/-- The last step of DF-12. -/
theorem test_feed_emits_frame :
    answerOf (exec (.dfrFeed 0x06) nearlyDone) = some [0x00, 0x01, 0x42, 0x00, 0x00, 0x22, 0x69, 0x01, 0x06] := by
  decide

/-- DF-11. -/
theorem test_reset_leaves_body :
    (nextState (exec .dfrReset inBody)).map State.dfr = some (.sync 0) ∧ answerOf (exec .dfrReset inBody) = some [0x00] := by
  decide

/-! ### Message decode (2.3, S3) -/

/-- The 62 bytes of S3. -/
def sampleS3 : Bytes :=
  [0x10, 0x00, 0x00, 0x00] ++ List.replicate 31 0x00 ++ [0xD8, 0xC8, 0x00, 0xE8, 0x03, 0x00, 0x00] ++
    List.replicate 4 0x00 ++ [0xDE, 0x03, 0x00, 0x00, 0x05, 0x00, 0x00, 0x00, 0x02, 0x00, 0x00, 0x00] ++
    [0x03, 0x00, 0x00, 0x00]

theorem test_decode_telemetry :
    answerOf (exec (.msgDecode 0x01 (0x18 :: sampleS3)) fresh) =
      some [0x00, 0x02, 0x10, 0x00, 0x00, 0x00, 0xD8, 0xC8, 0xE8, 0x03, 0x00, 0x00, 0xDE, 0x03, 0x00, 0x00, 0x05, 0x00,
        0x00, 0x00, 0x05, 0x00, 0x00, 0x00] := by decide

/-- MD-4, MD-5, MD-7 and MD-13. -/
theorem test_decode_destinations :
    answerOf (exec (.msgDecode 0x01 []) fresh) = some [0x06, 0x03] ∧
      answerOf (exec (.msgDecode 0x11 [0xAA, 0xBB]) fresh) = some [0x00, 0x04, 0x02, 0x00, 0xAA, 0xBB] ∧
      answerOf (exec (.msgDecode 0x05 [0x10]) fresh) = some [0x00, 0x03, 0x00] ∧
      answerOf (exec (.msgDecode 0x01 [0x00]) fresh) = some [0x00, 0x03, 0x00] := by decide

/-! ### The encoder (2.4) -/

/-- TX-5: the counter wraps. -/
theorem test_send_wraps_counter :
    let r := exec (.txSend 0x01 [0x10]) (withSink { fresh with txSeq := 0xFFFF } [.ok 9] [.ok])
    answerOf r = some [0x00, 0xFF, 0xFF] ∧ (nextState r).map State.txSeq = some 0x0000 ∧
      (nextState r).map State.traffic =
        some [.write [0x22, 0x69, 0x06, 0x34, 0x12, 0xFF, 0xFF, 0x01, 0x10], .writeReply (.ok 9), .flush,
          .flushReply .ok] := by decide

/-- TX-6: short writes, one of no bytes. -/
theorem test_send_short_writes :
    let r := exec (.txSend 0x11 [0xAA]) (withSink { fresh with txSeq := 3 } [.ok 3, .ok 0, .ok 6] [.ok, .ok, .ok])
    answerOf r = some [0x00, 0x03, 0x00] ∧
      (nextState r).map State.traffic =
        some [.write [0x22, 0x69, 0x06, 0x34, 0x12, 0x03, 0x00, 0x11, 0xAA], .writeReply (.ok 3), .flush,
          .flushReply .ok, .write [0x34, 0x12, 0x03, 0x00, 0x11, 0xAA], .writeReply (.ok 0), .flush, .flushReply .ok,
          .write [0x34, 0x12, 0x03, 0x00, 0x11, 0xAA], .writeReply (.ok 6), .flush, .flushReply .ok] := by decide

/-- TX-9. -/
theorem test_command_sends :
    let r := exec (.txCmd 0x12) (withSink { fresh with txSeq := 2 } [.ok 9] [.ok])
    answerOf r = some [0x00, 0x02, 0x00] ∧
      (nextState r).map (fun t => t.traffic.head?) =
        some (some (.write [0x22, 0x69, 0x06, 0x34, 0x12, 0x02, 0x00, 0x01, 0x12])) := by decide

/-- TX-10. -/
theorem test_command_illegal : answerOf (exec (.txCmd 0x13) fresh) = some [0xFD] := by decide

/-! ### The CAN reassembler (2.5) -/

/-- CN-14: the reserved byte is ignored and a one-fragment message completes. -/
theorem test_can_completes :
    answerOf (exec (.canRx true false 0 idA 5 [0x00, 0x5A, 0x00, 0x61, 0x62]) fresh) =
      some [0x00, 0x01, 0x02, 0x00, 0x61, 0x62] := by decide

/-- CN-8: a gap empties the entry, which stays. -/
theorem test_can_gap :
    let r := exec (fragmentFrame idA 2 0 2 [0x0B, 0x0C]) (withTable [(0x123, [1, 2, 3, 4, 5])])
    answerOf r = some [0x0A] ∧ (nextState r).map State.canTable = some [(0x123, [])] := by decide

/-! ### The assembler (R89, R90) -/

/-- A line with a comment, decimal and hexadecimal numbers, and the line of a comment alone. -/
theorem test_assemble_line :
    assembleLine ['t', 'x', '.', 'c', 'm', 'd', ' ', '2', '3', ' ', '#', 'x'] = some [[0x21, 0x17]] ∧
      assembleLine ['d', 'f', 'r', '.', 'f', 'e', 'e', 'd', ' ', '0', 'x', '5', 'A'] = some [[0x10, 0x5A]] ∧
      assembleLine ['#', 'x'] = some [] ∧
      assembleLine ['t', 'x', '.', 'c', 'm', 'd', ' ', 'r', 'e', 'b', 'o', 'o', 't'] = some [[0x21, 0x12]] := by decide

/-! ### Witnesses: the operation port -/

theorem witness_StepRunsDecodedRequest :
    let s : State := { fresh with requests := [[0x10, 0x22]] }
    s.pending = none ∧ s.requests = [0x10, 0x22] :: [] ∧ decode [0x10, 0x22] = .ok (.dfrFeed 0x22) := by decide

theorem witness_StepWaitsWithoutInput :
    (fresh.pending = none ∧ fresh.requests = []) ∧
      ((fresh.wait .read).pending = some .read ∧ (fresh.wait .read).readReplies = []) ∧
      ((fresh.wait (.write [0xAA] 0)).pending = some (.write [0xAA] 0) ∧
        (fresh.wait (.write [0xAA] 0)).writeReplies = []) ∧
      ((fresh.wait (.flush [] 0)).pending = some (.flush [] 0) ∧ (fresh.wait (.flush [] 0)).flushReplies = []) := by
  decide

/-- The bounds of the reserved ranges. -/
theorem witness_ReservedOpcodeAnswersIllegal :
    ∀ op ∈ ([0x00, 0x03, 0x0F, 0x13, 0x1F, 0x22, 0x2F, 0x31, 0xFF] : Bytes),
      let s : State := { fresh with requests := [[op]] }
      s.pending = none ∧ s.requests = (op :: []) :: [] ∧ op ∉ definedOpcodes := by decide

/-- Requests malformed by each condition of R87, at the bounds. -/
theorem witness_MalformedRequestAnswersBadOperand :
    ∀ req ∈ ([[0x01, 0x00], [0x10], [0x21, 0x13], [0x20, 0x11, 0x02, 0x00, 0xAA],
        [0x30, 0x05, 0x00, 0x23, 0x01, 0x00, 0x04, 0x00, 0x00, 0x00, 0x01],
        [0x30, 0x01, 0x00, 0x23, 0x01, 0x00, 0x09, 0, 0, 0, 0, 0, 0, 0, 0, 0],
        [0x30, 0x01, 0x00, 0x00, 0x00, 0x20, 0x04, 0x00, 0x00, 0x00, 0x01],
        [0x30, 0x00, 0x00, 0x08, 0x00, 0x00, 0x04, 0x00, 0x00, 0x00, 0x01]] : List Bytes),
      let s : State := { fresh with requests := [req] }
      s.pending = none ∧ s.requests = req :: [] ∧ byteAt req 0 ∈ definedOpcodes ∧ malformedRequest req := by decide

/-- Requests that are not malformed, at the bounds. -/
theorem witness_MalformedRequestAnswersBadOperand_legal :
    ∀ req ∈ ([[0x01], [0x21, 0x12], [0x20, 0x11, 0x01, 0x00, 0xAA],
        [0x30, 0x01, 0xFF, 0xFF, 0xFF, 0x1F, 0x08, 0, 0, 0, 0, 0, 0, 0, 0],
        [0x30, 0x02, 0xFF, 0x07, 0x00, 0x00, 0x08]] : List Bytes),
      byteAt req 0 ∈ definedOpcodes ∧ ¬ malformedRequest req := by decide

theorem witness_DecodeOfEncodeIsInstruction :
    (Instr.canRx false true 0x3F 0xFFFFFFFF 0xFF []).wellFormed = true ∧
      (Instr.txSend 0x00 (zeros 65535)).wellFormed = true := by
  refine ⟨by decide, ?_⟩
  simp only [Instr.wellFormed, zeros_length]; decide

theorem witness_EncodeOfDecodeIsRequest : decode [0x20, 0x42, 0x01, 0x00, 0xAA] = .ok (.txSend 0x42 [0xAA]) := by decide

/-! ### Witnesses: the ingest buffer -/

/-- IN-6, IN-8, IN-13 and IN-20. -/
theorem witness_PushNotAdmittedOverflows :
    ¬ admitted (ingest 8 4 8) ∧ ¬ admitted (ingest 2 5 8) ∧ ¬ admitted (ingest 5 6 8) ∧ ¬ admitted (ingest 5 4 5) := by
  decide

/-- The midpoint itself, the wrap and the wrapped append (IN-4, IN-7, IN-10), each with a whole chunk. -/
theorem witness_PushStoresTheChunk :
    ∀ c ∈ [(4, 0, 4), (8, 5, 8), (1, 6, 8)],
      let s := offerRead (.ok [0xB1, 0xB2, 0xB3, 0xB4]) (ingest c.1 c.2.1 c.2.2)
      admitted s ∧ s.readReplies = .ok [0xB1, 0xB2, 0xB3, 0xB4] :: [] ∧
        ([0xB1, 0xB2, 0xB3, 0xB4] : Bytes).length ≤ s.cfg.chunk := by decide

/-- IN-18 and IN-19. -/
theorem witness_FailedReadKeepsCursors :
    let s := offerRead (.err 0x05) fresh
    let s' := offerRead .cancelled (ingest 3 1 3)
    (admitted s ∧ s.readReplies = .err 0x05 :: []) ∧ (admitted s' ∧ s'.readReplies = .cancelled :: []) ∧
      (∃ e : Byte, ReadReply.err 0x05 = .err e ∧ ([0x03, 0x05] : Bytes) = [0x03, e]) :=
  ⟨by decide, by decide, 0x05, rfl, rfl⟩

/-- IN-21 and TX-11, the latter also after one good round. -/
theorem witness_ReplyOutsideLibertiesIsRefused :
    let s := offerRead (.ok [1, 2, 3, 4, 5]) fresh
    let u := withSink fresh [.ok 3, .ok 7] [.ok]
    (admitted s ∧ s.readReplies = .ok [1, 2, 3, 4, 5] :: [] ∧ ([1, 2, 3, 4, 5] : Bytes).length > s.cfg.chunk) ∧
      (([0xAA] : Bytes).length ≤ u.cfg.txMaxPayload ∧ ([0xAA] : Bytes).length ≤ 65535 ∧
        [3].sum < ([0xAA] : Bytes).length + 8 ∧ 7 > ([0xAA] : Bytes).length + 8 - [3].sum ∧
        u.writeReplies = [3].map .ok ++ .ok 7 :: [] ∧ u.flushReplies = List.replicate [3].length .ok ++ []) := by
  decide

theorem witness_WaitingPushGoesOn : admitted fresh ∧ fresh.readReplies = [] := by decide

/-- The three outcomes: EMPTY after the rewind (IN-17), the byte after the rewind (IN-14), the byte without it (IN-5). -/
theorem witness_PopRewindsThenReturns :
    (ingest 0 6 6).rewound.ingHead = (ingest 0 6 6).rewound.ingTail ∧
      ((ingest 2 8 8).rewound.ingHead ≠ (ingest 2 8 8).rewound.ingTail ∧
        (ingest 2 8 8).rewound.ingTail < 2 * (ingest 2 8 8).cfg.chunk ∧
        memRead (ingest 2 8 8).rewound.ingS (ingest 2 8 8).rewound.ingTail = some 0xA0) ∧
      ((ingest 8 0 8).rewound = ingest 8 0 8 ∧ (ingest 8 0 8).ingTail < 2 * (ingest 8 0 8).cfg.chunk ∧
        memRead (ingest 8 0 8).ingS (ingest 8 0 8).ingTail = some 0xA0) := by decide

/-- States of the invariant: linear, full, wrapped, and drained. -/
theorem inv_ingest {head tail len : Nat} (h : (head, tail, len) ∈ [(0, 0, 0), (4, 0, 4), (8, 0, 8), (2, 5, 8), (3, 3, 3)]) :
    BlockInv (ingest head tail len) := by
  simp only [List.mem_cons, Prod.mk.injEq, List.not_mem_nil, or_false] at h
  rcases h with ⟨rfl, rfl, rfl⟩ | ⟨rfl, rfl, rfl⟩ | ⟨rfl, rfl, rfl⟩ | ⟨rfl, rfl, rfl⟩ | ⟨rfl, rfl, rfl⟩ <;>
    exact ⟨by decide, by decide, by decide, by decide, List.all_eq_true.mp (by decide), by decide, trivial, by decide, trivial⟩

/-- A reply to come is outside the invariant. -/
theorem inv_offerRead {s : State} (h : BlockInv s) (r : ReadReply) : BlockInv (offerRead r s) :=
  ⟨h.params, h.shape, h.cursors, h.ingestStore, h.unreadWritten, h.frameStore, h.deframer, h.table, h.waiting⟩

/-- The invariant where a read fails with bytes unread. -/
theorem witness_FailedReadKeepsCursors_unread :
    let s := offerRead .cancelled (ingest 4 0 4)
    BlockInv s ∧ admitted s ∧ s.readReplies = .cancelled :: [] :=
  ⟨inv_offerRead (inv_ingest (by decide)) _, by decide, rfl⟩

/-- The invariant with an admitted push, with nothing unread, and with a byte unread in the wrapped shape. -/
theorem witness_IngestIsFifo :
    (let s := offerRead (.ok [0xB1]) (ingest 4 0 4)
     BlockInv s ∧ admitted s ∧ s.readReplies = .ok [0xB1] :: [] ∧ ([0xB1] : Bytes).length ≤ s.cfg.chunk) ∧
      (BlockInv (ingest 3 3 3) ∧ unread (ingest 3 3 3) = []) ∧
      (BlockInv (ingest 2 5 8) ∧
        unread (ingest 2 5 8) = some 0xA5 :: [some 0xA6, some 0xA7, some 0xA0, some 0xA1]) :=
  ⟨⟨inv_offerRead (inv_ingest (by decide)) _, by decide, rfl, by decide⟩, ⟨inv_ingest (by decide), by decide⟩,
    inv_ingest (by decide), by decide⟩

/-- IN-17: the rewind and EMPTY in one operation; and EMPTY of drained linear contents past the
midpoint. -/
theorem witness_PushAfterEmptyIsAdmitted :
    (wrappedShape (ingest 0 6 6) ∧ answerOf (exec .ingPop (ingest 0 6 6)) = some [0x01]) ∧
      (linearShape (ingest 8 8 8) ∧ answerOf (exec .ingPop (ingest 8 8 8)) = some [0x01]) := by decide

theorem witness_OneShapeAfterEveryOperation :
    BlockInv (ingest 2 5 8) ∧ (nextState (exec .ingPop (ingest 2 5 8))).isSome = true :=
  ⟨inv_ingest (by decide), by decide⟩

theorem witness_IngestFrames :
    (nextState (exec .ingPush (offerRead (.ok [0xB1]) (ingest 4 0 4)))).isSome = true ∧
      (nextState (exec .ingPush (ingest 8 4 8))).isSome = true ∧ (nextState (exec .ingPop (ingest 2 5 8))).isSome = true := by
  decide

/-! ### Witnesses: the deframer -/

theorem witness_FeedInSyncFollowsTable :
    fresh.dfr = .sync 0 ∧ ({ fresh with dfr := .sync 1 } : State).dfr = .sync 1 := by decide

/-- LEN at both bounds of the short arm and of the body arm; the oversize arm has no byte (R132). -/
theorem witness_FeedInLengthFollowsLen :
    ({ fresh with dfr := .length } : State).dfr = .length ∧ (0x05 : Byte).toNat ≤ 5 ∧
      (¬ (0x06 : Byte).toNat ≤ 5 ∧ ¬ (0x06 : Byte).toNat - 5 > 251) ∧
      (¬ (0xFF : Byte).toNat ≤ 5 ∧ ¬ (0xFF : Byte).toNat - 5 > 251) := by decide

/-- A byte in the middle, and the last. -/
theorem witness_FeedInBodyStoresAndEmits :
    (inBody.dfr = .body 6 3 ∧ memReadAll inBody.fb 0 3 = some [0x42, 0x00, 0x00] ∧ 3 + 1 ≠ 6) ∧
      (nearlyDone.dfr = .body 6 5 ∧ memReadAll nearlyDone.fb 0 5 = some [0x42, 0x00, 0x00, 0x22, 0x69] ∧ 5 + 1 = 6) := by
  decide

theorem witness_ShortLengthResyncs :
    fresh.dfr = .sync 0 ∧ (0x00 : Byte).toNat ≤ 5 ∧ (0x05 : Byte).toNat ≤ 5 := by decide

/-- The three prefixes of S4. -/
theorem witness_GarbageIsSkipped :
    fresh.dfr = .sync 0 ∧
      ∀ g ∈ ([[0x00, 0x41, 0x69, 0xFF], [0x22, 0x22], [0x22]] : List Bytes), ∀ i : Nat,
        g[i]? = some (0x22 : Byte) → g[i + 1]? ≠ some (0x69 : Byte) := by
  refine ⟨rfl, fun g hg i => ?_⟩
  simp only [List.mem_cons, List.not_mem_nil, or_false] at hg
  rcases hg with rfl | rfl | rfl <;> rcases i with _ | _ | _ | _ | i <;> simp

/-- Payloads of 1 and of 250 bytes. -/
theorem witness_FrameRoundTrip :
    fresh.dfr = .sync 0 ∧ (1 ≤ ([0x10] : Bytes).length ∧ ([0x10] : Bytes).length ≤ 250) ∧
      (1 ≤ (zeros 250).length ∧ (zeros 250).length ≤ 250) := by
  refine ⟨rfl, by decide, ?_⟩
  simp only [zeros_length]; decide

theorem witness_DeframerFrames :
    (nextState (exec (.dfrFeed 0x22) fresh)).isSome = true ∧ (nextState (exec (.dfrFeed 0x22) inBody)).isSome = true ∧
      (nextState (exec (.dfrFeed 0x06) nearlyDone)).isSome = true ∧ (nextState (exec .dfrReset inBody)).isSome = true := by
  decide

/-! ### Witnesses: message decode -/

theorem witness_MessageDecodeIsPure : (zeros 65535).length ≤ 65535 := by rw [zeros_length]

/-- A sub-payload of 61 bytes and one of 62. -/
theorem witness_LocalDecodeFollowsCodes :
    (zeros 61).length < 62 ∧ 62 ≤ sampleS3.length ∧ sampleS3.length < 65535 ∧
      (zeros 65534).length < 65535 ∧
      ((0x12 : Byte) ≠ 0x10 ∧ (0x12 : Byte) ≠ 0xFF ∧ (0x12 : Byte) ≠ 0x18) := by
  refine ⟨by decide, by decide, by decide, ?_, by decide⟩
  rw [zeros_length]; decide

theorem witness_TelemetryFieldsFollowLayout : 62 ≤ sampleS3.length ∧ sampleS3.length < 65535 := by decide

theorem witness_RelayAndUnknownDestinations :
    (zeros 65535).length ≤ 65535 ∧ ((0x00 : Byte) ≠ 0x01 ∧ (0x00 : Byte) ≠ 0x11) := by
  refine ⟨?_, by decide⟩
  rw [zeros_length]

/-! ### Witnesses: the encoder -/

/-- TX-3. -/
theorem witness_OverlongPayloadIsRejected :
    fresh.cfg.txMaxPayload < (zeros 251).length ∧ (zeros 251).length ≤ 65535 := by
  refine ⟨?_, ?_⟩ <;> rw [zeros_length] <;> decide

/-- A payload at the limit, a command, and the refusal of a claim above the 6 bytes that a good round of 3 leaves unsent
(TX-11's kind). -/
theorem witness_SendBuildsFrameAndAdvancesCounter :
    legalSend fresh (.txSend 0x01 (zeros 250)) 0x01 (zeros 250) ∧ legalSend fresh (.txCmd 0x17) 0x01 [0x17] ∧
      (let s := withSink fresh [.ok 3, .ok 7] [.ok]
       legalSend s (.txCmd 0x17) 0x01 [0x17] ∧ exec (.txCmd 0x17) s = .refused .overclaimedWrite ∧
         overclaims (wireFrame s.cfg.hwid s.txSeq 0x01 [0x17]) s.writeReplies s.flushReplies) := by
  refine ⟨.inl ⟨rfl, ?_, ?_⟩, .inr ⟨0x17, rfl, .inr rfl, rfl, rfl, by decide⟩,
    .inr ⟨0x17, rfl, .inr rfl, rfl, rfl, by decide⟩, rfl, [3], 7, [], [], by decide, by decide, rfl, rfl⟩ <;>
    rw [zeros_length] <;> decide

/-- TX-2 and TX-9. -/
theorem witness_SendToWillingSinkCompletes :
    let s := withSink fresh [.ok 8] [.ok]
    let u := withSink fresh [.ok 9] [.ok]
    (([] : Bytes).length ≤ s.cfg.txMaxPayload ∧ s.writeReplies = .ok (([] : Bytes).length + 8) :: [] ∧
        s.flushReplies = .ok :: []) ∧
      (1 ≤ u.cfg.txMaxPayload ∧ u.writeReplies = .ok (([0x12] : Bytes).length + 8) :: [] ∧ u.flushReplies = .ok :: []) := by
  decide

/-- TX-6. -/
theorem witness_ShortWritesAddUpToFrame :
    let s := withSink fresh [.ok 3, .ok 0, .ok 6] [.ok, .ok, .ok]
    ([0xAA] : Bytes).length ≤ s.cfg.txMaxPayload ∧ [3, 0].sum < ([0xAA] : Bytes).length + 8 ∧
      [3, 0].sum + 6 = ([0xAA] : Bytes).length + 8 ∧ s.writeReplies = [3, 0].map .ok ++ .ok 6 :: [] ∧
      s.flushReplies = List.replicate ([3, 0].length + 1) .ok ++ [] := by decide

/-- TX-7, and the same after one good round. -/
theorem witness_WriteFailureEndsSend :
    let s := withSink fresh [.err 0x09] []
    let u := withSink fresh [.ok 8, .err 0x09] [.ok]
    ([0xAA] : Bytes).length ≤ s.cfg.txMaxPayload ∧ ([] : List Nat).sum < ([0xAA] : Bytes).length + 8 ∧
      s.writeReplies = ([] : List Nat).map .ok ++ .err 0x09 :: [] ∧
      s.flushReplies = List.replicate ([] : List Nat).length .ok ++ [] ∧
      [8].sum < ([0xAA] : Bytes).length + 8 ∧ u.writeReplies = [8].map .ok ++ .err 0x09 :: [] ∧
      u.flushReplies = List.replicate [8].length .ok ++ [] := by decide

/-- TX-8: the flush after the last write fails; and one after a write of nothing. -/
theorem witness_FlushFailureEndsSend :
    let s := withSink fresh [.ok 9] [.err 0x0C]
    let u := withSink fresh [.ok 0] [.err 0x0C]
    ([0xAA] : Bytes).length ≤ s.cfg.txMaxPayload ∧ ([] : List Nat).sum + 9 ≤ ([0xAA] : Bytes).length + 8 ∧
      s.writeReplies = ([] : List Nat).map .ok ++ .ok 9 :: [] ∧
      s.flushReplies = List.replicate ([] : List Nat).length .ok ++ .err 0x0C :: [] ∧
      u.writeReplies = ([] : List Nat).map .ok ++ .ok 0 :: [] ∧
      u.flushReplies = List.replicate ([] : List Nat).length .ok ++ .err 0x0C :: [] := by decide

theorem witness_CommandIsSendOfOneByte :
    fresh.cfg.valid ∧ ((0x13 : Byte) ≠ 0x12 ∧ (0x13 : Byte) ≠ 0x17) ∧
      (nextState (exec (.txCmd 0x12) (withSink fresh [.ok 9] [.ok]))).isSome = true := by decide

/-- A send that advances the counter, an operation that does not, and a send that goes on. -/
theorem witness_OnlySendsAdvanceCounter :
    (nextState (exec (.txSend 0x01 [0x10]) (withSink fresh [.ok 9] [.ok]))).isSome = true ∧
      (nextState (exec .dfrReset fresh)).isSome = true ∧
      ((withSink fresh [.ok 1] []).wait (.write [0xAA] 0)).pending ≠ none ∧
      (nextState (step ((withSink fresh [.ok 1] []).wait (.write [0xAA] 0)))).isSome = true := by decide

/-- Silent from the start, silent after two rounds of which one accepts nothing, silent at the first flush, and silent at
the flush after the last write. -/
theorem witness_WaitingSendGoesOn :
    (let s := fresh
     legalSend s (.txSend 0x01 [0x10]) 0x01 [0x10] ∧ ([] : List Nat).sum < ([0x10] : Bytes).length + 8 ∧
       s.writeReplies = ([] : List Nat).map .ok ∧ s.flushReplies = List.replicate ([] : List Nat).length .ok ++ []) ∧
    (let s := withSink fresh [.ok 3, .ok 0] [.ok, .ok]
     legalSend s (.txCmd 0x17) 0x01 [0x17] ∧ [3, 0].sum < ([0x17] : Bytes).length + 8 ∧
       s.writeReplies = [3, 0].map .ok ∧ s.flushReplies = List.replicate [3, 0].length .ok ++ []) ∧
    (let s := withSink fresh [.ok 0] []
     legalSend s (.txSend 0x01 [0x10]) 0x01 [0x10] ∧ ([] : List Nat).sum + 0 ≤ ([0x10] : Bytes).length + 8 ∧
       s.writeReplies = ([] : List Nat).map .ok ++ .ok 0 :: [] ∧ s.flushReplies = List.replicate ([] : List Nat).length .ok) ∧
    (let s := withSink fresh [.ok 3, .ok 6] [.ok]
     legalSend s (.txCmd 0x17) 0x01 [0x17] ∧ [3].sum < ([0x17] : Bytes).length + 8 ∧
       [3].sum + 6 ≤ ([0x17] : Bytes).length + 8 ∧ s.writeReplies = [3].map .ok ++ .ok 6 :: [] ∧
       s.flushReplies = List.replicate [3].length .ok) ∧
    (nextState (exec (.txSend 0x01 [0x10]) fresh)).map State.pending =
      some (some (.write [0x22, 0x69, 0x06, 0x34, 0x12, 0x00, 0x00, 0x01, 0x10] 0)) ∧
    (nextState (exec (.txCmd 0x17) (withSink fresh [.ok 9] []))).map State.pending = some (some (.flush [] 0)) := by
  refine ⟨⟨.inl ⟨rfl, ?_, ?_⟩, ?_, ?_, ?_⟩, ⟨.inr ⟨0x17, rfl, .inr rfl, rfl, rfl, ?_⟩, ?_, ?_, ?_⟩,
    ⟨.inl ⟨rfl, ?_, ?_⟩, ?_, ?_, ?_⟩, ⟨.inr ⟨0x17, rfl, .inr rfl, rfl, rfl, ?_⟩, ?_, ?_, ?_, ?_⟩, ?_, ?_⟩ <;> decide

theorem witness_SendFrames :
    (nextState (exec (.txSend 0x01 [0x10]) (withSink fresh [.ok 9] [.ok]))).isSome = true ∧
      (nextState (exec (.txCmd 0x13) fresh)).isSome = true := by decide

/-! ### Witnesses: the CAN reassembler -/

/-- CN-1, CN-2 and CN-3. -/
theorem witness_NonFragmentIsRejected :
    malformed (.canRx false false 0 0x123 8 [0, 0, 0, 1, 2, 3, 4, 5]) = false ∧
      malformed (.canRx true true 0 idA 8 []) = false ∧
      (malformed (.canRx true false 0 idA 3 [0, 0, 0]) = false ∧ (3 : Byte).toNat < 4) := by decide

/-- CN-4, CN-5's bound, and CN-9. -/
theorem witness_AnnouncedSizeThenFreeSlot :
    idA.toNat < 2 ^ 29 ∧ (5 : Byte).toNat * 5 > fresh.cfg.maxPacket ∧ (4 : Byte).toNat * 5 ≤ fresh.cfg.maxPacket ∧
      (let s := withTable [(0x123, []), (0x456, [])]
       canGet s.canTable (sourceIn s idD) = none ∧ s.canTable.length = s.cfg.numSources) := by decide

/-- Step 2 of S6: a fragment in the middle; and a restart. -/
theorem witness_InOrderFragmentIsAppended :
    let s := withTable [(0x123, [1, 2, 3, 4, 5])]
    acceptable s idA 2 [6, 7, 8, 9, 10] ∧ (1 : Byte).toNat = (currentBuffer s idA 1).length / 5 ∧
      (currentBuffer s idA 1).length + ([6, 7, 8, 9, 10] : Bytes).length ≤ s.cfg.maxPacket ∧
      (1 : Byte).toNat < (2 : Byte).toNat ∧ (0 : Byte).toNat = (currentBuffer s idA 0).length / 5 := by decide

/-- Step 3 of S6. -/
theorem witness_LastFragmentCompletes :
    keysRising tenOfA.canTable ∧ acceptable tenOfA idA 2 [0x0B, 0x0C] ∧
      (2 : Byte).toNat = (currentBuffer tenOfA idA 2).length / 5 ∧
      (currentBuffer tenOfA idA 2 ++ [0x0B, 0x0C]).length ≤ tenOfA.cfg.maxPacket ∧ (2 : Byte).toNat ≤ (2 : Byte).toNat := by
  decide

/-- S7, and a duplicate at its `seq_len`. -/
theorem witness_DuplicateIsIgnored :
    acceptable tenOfA idA 2 [6, 7, 8, 9, 10] ∧ (1 : Byte).toNat < (currentBuffer tenOfA idA 1).length / 5 ∧
      acceptable tenOfA idA 1 [6, 7, 8, 9, 10] := by decide

/-- S8 step 2, and a stray first fragment of a new source (CN-12). -/
theorem witness_GapEmptiesEntry :
    let s := withTable [(0x123, [1, 2, 3, 4, 5])]
    (acceptable s idA 2 [0x0B, 0x0C] ∧ (2 : Byte).toNat > (currentBuffer s idA 2).length / 5) ∧
      (acceptable fresh idA 3 [1, 2, 3, 4, 5] ∧ (1 : Byte).toNat > (currentBuffer fresh idA 1).length / 5) := by decide

/-- CN-11. -/
theorem witness_OverfullAppendChangesNothing :
    let s := withTable [(0x123, [1, 2, 3, 4, 5, 6, 7, 8, 9, 10, 11, 12, 13, 14, 15, 16, 17, 18, 19, 20])]
    s.cfg.valid ∧ acceptable s idA 4 [0xAA] ∧ (4 : Byte).toNat = (currentBuffer s idA 4).length / 5 ∧
      (currentBuffer s idA 4).length + ([0xAA] : Bytes).length > s.cfg.maxPacket := by decide

/-- S6 as a whole: two full fragments and a last one; and a message of one fragment. -/
theorem witness_MessageReassemblesInOrder :
    idA.toNat < 2 ^ 29 ∧ keysRising fresh.canTable ∧
      (let parts : List Bytes := [[1, 2, 3, 4, 5], [6, 7, 8, 9, 10]]
       parts.length ≤ 255 ∧ (∀ p ∈ parts, p.length = 5) ∧
         parts.flatten.length + ([0x0B, 0x0C] : Bytes).length ≤ fresh.cfg.maxPacket) ∧
      (canGet fresh.canTable (sourceIn fresh idA) = none → fresh.canTable.length < fresh.cfg.numSources) := by decide

theorem witness_CanFrames :
    (nextState (exec (fragmentFrame idA 1 0 2 [6, 7, 8, 9, 10]) (withTable [(0x123, [1, 2, 3, 4, 5]), (0x456, [])]))).isSome =
        true ∧
      keysRising (withTable [(0x123, [1, 2, 3, 4, 5]), (0x456, [])]).canTable ∧ 0x456 ≠ sourceIn fresh idA := by decide

theorem witness_EntriesLeaveOnlyByCompletion :
    let r := exec (fragmentFrame idA 2 0 2 [0x0B, 0x0C]) tenOfA
    keysRising tenOfA.canTable ∧ (canGet tenOfA.canTable 0x123).isSome = true ∧
      (nextState r).map (fun t => canGet t.canTable 0x123) = some none := by decide

/-! ### Witnesses: the whole block -/

theorem witness_EnginesCommute :
    (nextState (exec (.dfrFeed 0x22) fresh)).map State.pending = some none ∧
      (nextState (exec (fragmentFrame idA 0 0 2 [1, 2, 3, 4, 5]) fresh)).isSome = true := by decide

theorem witness_StepKeepsInvariant :
    BlockInv (placeRequest [0x02] (ingest 2 5 8)) ∧ (nextState (step (placeRequest [0x02] (ingest 2 5 8)))).isSome = true :=
  ⟨⟨by decide, by decide, by decide, by decide, List.all_eq_true.mp (by decide), by decide, trivial, by decide, trivial⟩, by decide⟩

theorem witness_ResetMeetsInvariant : testParams.valid ∧ BlockInv fresh :=
  ⟨by decide, by decide, by decide, by decide, by decide, List.all_eq_true.mp (by decide), by decide, trivial, by decide,
    trivial⟩

/-- The invariant in states that stop in each of the ways the statement names. -/
theorem witness_OnlySilenceStopsTheBlock :
    BlockInv (fresh.wait .read) ∧ BlockInv (fresh.wait (.write [0xAA] 0)) ∧ BlockInv (fresh.wait (.flush [] 0)) ∧
      BlockInv ((offerRead (.ok [1, 2, 3, 4, 5]) fresh).wait .read) ∧ BlockInv (placeRequest [] fresh) := by
  refine ⟨?_, ?_, ?_, ?_, ?_⟩
  · exact ⟨by decide, by decide, by decide, by decide, List.all_eq_true.mp (by decide), by decide, trivial, by decide,
      show admitted (fresh.wait .read) by decide⟩
  · exact ⟨by decide, by decide, by decide, by decide, List.all_eq_true.mp (by decide), by decide, trivial, by decide,
      show ([0xAA] : Bytes) ≠ [] by decide⟩
  · exact ⟨by decide, by decide, by decide, by decide, List.all_eq_true.mp (by decide), by decide, trivial, by decide, trivial⟩
  · exact ⟨by decide, by decide, by decide, by decide, List.all_eq_true.mp (by decide), by decide, trivial, by decide,
      show admitted ((offerRead (.ok [1, 2, 3, 4, 5]) fresh).wait .read) by decide⟩
  · exact ⟨by decide, by decide, by decide, by decide, List.all_eq_true.mp (by decide), by decide, trivial, by decide, trivial⟩

/-- A claim outside the sink's liberties, in a state of the invariant: to a write that waits, to the write that follows a
flush that waits, and to the second write of a send that is requested. -/
theorem witness_OnlySilenceStopsTheBlock_overclaim :
    (let s := (withSink fresh [.ok 2] []).wait (.write [0xAA] 0)
     BlockInv s ∧ overclaimedReply s ∧ step s = .refused .overclaimedWrite) ∧
    (let s := (withSink fresh [.ok 2] [.ok]).wait (.flush [0xAA] 0)
     BlockInv s ∧ overclaimedReply s ∧ step s = .refused .overclaimedWrite) ∧
    (let s := placeRequest [0x21, 0x17] (withSink fresh [.ok 3, .ok 7] [.ok])
     BlockInv s ∧ overclaimedReply s ∧ step s = .refused .overclaimedWrite) := by
  refine ⟨⟨?_, .inl ⟨[0xAA], 0, rfl, [], 2, [], [], by decide, by decide, rfl, rfl⟩, rfl⟩,
    ⟨?_, .inr (.inl ⟨[0xAA], 0, [], rfl, rfl, [], 2, [], [], by decide, by decide, rfl, rfl⟩), rfl⟩,
    ⟨?_, .inr (.inr ⟨[0x21, 0x17], [], .txCmd 0x17, 0x01, [0x17], rfl, rfl, by decide,
      .inr ⟨0x17, rfl, .inr rfl, rfl, rfl, by decide⟩, [3], 7, [], [], by decide, by decide, rfl, rfl⟩), rfl⟩⟩
  · exact ⟨by decide, by decide, by decide, by decide, List.all_eq_true.mp (by decide), by decide, trivial, by decide,
      show ([0xAA] : Bytes) ≠ [] by decide⟩
  · exact ⟨by decide, by decide, by decide, by decide, List.all_eq_true.mp (by decide), by decide, trivial, by decide, trivial⟩
  · exact ⟨by decide, by decide, by decide, by decide, List.all_eq_true.mp (by decide), by decide, trivial, by decide, trivial⟩

/-- A sink that answers within its liberties stops nothing: the same requested send with a last count of 6. -/
theorem test_goodSink_goes_on :
    (nextState (step (placeRequest [0x21, 0x17] (withSink fresh [.ok 3, .ok 6] [.ok, .ok])))).isSome = true := by decide

theorem witness_ParametersNeverChange : (nextState (step (placeRequest [0x21, 0x12] fresh))).isSome = true := by decide

theorem witness_OneResponseWithDefinedStatus :
    (nextState (exec .ingPush fresh)).map State.pending = some (some .read) ∧
      (nextState (exec .ingPop fresh)).map State.pending = some none := by decide

/-- A push, and a CAN frame of a source without a slot. -/
theorem witness_ResourceErrorsChangeNothing :
    fresh.cfg.valid ∧ (nextState (exec .ingPush (ingest 8 0 8))).map State.responses = some [[0x02]] ∧
      (nextState (exec (fragmentFrame idD 0 0 0 [0xFF]) (withTable [(0x123, []), (0x456, [])]))).map State.responses =
        some [[0x09]] := by decide

/-- The wires of the canonical form at reset. -/
theorem test_reset_memory : Memory.wf State.reset.ingS ∧ Memory.wf State.reset.fb ∧ keysRising State.reset.canTable :=
  ⟨List.Pairwise.nil, List.Pairwise.nil, List.Pairwise.nil⟩

/-! ### Witnesses: the assembler -/

theorem witness_AssembledLineIsRequest :
    (Instr.canRx true false 0 idA 4 [0, 0, 0, 1]).wellFormed = true ∧
      ∀ ide rtr rsv id dlc data, Instr.canRx true false 0 idA 4 [0, 0, 0, 1] = .canRx ide rtr rsv id dlc data → rsv = 0 := by
  refine ⟨by decide, fun _ _ _ _ _ _ h => ?_⟩
  cases h; rfl

theorem witness_PseudoInstructionsExpand :
    ([0x22, 0x69] : Bytes) ≠ [] ∧ zeros 252 ≠ [] ∧ (zeros 252).length ≤ 252 := by
  refine ⟨by decide, fun h => ?_, ?_⟩
  · have := congrArg List.length h; rw [zeros_length] at this; cases this
  · rw [zeros_length]

end Sys2Proof.Tests
end

section
/-! PROOFS of the statements of 00_scope.md and of power-on reset: `SOURCE_OF` as a table (R8, log 6), and the invariant
of the block right after reset (R31, R38). -/

namespace Sys2Proof.Machine

/-! ### `SOURCE_OF` as a table of every identifier (R8, log 6) -/

/-- The source map that lists every 29-bit identifier, so that no identifier is left to `lowBits`. -/
def tabulatedSourceMap (f : CanId → Nat) : SourceMap where
  lowBits := 0
  overrides := (List.finRange (2 ^ 29)).map fun i => (BitVec.ofFin i, f (BitVec.ofFin i))

/-- The table lists the graph of the function. -/
theorem mem_tabulatedSourceMap_overrides {f : CanId → Nat} {id : CanId} {k : Nat} :
    (id, k) ∈ (tabulatedSourceMap f).overrides ↔ k = f id := by
  simp only [tabulatedSourceMap, List.mem_map, List.mem_finRange, true_and, Prod.mk.injEq]
  constructor
  · rintro ⟨i, rfl, rfl⟩
    rfl
  · rintro rfl
    exact ⟨id.toFin, rfl, rfl⟩

/-- An identifier that is listed has a source that is listed with it. -/
theorem mem_overrides_of_listed {m : SourceMap} {id : CanId} {k : Nat} (h : (id, k) ∈ m.overrides) :
    (id, sourceOf m id) ∈ m.overrides := by
  unfold sourceOf
  split
  next p hp =>
    have hid : p.1 = id := by simpa using List.find?_some hp
    exact hid ▸ List.mem_of_find?_eq_some hp
  next hnone =>
    exact absurd (List.find?_eq_none.mp hnone _ h) (by simp)

theorem sourceOf_tabulatedSourceMap (f : CanId → Nat) (id : CanId) : sourceOf (tabulatedSourceMap f) id = f id :=
  have hlisted : (id, f id) ∈ (tabulatedSourceMap f).overrides := mem_tabulatedSourceMap_overrides.mpr rfl
  mem_tabulatedSourceMap_overrides.mp (mem_overrides_of_listed hlisted)

/-- Settles O58: the table of all identifiers computes the function. -/
theorem sourceMapCoversEveryFunction : Obligations.SourceMapCoversEveryFunction :=
  fun f => ⟨tabulatedSourceMap f, sourceOf_tabulatedSourceMap f⟩

/-! ### The invariant after power-on reset (R31, R38) -/

/-- The open parameters of the device that is reset lie within R8's ranges (log 5). -/
theorem config_params_valid : Config.params.valid := by
  have hchunk := Nat.mod_lt Config.chunkOpen (show 65535 > 0 by omega)
  have hpacket := Nat.mod_lt Config.maxPacketOpen (show 65531 > 0 by omega)
  refine ⟨⟨?_, ?_⟩, ?_, ⟨?_, ?_⟩, .inl rfl⟩ <;> simp only [Config.params] <;> omega

theorem unread_resetWith (p : Params) : unread (State.resetWith p) = [] :=
  (unread_of_not_lt (Nat.lt_irrefl 0)).trans (readRange_nil [] (Nat.le_refl 0))

/-- Every store is empty, every cursor is 0 and nothing waits, so only the parameters are left to check. -/
theorem blockInv_resetWith {p : Params} (h : p.valid) : BlockInv (State.resetWith p) where
  params := h
  shape := .inl ⟨rfl, Nat.le_refl 0⟩
  cursors := ⟨Nat.zero_le _, Nat.zero_le _⟩
  ingestStore := ⟨List.Pairwise.nil, List.forall_mem_nil _⟩
  unreadWritten := by simp [unread_resetWith]
  frameStore := ⟨List.Pairwise.nil, List.forall_mem_nil _⟩
  deframer := trivial
  table := ⟨List.Pairwise.nil, Nat.zero_le _, List.forall_mem_nil _⟩
  waiting := trivial

/-- Settles O52: reset with any valid parameters, and with the open ones, which are valid. -/
theorem resetMeetsInvariant : Obligations.ResetMeetsInvariant :=
  ⟨fun _ h => blockInv_resetWith h, blockInv_resetWith config_params_valid⟩

end Sys2Proof.Machine
end

section
/-! PROOFS of the ingest buffer as a FIFO (10_state.md R31, R32; 40_ingest.md R111 to R117). -/

namespace Sys2Proof.Machine

/-! ### What a push writes and what is unread -/

/-- A range that a write does not meet reads as before. -/
theorem readRange_memWriteAll_of_disjoint (m : Memory) {base a b : Nat} {bs : Bytes}
    (h : b ≤ base ∨ base + bs.length ≤ a) : readRange (memWriteAll m base bs) a b = readRange m a b := by
  refine readRange_congr fun i hai hib => ?_
  rw [memRead_memWriteAll, if_neg (by omega)]

/-- The admission cases of R111 within the two shapes of R31: the chunk goes after linear contents, to the bottom of the
store below linear contents, or between the two parts of wrapped contents. -/
theorem ingStart_cases_of_admitted {s : State} (hs : linearShape s ∨ wrappedShape s) (ha : admitted s) :
    (ingStart s = s.ingHead ∧ s.ingHead = s.ingLen ∧ s.ingTail ≤ s.ingHead) ∨
    (ingStart s = 0 ∧ s.ingHead = s.ingLen ∧ s.cfg.chunk < s.ingTail ∧ s.ingTail ≤ s.ingHead) ∨
    (ingStart s = s.ingHead ∧ s.ingHead + s.cfg.chunk < s.ingTail ∧ s.ingTail ≤ s.ingLen) := by
  unfold ingStart
  rcases ha with ⟨heq, hlow⟩ | ⟨heq, hhigh, htail⟩ | ⟨hne, hlow, htail⟩
  · rw [if_pos hlow]; omega
  · rw [if_neg (by omega)]; omega
  · rw [if_pos hlow]; omega

/-- A chunk stored is added at the end of the unread contents (R112, R117). -/
theorem unread_stored {s : State} (hs : linearShape s ∨ wrappedShape s) (ha : admitted s) {bytes : Bytes}
    (hl : bytes.length ≤ s.cfg.chunk) : unread (s.stored bytes) = unread s ++ bytes.map some := by
  have written := readRange_memWriteAll s.ingS (ingStart s) bytes
  have hhead := s.stored_ingHead bytes
  have hlen := s.stored_ingLen bytes
  rcases ingStart_cases_of_admitted hs ha with
    ⟨hst, heq, htail⟩ | ⟨hst, heq, hfree, htail⟩ | ⟨hst, hfree, htail⟩
  · rw [unread_of_not_lt (s := s) (by omega), unread_of_not_lt (by omega)]
    simp only [State.stored_ingS, State.stored_ingTail, State.stored_ingHead]
    rw [hst] at written ⊢
    rw [← readRange_append _ htail (by omega), written, readRange_memWriteAll_of_disjoint _ (.inl (by omega))]
  · rw [unread_of_not_lt (s := s) (by omega), unread_of_lt (by omega)]
    simp only [State.stored_ingS, State.stored_ingTail, State.stored_ingHead, State.stored_ingLen]
    rw [hst] at written ⊢
    rw [show max s.ingLen (0 + bytes.length) = s.ingHead by omega, written,
      readRange_memWriteAll_of_disjoint _ (.inr (by omega))]
  · rw [unread_of_lt (s := s) (by omega), unread_of_lt (by omega)]
    simp only [State.stored_ingS, State.stored_ingTail, State.stored_ingHead, State.stored_ingLen]
    rw [hst] at written ⊢
    rw [show max s.ingLen (s.ingHead + bytes.length) = s.ingLen by omega,
      ← readRange_append _ (Nat.zero_le s.ingHead) (by omega), written,
      readRange_memWriteAll_of_disjoint _ (.inr (by omega)), readRange_memWriteAll_of_disjoint _ (.inl (by omega)),
      List.append_assoc]

/-- What a failed read leaves in its region is not unread (R113). -/
theorem unread_scrambled {s : State} (hs : linearShape s ∨ wrappedShape s) (ha : admitted s) :
    unread s.scrambled = unread s := by
  have kept : ∀ {a b}, b ≤ ingStart s ∨ ingStart s + s.cfg.chunk ≤ a →
      readRange s.scrambled.ingS a b = readRange s.ingS a b := fun h =>
    readRange_memWriteAll_of_disjoint _ (by rw [freeBytes_length]; exact h)
  by_cases hlt : s.ingHead < s.ingLen
  · rw [unread_of_lt hlt, unread_of_lt (s := s.scrambled) hlt]
    simp only [State.scrambled_ingHead, State.scrambled_ingTail, State.scrambled_ingLen]
    rcases ingStart_cases_of_admitted hs ha with h | h | h
    · omega
    · omega
    · rw [kept (.inr (by omega)), kept (.inl (by omega))]
  · rw [unread_of_not_lt hlt, unread_of_not_lt (s := s.scrambled) hlt]
    simp only [State.scrambled_ingHead, State.scrambled_ingTail]
    rcases ingStart_cases_of_admitted hs ha with h | h | h
    · exact kept (.inl (by omega))
    · exact kept (.inr (by omega))
    · omega

/-- A chunk stored leaves one of the two shapes (R31). -/
theorem shape_stored {s : State} (hs : linearShape s ∨ wrappedShape s) (ha : admitted s) {bytes : Bytes}
    (hl : bytes.length ≤ s.cfg.chunk) : linearShape (s.stored bytes) ∨ wrappedShape (s.stored bytes) := by
  simp only [linearShape, wrappedShape, State.stored_ingHead, State.stored_ingTail, State.stored_ingLen,
    State.stored_cfg]
  rcases ingStart_cases_of_admitted hs ha with h | h | h <;> omega

/-! ### The rewind and the read cursor -/

/-- After the rewind (R114) the contents are linear, or wrapped with the read cursor below `ING_LEN`. -/
theorem shape_rewound {s : State} (hs : linearShape s ∨ wrappedShape s) :
    linearShape s.rewound ∨ (wrappedShape s.rewound ∧ s.rewound.ingTail < s.rewound.ingLen) := by
  by_cases hd : s.ingTail ≥ s.ingLen ∧ s.ingHead < s.ingLen
  · rw [State.rewound_of_drained hd]
    exact .inl ⟨rfl, Nat.zero_le _⟩
  · rw [State.rewound_of_not_drained hd]
    omega

/-- The rewind leaves the unread contents as they are (R117). -/
theorem unread_rewound {s : State} : unread s.rewound = unread s := by
  by_cases hd : s.ingTail ≥ s.ingLen ∧ s.ingHead < s.ingLen
  · rw [State.rewound_of_drained hd, unread_of_not_lt (Nat.lt_irrefl _), unread_of_lt hd.2, readRange_nil _ hd.1]
    rfl
  · rw [State.rewound_of_not_drained hd]

section
variable {s : State} (hs : linearShape s ∨ (wrappedShape s ∧ s.ingTail < s.ingLen))
include hs

/-- With the cursors equal nothing is unread (R115). -/
theorem unread_eq_nil_of_head_eq_tail (h : s.ingHead = s.ingTail) : unread s = [] := by
  rw [unread_of_not_lt (by omega), readRange_nil _ (by omega)]

/-- Otherwise the byte at the read cursor is the first unread one, and the others are left when the cursor advances
(R116). -/
theorem unread_eq_cons_of_head_ne_tail (h : s.ingHead ≠ s.ingTail) :
    unread s = memRead s.ingS s.ingTail :: unread s.advanced := by
  by_cases hlt : s.ingHead < s.ingLen
  · rw [unread_of_lt hlt, unread_of_lt (s := s.advanced) hlt, readRange_cons _ (by omega)]
    rfl
  · rw [unread_of_not_lt hlt, unread_of_not_lt (s := s.advanced) hlt, readRange_cons _ (by omega)]
    rfl

/-- The cursor that advances over an unread byte keeps the shapes (R31). -/
theorem shape_advanced (h : s.ingHead ≠ s.ingTail) : linearShape s.advanced ∨ wrappedShape s.advanced := by
  simp only [linearShape, wrappedShape, State.advanced_ingHead, State.advanced_ingTail, State.advanced_ingLen,
    State.advanced_cfg]
  omega

end

/-! ### The two operations in a state of the invariant -/

/-- A push that stores its chunk keeps the invariant. -/
theorem BlockInv.responded_stored {s : State} (h : BlockInv s) (ha : admitted s) {bytes : Bytes}
    (hl : bytes.length ≤ s.cfg.chunk) (resp : Bytes) : BlockInv (responded (s.stored bytes) resp) :=
  have hst := ingStart_le s
  have hcur := h.cursors
  have hfit : ingStart s + bytes.length ≤ 2 * s.cfg.chunk := by omega
  { h with
    shape := shape_stored h.shape ha hl
    cursors := ⟨hfit, Nat.max_le.mpr ⟨hcur.2, hfit⟩⟩
    ingestStore := ⟨memWriteAll_wf h.ingestStore.1 _ _, memWriteAll_within h.ingestStore.2 hfit⟩
    unreadWritten := by
      intro b hb
      rcases List.mem_append.mp ((unread_stored h.shape ha hl) ▸ hb) with hb | hb
      · exact h.unreadWritten b hb
      · obtain ⟨c, -, rfl⟩ := List.mem_map.mp hb
        rfl
    waiting := trivial }

/-- A push whose read fails keeps the invariant. -/
theorem BlockInv.responded_scrambled {s : State} (h : BlockInv s) (ha : admitted s) (resp : Bytes) :
    BlockInv (responded s.scrambled resp) :=
  have hst := ingStart_le s
  { h with
    ingestStore := ⟨memWriteAll_wf h.ingestStore.1 _ _,
      memWriteAll_within h.ingestStore.2 (by rw [freeBytes_length]; omega)⟩
    unreadWritten := fun b hb => h.unreadWritten b ((unread_scrambled h.shape ha) ▸ hb)
    waiting := trivial }

/-- A pop that finds nothing keeps the invariant. -/
theorem BlockInv.responded_rewound {s : State} (h : BlockInv s) (resp : Bytes) :
    BlockInv (responded s.rewound resp) := by
  have hwritten : ∀ b ∈ unread (responded s.rewound resp), b.isSome = true := fun b hb =>
    h.unreadWritten b (unread_rewound ▸ hb)
  have hshape : linearShape (responded s.rewound resp) ∨ wrappedShape (responded s.rewound resp) :=
    (shape_rewound h.shape).imp_right And.left
  have hcur := h.cursors
  by_cases hd : s.ingTail ≥ s.ingLen ∧ s.ingHead < s.ingLen
  · rw [State.rewound_of_drained hd] at hwritten hshape ⊢
    exact { h with shape := hshape, cursors := ⟨hcur.1, hcur.1⟩, unreadWritten := hwritten, waiting := trivial }
  · rw [State.rewound_of_not_drained hd]
    exact { h with waiting := trivial }

/-- A pop that takes a byte keeps the invariant. -/
theorem BlockInv.responded_advanced {s : State} (h : BlockInv s) (hne : s.ingHead ≠ s.rewound.ingTail)
    (resp : Bytes) : BlockInv (responded s.rewound.advanced resp) :=
  have hr := h.responded_rewound resp
  have hs := shape_rewound h.shape
  have hne : s.rewound.ingHead ≠ s.rewound.ingTail := by rwa [State.rewound_ingHead]
  { hr with
    shape := shape_advanced hs hne
    unreadWritten := fun b hb =>
      hr.unreadWritten b ((unread_eq_cons_of_head_ne_tail hs hne) ▸ List.mem_cons_of_mem _ hb) }

/-- A pop answers EMPTY exactly if nothing is unread, and otherwise takes the first unread byte; it never reads a byte
that is not there (R32, R117). -/
theorem execIngPop_of_inv {s : State} (h : BlockInv s) :
    (unread s = [] ∧ execIngPop s = .next (responded s.rewound [0x01])) ∨
    (∃ b, unread s = some b :: unread s.rewound.advanced ∧ s.ingHead ≠ s.rewound.ingTail ∧
      execIngPop s = .next (responded s.rewound.advanced [0x00, b])) := by
  have hs := shape_rewound h.shape
  have hr := h.responded_rewound []
  rw [← unread_rewound]
  rcases execIngPop_eq s with ⟨heq, hexec⟩ | ⟨hne, b, -, hb, hexec⟩ | ⟨hne, habsent, -⟩
  · exact .inl ⟨unread_eq_nil_of_head_eq_tail hs (by rwa [State.rewound_ingHead]), hexec⟩
  · refine .inr ⟨b, ?_, hne, hexec⟩
    rw [unread_eq_cons_of_head_ne_tail hs (by rwa [State.rewound_ingHead]), State.rewound_ingS, hb]
  · have hcons := unread_eq_cons_of_head_ne_tail hs (by rwa [State.rewound_ingHead])
    have hwritten : (memRead s.rewound.ingS s.rewound.ingTail).isSome = true :=
      hr.unreadWritten _ (hcons ▸ List.mem_cons_self ..)
    have hcur : s.rewound.ingHead ≤ 2 * s.rewound.cfg.chunk ∧ s.rewound.ingLen ≤ 2 * s.rewound.cfg.chunk :=
      hr.cursors
    rw [State.rewound_ingHead, State.rewound_cfg] at hcur
    rw [State.rewound_ingS, habsent (by have := State.rewound_ingHead s; omega)] at hwritten
    cases hwritten

/-- An admitted push with a reply at hand is the end of its read (R111, R112). -/
theorem execIngPush_of_reply {s : State} {r : ReadReply} {rs : List ReadReply} (ha : admitted s)
    (hr : s.readReplies = r :: rs) : execIngPush s =
      finishRead r { s with readReplies := rs, traffic := s.traffic ++ [.read s.cfg.chunk, .readReply r] } := by
  rcases execIngPush_eq s with ⟨hna, -⟩ | ⟨-, hsilent, -⟩ | ⟨-, r', rs', hr', hexec⟩
  · exact absurd ha hna
  · rw [hr] at hsilent
    cases hsilent
  · rw [hr] at hr'
    cases hr'
    exact hexec

/-- Settles O14: a chunk stored is appended, and a pop takes the head of what is unread. -/
theorem ingestIsFifo : Obligations.IngestIsFifo := by
  intro s h
  refine ⟨fun bytes rs ha hread hl => ?_, fun hnil => ?_, fun b u hcons => ?_⟩
  · exact ⟨_, (execIngPush_of_reply ha hread).trans (if_neg (Nat.not_lt.mpr hl)),
      unread_stored (s := { s with readReplies := rs, traffic := _ }) h.shape ha hl⟩
  · rcases execIngPop_of_inv h with ⟨-, hexec⟩ | ⟨b, hcons, -⟩
    · exact ⟨_, hexec, unread_rewound.trans hnil, by rw [← State.rewound_responses s]; rfl⟩
    · rw [hnil] at hcons
      cases hcons
  · rcases execIngPop_of_inv h with ⟨hnil, -⟩ | ⟨b', hcons', -, hexec⟩
    · rw [hcons] at hnil
      cases hnil
    · rw [hcons] at hcons'
      cases hcons'
      exact ⟨_, hexec, rfl, by rw [← State.rewound_responses s]; rfl⟩

end Sys2Proof.Machine
end

section
/-! PROOFS about the parameters and the counter: power-on reset (10_state.md R38), `dfr.reset` (R39), what advances
`TX_SEQ` (R33, 42_encoder.md R162) and what changes a parameter (70_reset_and_hazards.md R234). -/

namespace Sys2Proof.Machine

/-- Settles O21: the meaning of `dfr.reset` is one update and one response. -/
theorem deframerResetOnlyResyncs : Obligations.DeframerResetOnlyResyncs :=
  fun s => respond_eq (s.setDfr (.sync 0)) .resetDone

/-- Settles O57: every store is the empty list, and the open parameters are in range. -/
theorem resetLeavesSpecifiedState : Obligations.ResetLeavesSpecifiedState :=
  ⟨fun _ => ⟨rfl, memRead_nil, rfl, rfl, rfl, memRead_nil, rfl, rfl, keyGet_nil, rfl, rfl, rfl⟩, rfl,
    config_params_valid⟩

/-! ### What a send can do -/

/-- The operation is one of the two sends (42_encoder.md R160, R166). -/
def isSend (i : Instr) : Prop := (∃ dest data, i = .txSend dest data) ∨ ∃ c, i = .txCmd c

/-- A send that does not pass its checks answers an error and changes nothing else (R161, 30_encoding.md R87). -/
theorem exec_send_rejected_or_legal {i : Instr} (hi : isSend i) (s : State) :
    (∃ resp, exec i s = .next (responded s resp)) ∨ ∃ dest data, legalSend s i dest data := by
  rcases hi with ⟨dest, data, rfl⟩ | ⟨c, rfl⟩
  · by_cases hc : data.length ≤ 65535
    · rcases transmit_cases dest data s with ⟨-, h⟩ | ⟨hl, -⟩
      · exact .inl ⟨_, (execTxSend_eq hc s).trans h⟩
      · exact .inr ⟨dest, data, .inl ⟨rfl, hl, hc⟩⟩
    · have hbad : malformed (.txSend dest data) = true := by simp [malformed, Instr.wellFormed, hc]
      exact .inl ⟨[0xFD], if_pos hbad⟩
  · by_cases hc : c = 0x12 ∨ c = 0x17
    · rcases transmit_cases 0x01 [c] s with ⟨-, h⟩ | ⟨hl, -⟩
      · exact .inl ⟨_, (execTxCmd_eq c s).trans ((if_pos hc).trans h)⟩
      · exact .inr ⟨0x01, [c], .inr ⟨c, rfl, hc, rfl, rfl, hl⟩⟩
    · exact .inl ⟨[0xFD], (execTxCmd_eq c s).trans (if_neg hc)⟩

/-- A send that passes its checks advances the counter and offers its frame, up to an end of the send or a refused claim
(R162, R163). -/
theorem exec_legalSend_cases {s : State} {i : Instr} {dest : Byte} {data : Bytes} (h : legalSend s i dest data) :
    (exec i s = .refused .overclaimedWrite ∧
      overclaims (wireFrame s.cfg.hwid s.txSeq dest data) s.writeReplies s.flushReplies) ∨
    ∃ t, exec i s = .next t ∧
      SendEffect (s.bumped.log (.write (wireFrame s.cfg.hwid s.txSeq dest data))) t := by
  obtain ⟨hl, hexec⟩ := exec_of_legalSend h
  rw [hexec]
  rcases transmit_effect dest data s with ⟨hlong, -⟩ | ⟨-, hrefused⟩ | ⟨-, hnext⟩
  · omega
  · exact .inl hrefused
  · exact .inr hnext

/-! ### What leaves the parameters and the counter alone -/

/-- The parameters and the counter are as before. -/
def sameSettings (s t : State) : Prop := t.cfg = s.cfg ∧ t.txSeq = s.txSeq

theorem finishRead_sameSettings {r : ReadReply} {s t : State} (h : finishRead r s = .next t) : sameSettings s t := by
  rcases finishRead_eq r s with ⟨_, -, -, he⟩ | ⟨_, -, -, he⟩ | ⟨_, -, he⟩ | ⟨-, he⟩ <;>
    rw [he] at h <;> cases h <;> exact ⟨rfl, rfl⟩

theorem awaitFlush_sameSettings {rest : Bytes} {seq : Half} {again : State → Result} {s t : State}
    (hagain : ∀ u, again u = .next t → sameSettings u t) (h : awaitFlush rest seq again s = .next t) :
    sameSettings s t := by
  unfold awaitFlush at h
  split at h
  · cases h
    exact ⟨rfl, rfl⟩
  · cases h
    exact ⟨rfl, rfl⟩
  · split at h
    · cases h
      exact ⟨rfl, rfl⟩
    · exact (hagain _ h :)

theorem awaitWrite_sameSettings {seq : Half} {ws : List WriteReply} {rest : Bytes} {s t : State}
    (h : awaitWrite seq ws rest s = .next t) : sameSettings s t := by
  induction ws generalizing rest s with
  | nil =>
    cases h
    exact ⟨rfl, rfl⟩
  | cons w ws ih =>
    cases w with
    | err e =>
      cases h
      exact ⟨rfl, rfl⟩
    | ok k =>
      unfold awaitWrite at h
      split at h
      · cases h
      · exact (awaitFlush_sameSettings (fun _ hu => ih hu) h :)

/-- An operation that goes on leaves the settings alone: a send advanced the counter before it waited (log 14). -/
theorem resume_sameSettings {p : Pending} {s t : State} (h : resume p s = .next t) : sameSettings s t := by
  cases p with
  | read =>
    rw [resume, resumeRead] at h
    split at h
    · cases h
    · exact (finishRead_sameSettings h :)
  | write rest seq =>
    rw [resume, resumeWrite] at h
    split at h
    · cases h
    · exact awaitWrite_sameSettings h
  | flush rest seq =>
    rw [resume, resumeFlush] at h
    split at h
    · cases h
    · exact awaitFlush_sameSettings (fun _ hu => awaitWrite_sameSettings hu) h

theorem execIngPush_sameSettings {s t : State} (h : execIngPush s = .next t) : sameSettings s t := by
  rcases execIngPush_eq s with ⟨-, he⟩ | ⟨-, -, he⟩ | ⟨-, r, rs, -, he⟩ <;> rw [he] at h
  · cases h
    exact ⟨rfl, rfl⟩
  · cases h
    exact ⟨rfl, rfl⟩
  · exact (finishRead_sameSettings h :)

theorem execIngPop_sameSettings {s t : State} (h : execIngPop s = .next t) : sameSettings s t := by
  rcases execIngPop_eq s with ⟨-, he⟩ | ⟨-, b, -, -, he⟩ | ⟨-, -, he⟩ <;> rw [he] at h <;> cases h
  · exact ⟨s.rewound_cfg, s.rewound_txSeq⟩
  · exact ⟨s.rewound_cfg, s.rewound_txSeq⟩

theorem execDfrFeed_sameSettings {b : Byte} {s t : State} (h : execDfrFeed b s = .next t) : sameSettings s t := by
  rcases execDfrFeed_eq b s with ⟨_, _, -, -, he⟩ | ⟨_, _, -, -, -, he⟩ | ⟨_, _, _, -, -, -, -, he⟩ |
    ⟨_, _, -, -, he⟩ | ⟨_, _, -, -, -, -, he⟩ <;> rw [he] at h <;> cases h <;> exact ⟨rfl, rfl⟩

theorem execMsgDecode_sameSettings {dest : Byte} {data : Bytes} {s t : State}
    (h : execMsgDecode dest data s = .next t) : sameSettings s t := by
  rw [execMsgDecode, guardOperands_eq] at h
  split at h <;> cases h <;> exact ⟨rfl, rfl⟩

theorem execCanRx_sameSettings {ide rtr : Bool} {rsv : BitVec 6} {id : Word} {dlc : Byte} {data : Bytes} {s t : State}
    (h : execCanRx ide rtr rsv id dlc data s = .next t) : sameSettings s t := by
  obtain ⟨_, _, he, -⟩ := execCanRx_cases ide rtr rsv id dlc data s
  rw [he] at h
  cases h
  exact ⟨rfl, rfl⟩

/-- Only a send changes a setting, and that is the counter, by one (R162, R168). -/
theorem exec_settings {i : Instr} {s t : State} (h : exec i s = .next t) :
    sameSettings s t ∨ (isSend i ∧ t.cfg = s.cfg ∧ t.txSeq = s.txSeq + 1) := by
  have send : isSend i → sameSettings s t ∨ (isSend i ∧ t.cfg = s.cfg ∧ t.txSeq = s.txSeq + 1) := by
    intro hi
    rcases exec_send_rejected_or_legal hi s with ⟨_, he⟩ | ⟨_, _, hlegal⟩
    · rw [he] at h
      cases h
      exact .inl ⟨rfl, rfl⟩
    · rcases exec_legalSend_cases hlegal with ⟨he, -⟩ | ⟨_, he, effect⟩ <;> rw [he] at h <;> cases h
      exact .inr ⟨hi, effect.cfg, effect.txSeq⟩
  cases i with
  | ingPush => exact .inl (execIngPush_sameSettings h)
  | ingPop => exact .inl (execIngPop_sameSettings h)
  | dfrFeed b => exact .inl (execDfrFeed_sameSettings h)
  | dfrReset =>
    cases h
    exact .inl ⟨rfl, rfl⟩
  | msgDecode dest data => exact .inl (execMsgDecode_sameSettings h)
  | txSend dest data => exact send (.inl ⟨dest, data, rfl⟩)
  | txCmd c => exact send (.inr ⟨c, rfl⟩)
  | canRx ide rtr rsv id dlc data => exact .inl (execCanRx_sameSettings h)

/-- Settles O37: at reset by definition, then by what each operation and each waiting operation does to the counter. -/
theorem onlySendsAdvanceCounter : Obligations.OnlySendsAdvanceCounter := by
  refine ⟨fun _ => rfl, fun i s t h => ?_, fun s t hwaits h => ?_⟩
  · rcases exec_settings h with ⟨-, hseq⟩ | ⟨hi, -, hseq⟩
    · exact .inl hseq
    · exact .inr ⟨hi, by rw [hseq]; exact BitVec.toNat_add ..⟩
  · obtain ⟨p, hp⟩ := Option.ne_none_iff_exists'.mp hwaits
    rw [step, hp] at h
    exact (resume_sameSettings h).2

theorem serve_cfg {req : Bytes} {s t : State} (h : serve req s = .next t) : t.cfg = s.cfg := by
  unfold serve at h
  split at h
  · rcases exec_settings h with ⟨hcfg, -⟩ | ⟨-, hcfg, -⟩ <;> exact hcfg
  all_goals cases h
  all_goals rfl

/-- Settles O54: no operation and no resumption assigns a parameter. -/
theorem parametersNeverChange : Obligations.ParametersNeverChange := by
  intro s t h
  unfold step at h
  split at h
  · exact (resume_sameSettings h).1
  · unfold idle at h
    split at h
    · cases h
      rfl
    · exact (serve_cfg h :)

end Sys2Proof.Machine
end

section
/-! PROOFS of the invariant of the block: every step keeps it (10_state.md R23 to R35), and in a state of it only a
silent or deviant collaborator or an empty request stops a step (R55, R118, R163, R214). -/

namespace Sys2Proof.Machine

/-- From a state of the invariant: a next state of the invariant, one of the given faults, or one of the given
refusals. -/
def Yields (faults : Fault → Prop) (refusals : Refusal → Prop) : Result → Prop
  | .next t => BlockInv t
  | .fault f => faults f
  | .refused r => refusals r

/-- No fault is possible. -/
def noFault : Fault → Prop := fun _ => False

/-- No refusal is possible. -/
def noRefusal : Refusal → Prop := fun _ => False

theorem Yields.mono {F F' : Fault → Prop} {R R' : Refusal → Prop} {r : Result} (h : Yields F R r)
    (hF : ∀ f, F f → F' f) (hR : ∀ x, R x → R' x) : Yields F' R' r := by
  cases r with
  | next t => exact h
  | fault f => exact hF f h
  | refused x => exact hR x h

/-- An answer that changes nothing else keeps the invariant. -/
theorem BlockInv.responded {s : State} (h : BlockInv s) (resp : Bytes) : BlockInv (responded s resp) :=
  { h with waiting := trivial }

/-! ### The ingest buffer -/

/-- The end of an admitted read: the invariant is kept, or the reply was too long (R118). -/
theorem finishRead_yields {s : State} (h : BlockInv s) (ha : admitted s) (reply : ReadReply) :
    Yields noFault (fun r => r = .overlongRead ∧ ∃ bytes, reply = .ok bytes ∧ bytes.length > s.cfg.chunk)
      (finishRead reply s) := by
  rcases finishRead_eq reply s with ⟨bytes, hr, hl, he⟩ | ⟨bytes, -, hl, he⟩ | ⟨e, -, he⟩ | ⟨-, he⟩ <;>
    rw [he]
  · exact ⟨rfl, bytes, hr, hl⟩
  · exact h.responded_stored ha hl _
  · exact h.responded_scrambled ha _
  · exact h.responded_scrambled ha _

theorem execIngPush_yields {s : State} (h : BlockInv s) :
    Yields noFault
      (fun r => r = .overlongRead ∧ admitted s ∧
        ∃ bytes rs, s.readReplies = .ok bytes :: rs ∧ bytes.length > s.cfg.chunk)
      (execIngPush s) := by
  rcases execIngPush_eq s with ⟨-, he⟩ | ⟨ha, -, he⟩ | ⟨ha, reply, rs, hr, he⟩ <;> rw [he]
  · exact h.responded _
  · exact { h with waiting := ha }
  · refine (finishRead_yields (s := { s with readReplies := rs, traffic := _ }) { h with } ha reply).mono
      (fun _ => id) ?_
    rintro _ ⟨rfl, bytes, rfl, hl⟩
    exact ⟨rfl, ha, bytes, rs, hr, hl⟩

theorem execIngPop_yields {s : State} (h : BlockInv s) : Yields noFault noRefusal (execIngPop s) := by
  rcases execIngPop_of_inv h with ⟨-, he⟩ | ⟨b, -, hne, he⟩ <;> rw [he]
  · exact h.responded_rewound _
  · exact h.responded_advanced hne _

/-! ### The deframer -/

/-- A range whose bytes all hold a value can be read. -/
theorem memReadAll_ne_none {m : Memory} {base n : Nat} (h : ∀ i, i < n → (memRead m (base + i)).isSome = true) :
    memReadAll m base n ≠ none := by
  induction n generalizing base with
  | zero => simp [memReadAll]
  | succ n ih =>
    obtain ⟨b, hb⟩ := Option.isSome_iff_exists.mp (h 0 (by omega))
    obtain ⟨bs, hbs⟩ := Option.ne_none_iff_exists'.mp <| ih (base := base + 1) fun i hi => by
      rw [show base + 1 + i = base + (i + 1) by omega]
      exact h (i + 1) (by omega)
    rw [Nat.add_zero] at hb
    rw [memReadAll, hb, hbs]
    exact Option.some_ne_none _

/-- The byte fed is among the bytes received (R24, R133). -/
theorem isSome_memRead_memWrite {m : Memory} {r : Nat} (b : Byte)
    (h : ∀ i, i < r → (memRead m i).isSome = true) :
    ∀ i, i < r + 1 → (memRead (memWrite m r b) i).isSome = true := by
  intro i hi
  rw [memRead_memWrite]
  split
  · rfl
  · exact h i (by omega)

/-- A byte stored in `FB` within its size keeps the store's form. -/
theorem frameStore_memWrite {m : Memory} (h : Memory.wf m ∧ ∀ c ∈ m, c.1 < 256) {r : Nat} (hr : r < 256)
    (b : Byte) : Memory.wf (memWrite m r b) ∧ ∀ c ∈ memWrite m r b, c.1 < 256 :=
  ⟨memWrite_wf h.1 r b, memWriteAll_within (bs := [b]) h.2 hr⟩

theorem deframerInv_of_body {s : State} (h : BlockInv s) {e r : Nat} (hd : s.dfr = .body e r) :
    6 ≤ e ∧ e ≤ 255 ∧ r < e ∧ ∀ i, i < r → (memRead s.fb i).isSome = true := by
  have := h.deframer
  rwa [deframerInv, hd] at this

theorem execDfrFeed_yields {s : State} (h : BlockInv s) (b : Byte) :
    Yields noFault noRefusal (execDfrFeed b s) := by
  rcases execDfrFeed_eq b s with ⟨d, resp, -, hd, he⟩ | ⟨e, r, hd, hr, hmore, he⟩ |
    ⟨e, r, f, hd, hr, -, -, he⟩ | ⟨e, r, hd, hr, -⟩ | ⟨e, r, hd, -, hlast, habsent, -⟩
  · rw [he]
    refine { h with deframer := ?_, waiting := trivial }
    rcases hd with rfl | rfl | rfl | ⟨rfl, hlong⟩
    · trivial
    · trivial
    · trivial
    · exact ⟨hlong, by have := b.isLt; omega, by omega, fun i hi => absurd hi (Nat.not_lt_zero i)⟩
  · obtain ⟨hlow, hhigh, hlt, hbytes⟩ := deframerInv_of_body h hd
    rw [he]
    exact { h with
      frameStore := frameStore_memWrite h.frameStore hr b
      deframer := ⟨hlow, hhigh, by omega, isSome_memRead_memWrite b hbytes⟩
      waiting := trivial }
  · rw [he]
    exact { h with
      frameStore := frameStore_memWrite h.frameStore hr b
      deframer := trivial
      waiting := trivial }
  · obtain ⟨-, hhigh, hlt, -⟩ := deframerInv_of_body h hd
    omega
  · obtain ⟨-, -, -, hbytes⟩ := deframerInv_of_body h hd
    refine absurd habsent (memReadAll_ne_none fun i hi => ?_)
    rw [Nat.zero_add]
    exact isSome_memRead_memWrite b hbytes i (by omega)

/-! ### The CAN table -/

/-- The table holds one entry a source, and no more entries and no longer buffers than its capacities (R35). -/
def TableInv (p : Params) (t : CanTable) : Prop :=
  keysRising t ∧ t.length ≤ p.numSources ∧ ∀ c ∈ t, c.2.length ≤ p.maxPacket

/-- A buffer in range is set in an entry that is there, or in a free slot. -/
theorem TableInv.canSet {p : Params} {t : CanTable} (h : TableInv p t) {src : Nat} {buf : Bytes}
    (hslot : canGet t src = none → t.length < p.numSources) (hlen : buf.length ≤ p.maxPacket) :
    TableInv p (canSet t src buf) := by
  obtain ⟨hrising, hsize, hbuf⟩ := h
  refine ⟨keysRising_keySet hrising src buf, ?_, fun c hc => ?_⟩
  · show (keySet t src buf).length ≤ _
    rw [keySet_length hrising]
    split
    · exact hslot ‹_›
    · exact hsize
  · rcases mem_keySet hc with rfl | hc
    · exact hlen
    · exact hbuf c hc

theorem TableInv.canErase {p : Params} {t : CanTable} (h : TableInv p t) (src : Nat) : TableInv p (canErase t src) := by
  obtain ⟨hrising, hsize, hbuf⟩ := h
  have hsub := keyErase_sublist t src
  exact ⟨keysRising_keyErase hrising src, hsub.length_le.trans hsize, fun c hc => hbuf c (hsub.subset hc)⟩

/-- A table in range keeps the invariant. -/
theorem BlockInv.setCan {s : State} (h : BlockInv s) {tbl : CanTable} (ht : TableInv s.cfg tbl) :
    BlockInv (s.setCan tbl) :=
  { h with table := ht }

/-- Steps 5 to 7 on a source that has its entry (R186 to R189). -/
theorem orderCheck_yields {f : Fragment} {s : State} (h : BlockInv s) (hentry : canGet s.canTable f.src ≠ none)
    (buf : Bytes) : Yields noFault noRefusal (orderCheck f buf s) := by
  have set : ∀ {buf : Bytes}, buf.length ≤ s.cfg.maxPacket → BlockInv (s.setCan (canSet s.canTable f.src buf)) :=
    fun hlen => h.setCan (TableInv.canSet h.table (fun hnone => absurd hnone hentry) hlen)
  rw [orderCheck_eq]
  split
  · split
    · exact h.responded _
    · split
      · exact (h.setCan (TableInv.canErase h.table f.src)).responded _
      · exact (set (by rw [List.length_append]; omega)).responded _
  · split
    · exact h.responded _
    · exact (set (Nat.zero_le _)).responded _

/-- Step 4 on a source that has its entry (R185). -/
theorem restart_yields {f : Fragment} {s : State} (h : BlockInv s) (hentry : canGet s.canTable f.src ≠ none)
    (buf : Bytes) : Yields noFault noRefusal (restart f buf s) := by
  unfold restart
  split
  · exact orderCheck_yields
      (h.setCan (TableInv.canSet h.table (fun hnone => absurd hnone hentry) (Nat.zero_le _)))
      (by simp [canGet, canSet]) []
  · exact orderCheck_yields h hentry buf

/-- Steps 2 to 7 (R183 to R189): a new entry takes a free slot. -/
theorem offerFragment_yields {s : State} (h : BlockInv s) (f : Fragment) :
    Yields noFault noRefusal (offerFragment f s) := by
  unfold offerFragment
  split
  · exact h.responded _
  · unfold lookup
    split
    next buf hentry => exact restart_yields h (by rw [hentry]; exact Option.some_ne_none buf) buf
    next hnew =>
      split
      · exact h.responded _
      · have hsize := h.table.2.1
        exact restart_yields (h.setCan (TableInv.canSet h.table (fun _ => by omega) (Nat.zero_le _)))
          (by simp [canGet, canSet]) []

theorem execCanRx_yields {s : State} (h : BlockInv s) (ide rtr : Bool) (rsv : BitVec 6) (id : Word) (dlc : Byte)
    (data : Bytes) : Yields noFault noRefusal (execCanRx ide rtr rsv id dlc data s) := by
  rw [execCanRx, guardOperands_eq]
  split
  · exact h.responded _
  · unfold receive
    split
    · exact h.responded _
    · exact offerFragment_yields h _

/-! ### The sends -/

theorem waitingInv_of_sendEnd {s t : State} (h : SendEnd s t) : waitingInv t := by
  unfold waitingInv
  cases h with
  | waitsWrite rest seq hp hne => rw [hp]; exact hne
  | waitsFlush rest seq hp => rw [hp]; trivial
  | sent seq hp => rw [hp]; trivial
  | failed e hp => rw [hp]; trivial

/-- A step of a send touches nothing the invariant speaks of but the waiting operation. -/
theorem BlockInv.of_sendEffect {s t : State} (h : BlockInv s) (he : SendEffect s t) : BlockInv t := by
  have hwait := waitingInv_of_sendEnd he.ending
  obtain ⟨hcfg, hdfr, hfb, hingS, hhead, htail, hlen, -, htable, -⟩ := he
  cases t
  cases hcfg; cases hdfr; cases hfb; cases hingS; cases hhead; cases htail; cases hlen; cases htable
  exact { h with waiting := hwait }

theorem execMsgDecode_yields {s : State} (h : BlockInv s) (dest : Byte) (data : Bytes) :
    Yields noFault noRefusal (execMsgDecode dest data s) := by
  rw [execMsgDecode, guardOperands_eq]
  split
  · exact h.responded _
  · exact h.responded _

/-! ### Every operation -/

/-- The operation takes a reply outside its collaborator's liberties: a read of more than `C` bytes (R118), or a claim
of more than is unsent (R163). -/
def takesDeviantReply (i : Instr) (s : State) (r : Refusal) : Prop :=
  (r = .overlongRead ∧ i = .ingPush ∧ admitted s ∧
    ∃ bytes rs, s.readReplies = .ok bytes :: rs ∧ bytes.length > s.cfg.chunk) ∨
  (r = .overclaimedWrite ∧ ∃ dest data, legalSend s i dest data ∧
    overclaims (wireFrame s.cfg.hwid s.txSeq dest data) s.writeReplies s.flushReplies)

theorem exec_send_yields {s : State} (h : BlockInv s) {i : Instr} (hi : isSend i) :
    Yields noFault (takesDeviantReply i s) (exec i s) := by
  rcases exec_send_rejected_or_legal hi s with ⟨resp, he⟩ | ⟨dest, data, hlegal⟩
  · rw [he]
    exact h.responded resp
  · rcases exec_legalSend_cases hlegal with ⟨he, hclaim⟩ | ⟨t, he, effect⟩ <;> rw [he]
    · exact .inr ⟨rfl, dest, data, hlegal, hclaim⟩
    · have hoffered : BlockInv (s.bumped.log (.write (wireFrame s.cfg.hwid s.txSeq dest data))) := { h with }
      exact hoffered.of_sendEffect effect

theorem exec_yields {s : State} (h : BlockInv s) (i : Instr) :
    Yields noFault (takesDeviantReply i s) (exec i s) := by
  have quiet : Yields noFault noRefusal (exec i s) → Yields noFault (takesDeviantReply i s) (exec i s) :=
    fun hy => hy.mono (fun _ => id) fun _ => False.elim
  cases i with
  | ingPush =>
    refine (execIngPush_yields h).mono (fun _ => id) ?_
    rintro _ ⟨rfl, ha, hr⟩
    exact .inl ⟨rfl, rfl, ha, hr⟩
  | ingPop => exact quiet (execIngPop_yields h)
  | dfrFeed b => exact quiet (execDfrFeed_yields h b)
  | dfrReset => exact { h with deframer := trivial, waiting := trivial }
  | msgDecode dest data => exact quiet (execMsgDecode_yields h dest data)
  | txSend dest data => exact exec_send_yields h (.inl ⟨dest, data, rfl⟩)
  | txCmd c => exact exec_send_yields h (.inr ⟨c, rfl⟩)
  | canRx ide rtr rsv id dlc data => exact quiet (execCanRx_yields h ide rtr rsv id dlc data)

/-- Settles O16: the next state is one of the invariant, whose two shapes order `ING_HEAD` and `ING_LEN` differently. -/
theorem oneShapeAfterEveryOperation : Obligations.OneShapeAfterEveryOperation := by
  intro i s t h hexec
  have ht : Yields noFault (takesDeviantReply i s) (.next t) := hexec ▸ exec_yields h i
  have hshape : linearShape t ∨ wrappedShape t := BlockInv.shape ht
  omega

/-! ### The request at the port -/

theorem decodeOperands_error {o : Op} {args : Bytes} {e : DecodeError} (h : decodeOperands o args = .error e) :
    e = .badLength := by
  unfold decodeOperands at h
  split at h
  all_goals try split at h
  all_goals cases h
  all_goals rfl

/-- Only the empty byte string is no request (R80). -/
theorem decode_eq_emptyRequest {req : Bytes} (h : decode req = .error .emptyRequest) : req = [] := by
  cases req with
  | nil => rfl
  | cons op args =>
    rw [decode_cons] at h
    split at h
    · cases h
    · cases decodeOperands_error h

/-- A decoded request is the one its operation encodes to. -/
theorem encode_of_decode {req : Bytes} {i : Instr} (h : decode req = .ok i) : encode i = req := by
  cases req with
  | nil => cases h
  | cons op args =>
    rw [decode_cons] at h
    split at h
    · cases h
    next o ho =>
      obtain ⟨hop, hargs, -⟩ := decodeOperands_ok h
      rw [encode, hop, hargs, opcodeByte_of_opOfByte ho]

theorem serve_yields {s : State} (h : BlockInv s) (req : Bytes) :
    Yields noFault
      (fun r => (r = .emptyRequest ∧ req = []) ∨ ∃ i, decode req = .ok i ∧ takesDeviantReply i s r)
      (serve req s) := by
  unfold serve
  split
  next i hi => exact (exec_yields h i).mono (fun _ => id) fun r hr => .inr ⟨i, hi, hr⟩
  · exact h.responded _
  · exact h.responded _
  next he => exact .inl ⟨rfl, decode_eq_emptyRequest he⟩

/-! ### What stops a step -/

/-- The fault of an operation that waits without a reply (R214; log 3). -/
def stuckIn (s : State) (f : Fault) : Prop :=
  (f = .stuckRead ∧ s.pending = some .read ∧ s.readReplies = []) ∨
  (f = .stuckWrite ∧ (∃ rest seq, s.pending = some (.write rest seq)) ∧ s.writeReplies = []) ∨
  (f = .stuckFlush ∧ (∃ rest seq, s.pending = some (.flush rest seq)) ∧ s.flushReplies = [])

/-- The refusal of a reply outside a collaborator's liberties, or of an empty request (R118, R163; log 9). -/
def refusedIn (s : State) (r : Refusal) : Prop :=
  (r = .overlongRead ∧ overlongReply s) ∨
  (r = .overclaimedWrite ∧ overclaimedReply s) ∨
  (r = .emptyRequest ∧ s.pending = none ∧ ∃ rest, s.requests = [] :: rest)

section
variable {s : State} (h : BlockInv s)
include h

theorem resumeRead_yields (hp : s.pending = some .read) : Yields (stuckIn s) (refusedIn s) (resumeRead s) := by
  have ha : admitted s := by
    have := h.waiting
    rwa [waitingInv, hp] at this
  unfold resumeRead
  split
  next hr => exact .inl ⟨rfl, hp, hr⟩
  next reply rs hr =>
    refine (finishRead_yields (s := s.tookRead reply rs) { h with } ha reply).mono (fun _ => False.elim) ?_
    rintro _ ⟨rfl, bytes, rfl, hl⟩
    exact .inl ⟨rfl, ⟨bytes, rs, hr, hl⟩, .inl hp⟩

theorem resumeWrite_yields {rest : Bytes} {seq : Half} (hp : s.pending = some (.write rest seq)) :
    Yields (stuckIn s) (refusedIn s) (resumeWrite rest seq s) := by
  have hne : rest ≠ [] := by
    have := h.waiting
    rwa [waitingInv, hp] at this
  unfold resumeWrite
  split
  next hw => exact .inr (.inl ⟨rfl, ⟨rest, seq, hp⟩, hw⟩)
  next w ws hw =>
    rcases awaitWrite_cases seq (w :: ws) s hne hw with ⟨he, hclaim⟩ | ⟨t, he, effect⟩ <;> rw [he]
    · exact .inr (.inl ⟨rfl, .inl ⟨rest, seq, hp, hw ▸ hclaim⟩⟩)
    · exact h.of_sendEffect effect

theorem resumeFlush_yields {rest : Bytes} {seq : Half} (hp : s.pending = some (.flush rest seq)) :
    Yields (stuckIn s) (refusedIn s) (resumeFlush rest seq s) := by
  unfold resumeFlush
  split
  next hf => exact .inr (.inr ⟨rfl, ⟨rest, seq, hp⟩, hf⟩)
  next =>
    rcases awaitFlush_cases (again := awaitWrite seq s.writeReplies rest) s (P := overclaims rest s.writeReplies)
        (fun u hu hne => awaitWrite_cases seq s.writeReplies u hne hu) with
      ⟨he, fs, hf, hclaim⟩ | ⟨t, he, effect⟩ <;> rw [he]
    · exact .inr (.inl ⟨rfl, .inr (.inl ⟨rest, seq, fs, hp, hf, hclaim⟩)⟩)
    · exact h.of_sendEffect effect

theorem idle_yields (hp : s.pending = none) : Yields (stuckIn s) (refusedIn s) (idle s) := by
  unfold idle
  split
  · exact h
  next req rest hreq =>
    refine (serve_yields (s := { s with requests := rest }) { h with } req).mono (fun _ => False.elim) ?_
    rintro r (⟨rfl, rfl⟩ | ⟨i, hi, ⟨rfl, rfl, ha, hread⟩ | ⟨rfl, dest, data, hlegal, hclaim⟩⟩)
    · exact .inr (.inr ⟨rfl, hp, rest, hreq⟩)
    · have hpush : req = [0x01] := (encode_of_decode hi).symm
      exact .inl ⟨rfl, hread, .inr ⟨hp, ⟨rest, hpush ▸ hreq⟩, ha⟩⟩
    · exact .inr (.inl ⟨rfl, .inr (.inr ⟨req, rest, i, dest, data, hp, hreq, hi, hlegal, hclaim⟩)⟩)

/-- One step from the invariant: a next state of it, or one of the stops that a collaborator or the host brings
about. -/
theorem step_yields : Yields (stuckIn s) (refusedIn s) (step s) := by
  unfold step
  split
  next p hp =>
    cases p with
    | read => exact resumeRead_yields h hp
    | write rest seq => exact resumeWrite_yields h hp
    | flush rest seq => exact resumeFlush_yields h hp
  next hp => exact idle_yields h hp

end

/-- Settles O51: a next state is all that `step_yields` leaves. -/
theorem stepKeepsInvariant : Obligations.StepKeepsInvariant := by
  intro s t h hstep
  have ht := step_yields h
  rwa [hstep] at ht

/-! ### The stops do stop a step -/

theorem step_of_stuckIn {s : State} {f : Fault} (h : stuckIn s f) : step s = .fault f := by
  rcases h with ⟨rfl, hp, hr⟩ | ⟨rfl, ⟨rest, seq, hp⟩, hw⟩ | ⟨rfl, ⟨rest, seq, hp⟩, hf⟩
  · simp only [step, hp, resume, resumeRead, hr]
  · simp only [step, hp, resume, resumeWrite, hw]
  · simp only [step, hp, resume, resumeFlush, hf]

theorem step_of_request {s : State} {req : Bytes} {rest : List Bytes} (hp : s.pending = none)
    (hreq : s.requests = req :: rest) : step s = serve req { s with requests := rest } := by
  simp only [step, hp, idle, hreq]

theorem step_of_decode {s : State} {req : Bytes} {rest : List Bytes} {i : Instr} (hp : s.pending = none)
    (hreq : s.requests = req :: rest) (hi : decode req = .ok i) : step s = exec i { s with requests := rest } := by
  rw [step_of_request hp hreq, serve, hi]

theorem step_of_overlongReply {s : State} (h : overlongReply s) : step s = .refused .overlongRead := by
  obtain ⟨⟨bytes, rs, hr, hl⟩, hp | ⟨hp, ⟨rest, hreq⟩, ha⟩⟩ := h
  · simp only [step, hp, resume, resumeRead, hr]
    exact if_pos hl
  · rw [step_of_decode (i := .ingPush) hp hreq rfl]
    exact (execIngPush_of_reply (s := { s with requests := rest }) ha hr).trans (if_pos hl)

/-- Bytes that are claimed in excess are bytes still to be written. -/
theorem ne_nil_of_overclaims {rest : Bytes} {ws : List WriteReply} {fs : List FlushReply}
    (h : overclaims rest ws fs) : rest ≠ [] := by
  obtain ⟨ks, _, _, _, hlt, -⟩ := h
  rintro rfl
  exact Nat.not_lt_zero _ hlt

/-- A claim is a reply. -/
theorem writeReplies_ne_nil_of_overclaims {rest : Bytes} {ws : List WriteReply} {fs : List FlushReply}
    (h : overclaims rest ws fs) : ws ≠ [] := by
  obtain ⟨ks, k, ws', _, -, -, rfl, -⟩ := h
  simp

theorem step_of_overclaimedReply {s : State} (h : overclaimedReply s) : step s = .refused .overclaimedWrite := by
  rcases h with ⟨rest, seq, hp, hclaim⟩ | ⟨rest, seq, fs, hp, hf, hclaim⟩ |
    ⟨req, rest, i, dest, data, hp, hreq, hi, hlegal, hclaim⟩
  · obtain ⟨w, ws, hw⟩ := List.exists_cons_of_ne_nil (writeReplies_ne_nil_of_overclaims hclaim)
    simp only [step, hp, resume, resumeWrite, hw]
    exact awaitWrite_of_overclaims seq (hw ▸ hclaim)
  · have hne : rest.isEmpty = false := by simpa using ne_nil_of_overclaims hclaim
    simp only [step, hp, resume, resumeFlush, awaitFlush, hf, hne]
    exact awaitWrite_of_overclaims seq hclaim
  · obtain ⟨hl, hexec⟩ := exec_of_legalSend (s := { s with requests := rest }) hlegal
    rw [step_of_decode hp hreq hi, hexec]
    rcases transmit_cases dest data { s with requests := rest } with ⟨hlong, -⟩ | ⟨-, he⟩
    · exact absurd hlong (Nat.not_lt.mpr hl)
    · exact he.trans (awaitWrite_of_overclaims _ hclaim)

theorem step_of_refusedIn {s : State} {r : Refusal} (h : refusedIn s r) : step s = .refused r := by
  rcases h with ⟨rfl, h⟩ | ⟨rfl, h⟩ | ⟨rfl, hp, rest, hreq⟩
  · exact step_of_overlongReply h
  · exact step_of_overclaimedReply h
  · exact step_of_request hp hreq

/-- Settles O53: the stops are all that `step_yields` leaves, and each of them does stop the step. -/
theorem onlySilenceStopsTheBlock : Obligations.OnlySilenceStopsTheBlock := by
  intro s h
  have hy := step_yields h
  refine ⟨fun f => ⟨fun hstep => ?_, step_of_stuckIn⟩, fun r => ⟨fun hstep => ?_, step_of_refusedIn⟩⟩
  · rwa [hstep] at hy
  · rwa [hstep] at hy

end Sys2Proof.Machine
end

section
/-! PROOFS of what the operations leave alone (20_memory.md R54 to R57, R168) and of the step that takes a request
(R56, 30_encoding.md R80, R88). -/

namespace Sys2Proof.Machine

/-- Settles O2: the step of a request that decodes is `exec` of what it decodes to. -/
theorem stepRunsDecodedRequest : Obligations.StepRunsDecodedRequest :=
  fun _ _ _ _ hp hreq hi => step_of_decode hp hreq hi

/-! ### The ingest buffer -/

theorem execIngPush_of_not_admitted {s : State} (h : ¬ admitted s) :
    execIngPush s = .next (responded s [0x02]) := by
  rcases execIngPush_eq s with ⟨-, he⟩ | ⟨ha, -⟩ | ⟨ha, -⟩
  · exact he
  · exact absurd ha h
  · exact absurd ha h

/-- Settles O8: a push that is not admitted ends with OVERFLOW. -/
theorem pushNotAdmittedOverflows : Obligations.PushNotAdmittedOverflows :=
  fun _ h => execIngPush_of_not_admitted h

/-- Only the ingest buffer, its byte source and the logs may differ, and the ingest buffer only in the `C` bytes from
`start` on, in `ING_HEAD` and in `ING_LEN` (R112, R113). -/
structure PushFrame (start : Nat) (s t : State) : Prop where
  outside : sameOutsideIngest s t
  tail : t.ingTail = s.ingTail
  region : ∀ a, a < start ∨ start + s.cfg.chunk ≤ a → memRead t.ingS a = memRead s.ingS a

theorem sameOutsideIngest_refl (s : State) : sameOutsideIngest s s :=
  ⟨⟨rfl, rfl⟩, ⟨fun _ => rfl, rfl⟩, rfl, fun _ => rfl, rfl, rfl⟩

/-- A write in the region of a push leaves the other bytes alone. -/
theorem memRead_memWriteAll_of_outside (m : Memory) {start n a : Nat} {bs : Bytes} (hn : bs.length ≤ n)
    (ha : a < start ∨ start + n ≤ a) : memRead (memWriteAll m start bs) a = memRead m a := by
  rw [memRead_memWriteAll, if_neg (by omega)]

theorem finishRead_frame {r : ReadReply} {s t : State} (h : finishRead r s = .next t) :
    PushFrame (ingStart s) s t := by
  have same := sameOutsideIngest_refl s
  have free : (freeBytes s s.cfg.chunk).length ≤ s.cfg.chunk := by rw [freeBytes_length]
  rcases finishRead_eq r s with ⟨_, -, -, he⟩ | ⟨_, -, hl, he⟩ | ⟨_, -, he⟩ | ⟨-, he⟩ <;> rw [he] at h <;> cases h
  · exact ⟨same, rfl, fun _ => memRead_memWriteAll_of_outside _ hl⟩
  · exact ⟨same, rfl, fun _ => memRead_memWriteAll_of_outside _ free⟩
  · exact ⟨same, rfl, fun _ => memRead_memWriteAll_of_outside _ free⟩

theorem execIngPush_frame {s t : State} (h : execIngPush s = .next t) : PushFrame (ingStart s) s t := by
  have same := sameOutsideIngest_refl s
  rcases execIngPush_eq s with ⟨-, he⟩ | ⟨-, -, he⟩ | ⟨-, r, rs, -, he⟩ <;> rw [he] at h
  · cases h
    exact ⟨same, rfl, fun _ _ => rfl⟩
  · cases h
    exact ⟨same, rfl, fun _ _ => rfl⟩
  · obtain ⟨outside, tail, region⟩ := finishRead_frame h
    exact ⟨outside, tail, region⟩

theorem execIngPop_frame {s t : State} (h : execIngPop s = .next t) :
    sameOutsideIngest s t ∧ sameCollaborators s t ∧ t.ingHead = s.ingHead ∧
      ∀ a, memRead t.ingS a = memRead s.ingS a := by
  have rewound : sameOutsideIngest s s.rewound ∧ sameCollaborators s s.rewound ∧ s.rewound.ingHead = s.ingHead ∧
      ∀ a, memRead s.rewound.ingS a = memRead s.ingS a := by
    simp [sameOutsideIngest, sameHost, sameDeframer, sameTable, sameCollaborators]
  rcases execIngPop_eq s with ⟨-, he⟩ | ⟨-, _, -, -, he⟩ | ⟨-, -, he⟩ <;> rw [he] at h <;> cases h
  · exact rewound
  · exact rewound

/-- Settles O17: the frames of the push and the pop. -/
theorem ingestFrames : Obligations.IngestFrames := by
  refine fun s t => ⟨fun h => ?_, execIngPop_frame⟩
  obtain ⟨outside, tail, region⟩ := execIngPush_frame h
  refine ⟨outside, tail, fun hna => ?_, ?_⟩
  · cases (execIngPush_of_not_admitted hna).symm.trans h
    exact ⟨⟨fun _ => rfl, rfl, rfl, rfl⟩, rfl, rfl, rfl, rfl⟩
  · rintro a _ rfl
    exact region a

/-! ### The deframer -/

/-- What both operations of the deframer leave alone. -/
def sameOutsideDeframer (s t : State) : Prop :=
  sameHost s t ∧ sameIngest s t ∧ t.txSeq = s.txSeq ∧ sameTable s t ∧ sameCollaborators s t

theorem sameOutsideDeframer_refl (s : State) : sameOutsideDeframer s s :=
  ⟨⟨rfl, rfl⟩, ⟨fun _ => rfl, rfl, rfl, rfl⟩, rfl, fun _ => rfl, rfl, rfl, rfl, rfl⟩

/-- A feed in `BODY(e, r)` stores at index `r` of `FB`, and any other feed stores nothing (41_deframer.md R133). -/
theorem execDfrFeed_frame {b : Byte} {s t : State} (h : execDfrFeed b s = .next t) :
    sameOutsideDeframer s t ∧
      ((∃ e r, s.dfr = .body e r ∧ t.fb = memWrite s.fb r b) ∨ ((∀ e r, s.dfr ≠ .body e r) ∧ t.fb = s.fb)) := by
  have same := sameOutsideDeframer_refl s
  rcases execDfrFeed_eq b s with ⟨d, _, hd, -, he⟩ | ⟨e, r, hd, -, -, he⟩ | ⟨e, r, _, hd, -, -, -, he⟩ |
    ⟨_, _, -, -, he⟩ | ⟨_, _, -, -, -, -, he⟩ <;> rw [he] at h <;> cases h
  · exact ⟨same, .inr ⟨hd, rfl⟩⟩
  · exact ⟨same, .inl ⟨e, r, hd, rfl⟩⟩
  · exact ⟨same, .inl ⟨e, r, hd, rfl⟩⟩

/-- Settles O25: a feed by its frame, and a reset by its one update. -/
theorem deframerFrames : Obligations.DeframerFrames := by
  refine fun s t => ⟨fun b h => ?_, fun h => ?_⟩
  · obtain ⟨⟨host, ingest, seq, table, collaborators⟩, stored⟩ := execDfrFeed_frame h
    refine ⟨host, ingest, seq, table, collaborators, fun e r hd a ha => ?_, fun hd a => ?_⟩
    · rcases stored with ⟨e', r', hd', hfb⟩ | ⟨hno, -⟩
      · rw [hd] at hd'
        cases hd'
        rw [hfb, memRead_memWrite, if_neg (Ne.symm ha)]
      · exact absurd hd (hno e r)
    · rcases stored with ⟨e, r, hd', -⟩ | ⟨-, hfb⟩
      · exact absurd hd' (hd e r)
      · rw [hfb]
  · cases h
    obtain ⟨host, ingest, seq, table, collaborators⟩ := sameOutsideDeframer_refl s
    exact ⟨host, ingest, seq, table, collaborators, fun _ => rfl⟩

/-! ### The sends -/

/-- A send that goes on leaves alone all but the counter, the sink's replies, the logs and the waiting operation. -/
theorem SendEffect.frame {s t : State} (h : SendEffect s t) :
    sameHost s t ∧ sameIngest s t ∧ sameDeframer s t ∧ sameTable s t ∧ t.readReplies = s.readReplies ∧
      t.freeCount = s.freeCount :=
  ⟨⟨h.cfg, h.requests⟩, ⟨fun _ => by rw [h.ingS], h.ingHead, h.ingTail, h.ingLen⟩, ⟨fun _ => by rw [h.fb], h.dfr⟩,
    fun _ => by rw [h.canTable], h.readReplies, h.freeCount⟩

/-- Settles O39: a send that fails its checks only answers, and any other has the effect of the send loop. -/
theorem sendFrames : Obligations.SendFrames := by
  intro s t i hi h
  rcases exec_send_rejected_or_legal hi s with ⟨_, he⟩ | ⟨_, _, hlegal⟩
  · rw [he] at h
    cases h
    exact ⟨⟨rfl, rfl⟩, ⟨fun _ => rfl, rfl, rfl, rfl⟩, ⟨fun _ => rfl, rfl⟩, fun _ => rfl, rfl, rfl⟩
  · rcases exec_legalSend_cases hlegal with ⟨he, -⟩ | ⟨_, he, effect⟩ <;> rw [he] at h <;> cases h
    exact effect.frame

/-! ### The CAN reassembler -/

theorem canGet_canSet_of_ne (t : CanTable) {src k : Nat} (buf : Bytes) (h : k ≠ src) :
    canGet (canSet t src buf) k = canGet t k := by
  rw [canGet, canSet, keyGet_keySet, if_neg (Ne.symm h), canGet]

theorem canGet_canErase_of_ne {t : CanTable} (ht : keysRising t) {src k : Nat} (h : k ≠ src) :
    canGet (canErase t src) k = canGet t k := by
  rw [canGet, canErase, keyGet_keyErase ht, if_neg (Ne.symm h), canGet]

/-- Settles O48: of the table, only the entry of the frame's source is set or removed. -/
theorem canFrames : Obligations.CanFrames := by
  intro s t ide rtr rsv id dlc data h
  obtain ⟨tbl, _, he, htbl⟩ := execCanRx_cases ide rtr rsv id dlc data s
  cases he.symm.trans h
  refine ⟨⟨rfl, rfl⟩, ⟨fun _ => rfl, rfl, rfl, rfl⟩, ⟨fun _ => rfl, rfl⟩, rfl, ⟨rfl, rfl, rfl, rfl⟩,
    fun hrising k hk => ?_⟩
  show canGet tbl k = canGet s.canTable k
  rcases htbl with rfl | ⟨buf, rfl⟩ | ⟨rfl | rfl, -⟩
  · rfl
  · exact canGet_canSet_of_ne _ buf hk
  · rw [canGet_canErase_of_ne (t := canSet ..) (keysRising_keySet hrising ..) hk, canGet_canSet_of_ne _ [] hk]
  · exact canGet_canErase_of_ne hrising hk

end Sys2Proof.Machine
end

section
/-! PROOFS that the operations of the serial engine have nothing to do with the CAN table, the response log and the
operation that waited before them, nor the CAN engine with anything but its table, so that they commute (20_memory.md
R63). -/

namespace Sys2Proof.Machine

/-- What `f` makes of the next state of a result. -/
def onNext (f : State → State) : Result → Result
  | .next t => .next (f t)
  | .fault x => .fault x
  | .refused x => .refused x

theorem eq_next_of_onNext {f : State → State} {r : Result} {t : State} (h : onNext f r = .next t) :
    ∃ u, r = .next u ∧ f u = t := by
  cases r with
  | next u => exact ⟨u, rfl, Host.Outcome.next.inj h⟩
  | fault x => cases h
  | refused x => cases h

/-! ### The serial engine beside the CAN engine -/

/-- The state with the CAN table `tbl`, the responses `log` before its own, and `p` waiting. -/
def State.beside (s : State) (tbl : CanTable) (log : List Bytes) (p : Option Pending) : State :=
  { s with canTable := tbl, responses := log ++ s.responses, pending := p }

/-- The run reads neither the CAN table nor the response log nor what waited before. It keeps the table and adds to the
log, and what waits after it is its own. -/
def BesideCan (run : State → Result) : Prop :=
  ∀ (s : State) (tbl : CanTable) (log : List Bytes) (p : Option Pending),
    run (s.beside tbl log p) = onNext (fun t => t.beside tbl log t.pending) (run s)

/-- What waited before makes no difference. -/
theorem BesideCan.pending {run : State → Result} (h : BesideCan run) (s : State) (p : Option Pending) :
    run { s with pending := p } = run s :=
  (h s s.canTable [] p).trans (h s s.canTable [] s.pending).symm

theorem BesideCan.ite {c : State → Prop} [∀ s, Decidable (c s)] {run run' : State → Result}
    (hc : ∀ s tbl log p, c (State.beside s tbl log p) ↔ c s) (h : BesideCan run) (h' : BesideCan run') :
    BesideCan fun s => if c s then run s else run' s := by
  intro s tbl log p
  simp only [hc]
  split
  · exact h s tbl log p
  · exact h' s tbl log p

theorem BesideCan.comp {run : State → Result} {update : State → State} (h : BesideCan run)
    (hu : ∀ s tbl log p, update (State.beside s tbl log p) = (update s).beside tbl log p) :
    BesideCan fun s => run (update s) := by
  intro s tbl log p
  simp only [hu]
  exact h (update s) tbl log p

theorem besideCan_respond (r : Response) : BesideCan (respond · r) := fun s _ log _ => by
  simp [respond, onNext, State.answer, State.beside]

theorem besideCan_guardOperands (i : Instr) {own : State → Result} (h : BesideCan own) :
    BesideCan fun s => guardOperands i s (own s) :=
  .ite (fun _ _ _ _ => .rfl) (besideCan_respond _) h

/-! #### The ingest buffer -/

theorem besideCan_finishRead (r : ReadReply) : BesideCan (finishRead r) := by
  cases r with
  | ok bytes =>
    exact .ite (fun _ _ _ _ => .rfl) (fun _ _ _ _ => rfl)
      ((besideCan_respond _).comp (update := (·.stored bytes)) fun _ _ _ _ => rfl)
  | err e => exact (besideCan_respond _).comp fun _ _ _ _ => rfl
  | cancelled => exact (besideCan_respond _).comp fun _ _ _ _ => rfl

theorem besideCan_awaitRead : BesideCan awaitRead := by
  intro s tbl log p
  simp only [awaitRead, show (s.beside tbl log p).readReplies = s.readReplies from rfl]
  cases s.readReplies with
  | nil => rfl
  | cons r rs => exact besideCan_finishRead r (s.tookRead r rs) tbl log p

theorem besideCan_execIngPush : BesideCan execIngPush :=
  .ite (fun _ _ _ _ => .rfl) (besideCan_awaitRead.comp fun _ _ _ _ => rfl) (besideCan_respond _)

theorem beside_rewound (s : State) (tbl : CanTable) (log : List Bytes) (p : Option Pending) :
    (s.beside tbl log p).rewound = s.rewound.beside tbl log p := by
  by_cases h : s.ingTail ≥ s.ingLen ∧ s.ingHead < s.ingLen
  · rw [State.rewound_of_drained h, State.rewound_of_drained (s := s.beside tbl log p) h]
    rfl
  · rw [State.rewound_of_not_drained h, State.rewound_of_not_drained (s := s.beside tbl log p) h]

theorem besideCan_popByte : BesideCan popByte := by
  refine .ite (fun _ _ _ _ => .rfl) (besideCan_respond _) fun s tbl log p => ?_
  simp only [show ingByte (s.beside tbl log p) = ingByte s from rfl]
  cases ingByte s with
  | none => rfl
  | some b => exact besideCan_respond (.popped b) s.advanced tbl log p

theorem besideCan_execIngPop : BesideCan execIngPop := besideCan_popByte.comp beside_rewound

/-! #### The deframer and the decoder -/

theorem besideCan_setDfr (d : Dfr) (r : Response) : BesideCan fun s => respond (s.setDfr d) r :=
  (besideCan_respond r).comp fun _ _ _ _ => rfl

theorem besideCan_emitFrame (e : Nat) : BesideCan (emitFrame e) := by
  intro s tbl log p
  simp only [emitFrame, show (s.beside tbl log p).fb = s.fb from rfl]
  cases memReadAll s.fb 0 e with
  | none => rfl
  | some bytes => exact besideCan_setDfr _ _ s tbl log p

theorem besideCan_feedSync (p : Fin 2) (b : Byte) : BesideCan (feedSync p b) :=
  .ite (fun _ _ _ _ => .rfl)
    (.ite (fun _ _ _ _ => .rfl) (besideCan_setDfr _ _) (besideCan_setDfr _ _)) (besideCan_setDfr _ _)

theorem besideCan_feedLength (b : Byte) : BesideCan (feedLength b) :=
  .ite (fun _ _ _ _ => .rfl) (besideCan_setDfr _ _)
    (.ite (fun _ _ _ _ => .rfl) (besideCan_setDfr _ _) (besideCan_setDfr _ _))

theorem besideCan_feedBody (e r : Nat) (b : Byte) : BesideCan (feedBody e r b) :=
  .ite (fun _ _ _ _ => .rfl)
    (.ite (fun _ _ _ _ => .rfl) ((besideCan_emitFrame e).comp (update := (·.framed r b)) fun _ _ _ _ => rfl)
      ((besideCan_setDfr _ _).comp (update := (·.framed r b)) fun _ _ _ _ => rfl))
    fun _ _ _ _ => rfl

theorem besideCan_execDfrFeed (b : Byte) : BesideCan (execDfrFeed b) := by
  intro s tbl log p
  simp only [execDfrFeed, show (s.beside tbl log p).dfr = s.dfr from rfl]
  cases s.dfr with
  | sync q => exact besideCan_feedSync q b s tbl log p
  | length => exact besideCan_feedLength b s tbl log p
  | body e r => exact besideCan_feedBody e r b s tbl log p

/-! #### The sends -/

theorem besideCan_awaitFlush (rest : Bytes) (seq : Half) {again : State → Result} (h : BesideCan again) :
    BesideCan (awaitFlush rest seq again) := by
  intro s tbl log p
  simp only [awaitFlush, show (s.beside tbl log p).flushReplies = s.flushReplies from rfl]
  rcases s.flushReplies with _ | ⟨_ | e, fs⟩
  · rfl
  · exact BesideCan.ite (c := fun _ => rest.isEmpty = true) (fun _ _ _ _ => .rfl) (besideCan_respond (.sent seq))
      (h.comp (update := (·.log (.write rest))) fun _ _ _ _ => rfl) (s.tookFlush .ok fs) tbl log p
  · exact besideCan_respond _ (s.tookFlush (.err e) fs) tbl log p

theorem besideCan_awaitWrite (seq : Half) (ws : List WriteReply) (rest : Bytes) :
    BesideCan (awaitWrite seq ws rest) := by
  induction ws generalizing rest with
  | nil => exact fun _ _ _ _ => rfl
  | cons w ws ih =>
    cases w with
    | err e => exact (besideCan_respond _).comp fun _ _ _ _ => rfl
    | ok k =>
      exact .ite (fun _ _ _ _ => .rfl) (fun _ _ _ _ => rfl)
        ((besideCan_awaitFlush _ seq (ih (rest.drop k))).comp (update := fun s => (s.tookWrite (.ok k) ws).log .flush)
          fun _ _ _ _ => rfl)

theorem besideCan_transmit (dest : Byte) (data : Bytes) : BesideCan (transmit dest data) :=
  .ite (fun _ _ _ _ => .rfl) (besideCan_respond _) fun s =>
    let bytes := frameBytes s.cfg.hwid s.txSeq dest data
    besideCan_awaitWrite s.txSeq s.writeReplies bytes (s.bumped.log (.write bytes))

/-- Every operation of the serial engine. -/
theorem besideCan_exec {i : Instr} (hi : ∀ ide rtr rsv id dlc data, i ≠ .canRx ide rtr rsv id dlc data) :
    BesideCan (exec i) := by
  cases i with
  | ingPush => exact besideCan_execIngPush
  | ingPop => exact besideCan_execIngPop
  | dfrFeed b => exact besideCan_execDfrFeed b
  | dfrReset => exact besideCan_setDfr _ _
  | msgDecode dest data => exact besideCan_guardOperands _ (besideCan_respond _)
  | txSend dest data => exact besideCan_guardOperands _ (besideCan_transmit dest data)
  | txCmd c => exact besideCan_guardOperands _ (besideCan_transmit _ [c])
  | canRx ide rtr rsv id dlc data => exact absurd rfl (hi ide rtr rsv id dlc data)

/-! ### The CAN engine beside the serial engine -/

/-- The state `s` after the CAN engine, run in `v`, has left its table and its response. -/
def State.adopt (s v : State) : State :=
  { s with canTable := v.canTable, responses := s.responses ++ v.responses, pending := v.pending }

/-- The state of the CAN engine alone: the parameters and the table. -/
def State.canPart (s : State) : State := { State.resetWith s.cfg with canTable := s.canTable }

/-- The run does in `s` what it does in `v`. -/
def RunsAs (run : State → Result) (s v : State) : Prop := run s = onNext s.adopt (run v)

section
variable {s v : State} (htable : v.canTable = s.canTable) (hlog : v.responses = [])
include htable hlog

theorem fail_runsAs (f : Failure) : RunsAs (fail · f) s v := by
  simp [RunsAs, fail_eq, onNext, responded, State.adopt, hlog, htable]

variable (hcfg : v.cfg = s.cfg)
include hcfg

theorem orderCheck_runsAs (f : Fragment) (buf : Bytes) : RunsAs (orderCheck f buf) s v := by
  rw [RunsAs, orderCheck_eq, orderCheck_eq, hcfg, htable]
  split_ifs <;> simp [onNext, responded, State.adopt, hlog, htable]

theorem restart_runsAs (f : Fragment) (buf : Bytes) : RunsAs (restart f buf) s v := by
  rw [RunsAs, restart_eq, restart_eq, htable]
  let t := restartedTable f s.canTable
  exact orderCheck_runsAs (s := s.setCan t) (v := v.setCan t) rfl hlog hcfg f _

theorem lookup_runsAs (f : Fragment) : RunsAs (lookup f) s v := by
  unfold RunsAs lookup
  rw [htable, hcfg]
  split
  · exact restart_runsAs htable hlog hcfg f _
  · split
    · exact fail_runsAs htable hlog .sourceBufferFull
    · exact restart_runsAs (s := s.setCan (canSet s.canTable f.src [])) (v := v.setCan _) rfl hlog hcfg f []

theorem offerFragment_runsAs (f : Fragment) : RunsAs (offerFragment f) s v := by
  unfold RunsAs offerFragment
  rw [hcfg]
  split
  · exact fail_runsAs htable hlog .messageBufferFull
  · exact lookup_runsAs htable hlog hcfg f

theorem execCanRx_runsAs (ide rtr : Bool) (rsv : BitVec 6) (id : Word) (dlc : Byte) (data : Bytes) :
    RunsAs (execCanRx ide rtr rsv id dlc data) s v := by
  unfold RunsAs execCanRx guardOperands receive
  rw [hcfg]
  split
  · exact fail_runsAs htable hlog .badOperand
  · split
    · exact fail_runsAs htable hlog .couldNotDecode
    · exact offerFragment_runsAs htable hlog hcfg _

end

/-- A CAN frame is one response, and a table, that the CAN engine gives from its own part of the state. -/
theorem execCanRx_of_canPart (ide rtr : Bool) (rsv : BitVec 6) (id : Word) (dlc : Byte) (data : Bytes) (s : State) :
    ∃ tbl resp, ∀ u, u.canPart = s.canPart →
      execCanRx ide rtr rsv id dlc data u = .next (responded { u with canTable := tbl } resp) := by
  obtain ⟨tbl, resp, he, -⟩ := execCanRx_cases ide rtr rsv id dlc data s.canPart
  refine ⟨tbl, resp, fun u hu => ?_⟩
  have run := execCanRx_runsAs (s := u) (v := u.canPart) rfl rfl rfl ide rtr rsv id dlc data
  rw [RunsAs, hu, he] at run
  exact run

/-! ### What an operation says at its end -/

/-- An operation that is not a send ends with one response, or is a push that waits. -/
theorem exec_ends_of_not_send {i : Instr} {s t : State} (hi : ¬ isSend i) (h : exec i s = .next t) :
    (t.pending = none ∧ ∃ resp, t.responses = s.responses ++ [resp]) ∨ t.pending = some .read := by
  cases i with
  | ingPush =>
    rcases execIngPush_eq s with ⟨-, he⟩ | ⟨-, -, he⟩ | ⟨-, r, rs, -, he⟩
    · cases he.symm.trans h
      exact .inl ⟨rfl, _, rfl⟩
    · cases he.symm.trans h
      exact .inr rfl
    · replace h := he.symm.trans h
      rcases finishRead_eq r _ with ⟨_, -, -, he⟩ | ⟨_, -, -, he⟩ | ⟨_, -, he⟩ | ⟨-, he⟩ <;> cases he.symm.trans h
      all_goals exact .inl ⟨rfl, _, rfl⟩
  | ingPop =>
    rcases execIngPop_eq s with ⟨-, he⟩ | ⟨-, _, -, -, he⟩ | ⟨-, -, he⟩ <;> cases he.symm.trans h
    all_goals exact .inl ⟨rfl, _, congrArg (· ++ [_]) s.rewound_responses⟩
  | dfrFeed b =>
    rcases execDfrFeed_eq b s with ⟨_, _, -, -, he⟩ | ⟨_, _, -, -, -, he⟩ | ⟨_, _, _, -, -, -, -, he⟩ |
      ⟨_, _, -, -, he⟩ | ⟨_, _, -, -, -, -, he⟩ <;> cases he.symm.trans h
    all_goals exact .inl ⟨rfl, _, rfl⟩
  | dfrReset =>
    cases h
    exact .inl ⟨rfl, _, rfl⟩
  | msgDecode dest data =>
    replace h := (guardOperands_eq ..).symm.trans h
    split at h <;> cases h
    all_goals exact .inl ⟨rfl, _, rfl⟩
  | txSend dest data => exact absurd (.inl ⟨dest, data, rfl⟩) hi
  | txCmd c => exact absurd (.inr ⟨c, rfl⟩) hi
  | canRx ide rtr rsv id dlc data =>
    obtain ⟨_, _, he, -⟩ := execCanRx_cases ide rtr rsv id dlc data s
    cases he.symm.trans h
    exact .inl ⟨rfl, _, rfl⟩

/-- An operation that completes has given one response. -/
theorem exec_one_response {i : Instr} {s t : State} (h : exec i s = .next t) (hp : t.pending = none) :
    ∃ resp, t.responses = s.responses ++ [resp] := by
  by_cases hi : isSend i
  · rcases exec_send_rejected_or_legal hi s with ⟨resp, he⟩ | ⟨_, _, hlegal⟩
    · cases he.symm.trans h
      exact ⟨resp, rfl⟩
    · rcases exec_legalSend_cases hlegal with ⟨he, -⟩ | ⟨_, he, effect⟩ <;> cases he.symm.trans h
      cases effect.ending with
      | waitsWrite _ _ hw => rw [hp] at hw; cases hw
      | waitsFlush _ _ hw => rw [hp] at hw; cases hw
      | sent _ _ hresp => exact ⟨_, hresp⟩
      | failed _ _ hresp => exact ⟨_, hresp⟩
  · rcases exec_ends_of_not_send hi h with ⟨-, hresp⟩ | hw
    · exact hresp
    · rw [hp] at hw; cases hw

/-- An operation of the serial engine that completes leaves the CAN table alone, and does the same and answers the same
beside any other table and after any other responses. -/
theorem exec_completes_beside {i : Instr} {s a : State}
    (hi : ∀ ide rtr rsv id dlc data, i ≠ .canRx ide rtr rsv id dlc data) (h : exec i s = .next a)
    (hp : a.pending = none) :
    ∃ resp, a.canTable = s.canTable ∧ a.responses = s.responses ++ [resp] ∧ ∀ tbl log p,
      exec i { s with canTable := tbl, responses := log, pending := p } =
        .next { a with canTable := tbl, responses := log ++ [resp] } := by
  have run (tbl log p) : exec i { s with canTable := tbl, responses := log, pending := p } =
      onNext (fun t => t.beside tbl log t.pending) (exec i { s with responses := [] }) := by
    rw [← besideCan_exec hi _ tbl log p]
    simp [State.beside]
  obtain ⟨w, hw, rfl⟩ := eq_next_of_onNext ((run s.canTable s.responses s.pending).symm.trans h)
  obtain ⟨resp, hresp⟩ := exec_one_response hw hp
  refine ⟨resp, rfl, congrArg (s.responses ++ ·) hresp, fun tbl log p => ?_⟩
  rw [run, hw]
  simp [onNext, State.beside, hresp]

/-- Settles O50: the serial operation is the same beside the other table, and the CAN frame is the same from the CAN
engine's part, which the serial operation leaves alone. -/
theorem enginesCommute : Obligations.EnginesCommute := by
  intro i ide rtr rsv id dlc data s a c hi ha hp hc
  obtain ⟨tbl, rj, hcan⟩ := execCanRx_of_canPart ide rtr rsv id dlc data s
  obtain ⟨ri, htable, hresp, hserial⟩ := exec_completes_beside hi ha hp
  have hcfg : a.cfg = s.cfg := by rcases exec_settings ha with ⟨⟨h, -⟩⟩ | ⟨-, h, -⟩ <;> exact h
  cases (hcan s rfl).symm.trans hc
  refine ⟨_, _, ri, rj, hcan a ?_, hserial tbl (s.responses ++ [rj]) none, hresp, rfl, rfl, rfl, ?_⟩
  · rw [State.canPart, State.canPart, hcfg, htable]
  · simp [responded, hp]

end Sys2Proof.Machine
end

section
/-! PROOFS that an operation whose collaborator is silent waits, and goes on when the reply is there as if the reply had
been at hand (60_exceptions.md R214; logs 2, 3 and 14). -/

namespace Sys2Proof.Machine

/-! ### A push that waits -/

theorem step_offerRead_of_waiting {t : State} (hp : t.pending = some .read) (r : ReadReply) :
    step (offerRead r t) = awaitRead (offerRead r t) := by
  obtain ⟨q, qs, hr⟩ := List.exists_cons_of_ne_nil (l := (offerRead r t).readReplies) (by simp [offerRead])
  simp only [step, show (offerRead r t).pending = some .read from hp, resume, resumeRead, awaitRead, hr]

/-- Settles O12: the push and the step both go on with `awaitRead`, which does not look at what waits. -/
theorem waitingPushGoesOn : Obligations.WaitingPushGoesOn := by
  intro s ha hr
  rcases execIngPush_eq s with ⟨hna, -⟩ | ⟨-, -, he⟩ | ⟨-, _, _, hr', -⟩
  · exact absurd ha hna
  · refine ⟨(s.log (.read s.cfg.chunk)).wait .read, he, rfl, rfl, rfl, step_of_stuckIn (.inl ⟨rfl, rfl, hr⟩),
      fun r => ?_⟩
    calc step (offerRead r ((s.log (.read s.cfg.chunk)).wait .read))
        = awaitRead (((offerRead r s).log (.read s.cfg.chunk)).wait .read) := step_offerRead_of_waiting rfl r
      _ = awaitRead ((offerRead r s).log (.read s.cfg.chunk)) := besideCan_awaitRead.pending ..
      _ = execIngPush (offerRead r s) := (if_pos ((ingAdmit_iff (offerRead r s)).mpr ha)).symm
  · rw [hr] at hr'
    cases hr'

/-! ### A send that waits -/

/-- A frame has eight bytes before its payload (30_encoding.md R70). -/
theorem wireFrame_length (hwid seq : Half) (dest : Byte) (data : Bytes) :
    (wireFrame hwid seq dest data).length = data.length + 8 := by
  simp [wireFrame]

/-- A send whose sink gives no more replies to `Write` after good rounds waits for one (R163). -/
theorem exec_waits_for_write {s : State} {i : Instr} {dest : Byte} {data : Bytes} {ks : List Nat}
    {fs : List FlushReply} (hi : legalSend s i dest data) (hk : ks.sum < data.length + 8)
    (hw : s.writeReplies = ks.map .ok) (hf : s.flushReplies = List.replicate ks.length .ok ++ fs) :
    let frame := wireFrame s.cfg.hwid s.txSeq dest data
    exec i s = .next
      { s with txSeq := s.txSeq + 1, writeReplies := [], flushReplies := fs,
               traffic := s.traffic ++ goodRounds frame ks ++ [.write (frame.drop ks.sum)],
               pending := some (.write (frame.drop ks.sum) s.txSeq) } := by
  obtain ⟨hl, he⟩ := exec_of_legalSend hi
  rw [he]
  exact transmit_goodRounds (ws := []) hl hk (hw.trans (List.append_nil _).symm) hf

/-- A send whose sink gives no more replies to `Flush` after good rounds and one accepted write waits for one (R163). -/
theorem exec_waits_for_flush {s : State} {i : Instr} {dest : Byte} {data : Bytes} {ks : List Nat} {k : Nat}
    {ws : List WriteReply} (hi : legalSend s i dest data) (hk : ks.sum < data.length + 8)
    (hkk : ks.sum + k ≤ data.length + 8) (hw : s.writeReplies = ks.map .ok ++ .ok k :: ws)
    (hf : s.flushReplies = List.replicate ks.length .ok) :
    let frame := wireFrame s.cfg.hwid s.txSeq dest data
    exec i s = .next
      { s with txSeq := s.txSeq + 1, writeReplies := ws, flushReplies := [],
               traffic := s.traffic ++ goodRounds frame ks ++
                 [.write (frame.drop ks.sum), .writeReply (.ok k), .flush],
               pending := some (.flush (frame.drop (ks.sum + k)) s.txSeq) } := by
  intro frame
  obtain ⟨hl, he⟩ := exec_of_legalSend hi
  have hfits : ¬ k > (frame.drop ks.sum).length := by
    rw [List.length_drop, wireFrame_length]
    omega
  rw [he, transmit_goodRounds hl hk hw (hf.trans (List.append_nil _).symm)]
  refine (if_neg hfits).trans ?_
  simp [awaitFlush, State.log, State.tookWrite, State.wait, frame, List.drop_drop]

/-- When the run from `s` ends in `t` with a send waiting, the step that finds the reply does what the run from `s` does
when it finds the reply at hand. -/
structure GoesOn (run : State → Result) (s t : State) : Prop where
  write : ∀ rest seq, t.pending = some (.write rest seq) → ∀ w, step (offerWrite w t) = run (offerWrite w s)
  flush : ∀ rest seq, t.pending = some (.flush rest seq) → ∀ f, step (offerFlush f t) = run (offerFlush f s)

theorem goesOn_of_pending_none {run : State → Result} {s t : State} (h : t.pending = none) : GoesOn run s t :=
  ⟨fun _ _ hp => (nomatch h.symm.trans hp), fun _ _ hp => (nomatch h.symm.trans hp)⟩

/-- The run from `s` is a run from `u`, whatever replies come later. -/
theorem GoesOn.of_sameRun {run run' : State → Result} {s u t : State} (h : GoesOn run u t)
    (hw : ∀ w, run' (offerWrite w s) = run (offerWrite w u)) (hf : ∀ f, run' (offerFlush f s) = run (offerFlush f u)) :
    GoesOn run' s t :=
  ⟨fun rest seq hp w => (h.write rest seq hp w).trans (hw w).symm,
    fun rest seq hp f => (h.flush rest seq hp f).trans (hf f).symm⟩

/-! #### The send loop on the replies the state holds -/

/-- The loop from the reply to `Write(rest)` on. -/
def writeLoop (seq : Half) (rest : Bytes) (s : State) : Result := awaitWrite seq s.writeReplies rest s

/-- The loop from the reply to the `Flush` on that leaves `rest` to be written. -/
def flushLoop (seq : Half) (rest : Bytes) (s : State) : Result :=
  awaitFlush rest seq (awaitWrite seq s.writeReplies rest) s

section
variable (seq : Half) (rest : Bytes)

theorem besideCan_writeLoop : BesideCan (writeLoop seq rest) := fun s =>
  besideCan_awaitWrite seq s.writeReplies rest s

theorem besideCan_flushLoop : BesideCan (flushLoop seq rest) := fun s =>
  besideCan_awaitFlush rest seq (besideCan_awaitWrite seq s.writeReplies rest) s

theorem writeLoop_of_ok {s : State} {k : Nat} {ws : List WriteReply} (hk : k ≤ rest.length)
    (hw : s.writeReplies = .ok k :: ws) :
    writeLoop seq rest s = flushLoop seq (rest.drop k) ((s.tookWrite (.ok k) ws).log .flush) := by
  rw [writeLoop, hw]
  exact if_neg (Nat.not_lt.mpr hk)

theorem flushLoop_of_ok {s : State} {fs : List FlushReply} (hne : rest.isEmpty = false)
    (hf : s.flushReplies = .ok :: fs) :
    flushLoop seq rest s = writeLoop seq rest ((s.tookFlush .ok fs).log (.write rest)) := by
  simp only [flushLoop, awaitFlush, hf, hne]
  rfl

variable {seq rest}

theorem step_offerWrite_of_waiting {t : State} (hp : t.pending = some (.write rest seq)) (w : WriteReply) :
    step (offerWrite w t) = writeLoop seq rest (offerWrite w t) := by
  obtain ⟨q, qs, hw⟩ := List.exists_cons_of_ne_nil (l := (offerWrite w t).writeReplies) (by simp [offerWrite])
  simp only [step, show (offerWrite w t).pending = some (.write rest seq) from hp, resume, resumeWrite, writeLoop, hw]

theorem step_offerFlush_of_waiting {t : State} (hp : t.pending = some (.flush rest seq)) (f : FlushReply) :
    step (offerFlush f t) = flushLoop seq rest (offerFlush f t) := by
  obtain ⟨q, qs, hf⟩ := List.exists_cons_of_ne_nil (l := (offerFlush f t).flushReplies) (by simp [offerFlush])
  simp only [step, show (offerFlush f t).pending = some (.flush rest seq) from hp, resume, resumeFlush, flushLoop, hf]

theorem writeLoop_goesOn_wait (s : State) : GoesOn (writeLoop seq rest) s (s.wait (.write rest seq)) := by
  refine ⟨fun _ _ hp w => ?_, fun _ _ hp => nomatch hp⟩
  cases hp
  exact (step_offerWrite_of_waiting rfl w).trans ((besideCan_writeLoop seq rest).pending (offerWrite w s) _)

theorem flushLoop_goesOn_wait (s : State) : GoesOn (flushLoop seq rest) s (s.wait (.flush rest seq)) := by
  refine ⟨fun _ _ hp => (nomatch hp), fun _ _ hp f => ?_⟩
  cases hp
  exact (step_offerFlush_of_waiting rfl f).trans ((besideCan_flushLoop seq rest).pending (offerFlush f s) _)

/-- The flush half of a round, given what the next round does. -/
theorem flushLoop_goesOn {s t : State}
    (hagain : ∀ u, u.writeReplies = s.writeReplies → writeLoop seq rest u = .next t → GoesOn (writeLoop seq rest) u t)
    (h : flushLoop seq rest s = .next t) : GoesOn (flushLoop seq rest) s t := by
  rcases hf : s.flushReplies with _ | ⟨_ | e, fs⟩
  · simp only [flushLoop, awaitFlush, hf] at h
    cases h
    exact flushLoop_goesOn_wait s
  · cases hne : rest.isEmpty with
    | true =>
      simp only [flushLoop, awaitFlush, hf, hne] at h
      cases h
      exact goesOn_of_pending_none rfl
    | false =>
      rw [flushLoop_of_ok seq rest hne hf] at h
      exact (hagain ((s.tookFlush .ok fs).log (.write rest)) rfl h).of_sameRun
        (fun w => flushLoop_of_ok (s := offerWrite w s) seq rest hne hf)
        (fun f => flushLoop_of_ok seq rest hne (congrArg (· ++ [f]) hf))
  · simp only [flushLoop, awaitFlush, hf] at h
    cases h
    exact goesOn_of_pending_none rfl

end

theorem writeLoop_goesOn {seq : Half} {rest : Bytes} {s t : State} (h : writeLoop seq rest s = .next t) :
    GoesOn (writeLoop seq rest) s t := by
  induction hw : s.writeReplies generalizing rest s with
  | nil =>
    rw [writeLoop, hw] at h
    cases h
    exact writeLoop_goesOn_wait s
  | cons w ws ih =>
    cases w with
    | err e =>
      rw [writeLoop, hw] at h
      cases h
      exact goesOn_of_pending_none rfl
    | ok k =>
      by_cases hk : k > rest.length
      · rw [writeLoop, hw] at h
        exact nomatch (if_pos hk).symm.trans h
      · replace hk : k ≤ rest.length := Nat.not_lt.mp hk
        rw [writeLoop_of_ok seq rest hk hw] at h
        exact (flushLoop_goesOn (fun u hu hnext => ih hnext hu) h).of_sameRun
          (fun w => writeLoop_of_ok seq rest hk (congrArg (· ++ [w]) hw))
          (fun f => writeLoop_of_ok (s := offerFlush f s) seq rest hk hw)

/-! #### The operation -/

theorem exec_legalSend_eq {s : State} {i : Instr} {dest : Byte} {data : Bytes} (h : legalSend s i dest data) :
    exec i s = writeLoop s.txSeq (wireFrame s.cfg.hwid s.txSeq dest data)
      (s.bumped.log (.write (wireFrame s.cfg.hwid s.txSeq dest data))) := by
  obtain ⟨hl, he⟩ := exec_of_legalSend h
  rcases transmit_cases dest data s with ⟨hlong, -⟩ | ⟨-, heq⟩
  · exact absurd hlong (Nat.not_lt.mpr hl)
  · exact he.trans heq

theorem exec_goesOn_of_legalSend {s t : State} {i : Instr} {dest : Byte} {data : Bytes} (h : legalSend s i dest data)
    (he : exec i s = .next t) : GoesOn (exec i) s t :=
  (writeLoop_goesOn ((exec_legalSend_eq h).symm.trans he)).of_sameRun
    (fun w => exec_legalSend_eq (s := offerWrite w s) h) (fun f => exec_legalSend_eq (s := offerFlush f s) h)

/-- An operation that ends with a write or a flush waiting is a send that passed its checks. -/
theorem legalSend_of_waiting {i : Instr} {s t : State} (h : exec i s = .next t) (hnone : t.pending ≠ none)
    (hread : t.pending ≠ some .read) : ∃ dest data, legalSend s i dest data := by
  by_cases hi : isSend i
  · rcases exec_send_rejected_or_legal hi s with ⟨_, he⟩ | hlegal
    · cases he.symm.trans h
      exact absurd rfl hnone
    · exact hlegal
  · rcases exec_ends_of_not_send hi h with ⟨hp, -⟩ | hp
    · exact absurd hp hnone
    · exact absurd hp hread

/-- A waiting send is stuck: its sink has no reply left. -/
theorem silent_of_sendEnd {s t : State} (h : SendEnd s t) :
    (∀ rest seq, t.pending = some (.write rest seq) → t.writeReplies = []) ∧
      (∀ rest seq, t.pending = some (.flush rest seq) → t.flushReplies = []) := by
  cases h with
  | waitsWrite _ _ hp _ hsilent => exact ⟨fun _ _ _ => hsilent, fun _ _ hp' => (nomatch hp.symm.trans hp')⟩
  | waitsFlush _ _ hp hsilent => exact ⟨fun _ _ hp' => (nomatch hp.symm.trans hp'), fun _ _ _ => hsilent⟩
  | sent _ hp => exact ⟨fun _ _ hp' => (nomatch hp.symm.trans hp'), fun _ _ hp' => (nomatch hp.symm.trans hp')⟩
  | failed _ hp => exact ⟨fun _ _ hp' => (nomatch hp.symm.trans hp'), fun _ _ hp' => (nomatch hp.symm.trans hp')⟩

/-- An operation that ends with a write or a flush waiting is stuck without the reply, and goes on with it. -/
theorem exec_waiting {i : Instr} {s t : State} (h : exec i s = .next t) (hnone : t.pending ≠ none)
    (hread : t.pending ≠ some .read) :
    GoesOn (exec i) s t ∧ (∀ rest seq, t.pending = some (.write rest seq) → t.writeReplies = []) ∧
      (∀ rest seq, t.pending = some (.flush rest seq) → t.flushReplies = []) := by
  obtain ⟨dest, data, hlegal⟩ := legalSend_of_waiting h hnone hread
  rcases exec_legalSend_cases hlegal with ⟨he, -⟩ | ⟨_, he, effect⟩ <;> cases he.symm.trans h
  exact ⟨exec_goesOn_of_legalSend hlegal he, silent_of_sendEnd effect.ending⟩

/-- Settles O38: the good rounds lead to the waiting state, and the send loop goes on from it with the reply. -/
theorem waitingSendGoesOn : Obligations.WaitingSendGoesOn := by
  refine ⟨fun s i dest data ks fs => exec_waits_for_write, fun s i dest data ks k ws => exec_waits_for_flush,
    fun i s t rest seq h => ⟨fun hp => ?_, fun hp => ?_⟩⟩
  · obtain ⟨goesOn, silent, -⟩ := exec_waiting h (by simp [hp]) (by simp [hp])
    exact ⟨step_of_stuckIn (.inr (.inl ⟨rfl, ⟨rest, seq, hp⟩, silent rest seq hp⟩)), goesOn.write rest seq hp⟩
  · obtain ⟨goesOn, -, silent⟩ := exec_waiting h (by simp [hp]) (by simp [hp])
    exact ⟨step_of_stuckIn (.inr (.inr ⟨rfl, ⟨rest, seq, hp⟩, silent rest seq hp⟩)), goesOn.flush rest seq hp⟩

end Sys2Proof.Machine
end

section
/-! PROOFS of the port's encoding: decoder and encoder are inverse to each other (30_encoding.md R81 to R85), and what a
request that names no legal operation answers (R86, R87). -/

namespace Sys2Proof.Machine

/-! ### The decoder and the encoder -/

/-- The operand bytes of a well-formed instruction are read back as the instruction. -/
theorem decodeOperands_encodeOperands {i : Instr} (h : i.wellFormed = true) :
    decodeOperands (opOf i) (encodeOperands i) = .ok i := by
  cases i with
  | ingPush => rfl
  | ingPop => rfl
  | dfrFeed b => rfl
  | dfrReset => rfl
  | txCmd c => rfl
  | msgDecode dest data => exact if_pos (half_count_toNat (of_decide_eq_true h)).symm
  | txSend dest data => exact if_pos (half_count_toNat (of_decide_eq_true h)).symm
  | canRx ide rtr rsv id dlc data =>
    have hlen : data.length = kDataLength (flagRtr (flagsByte ide rtr rsv)) dlc := by
      rw [flagRtr_flagsByte]
      exact of_decide_eq_true h
    refine (if_pos hlen).trans ?_
    rw [flagIde_flagsByte, flagRtr_flagsByte, flagRsv_flagsByte, word_wordBytes]

/-- Each request has one reading, and each well-formed instruction one request. -/
theorem decode_eq_ok_iff {req : Bytes} {i : Instr} : decode req = .ok i ↔ i.wellFormed = true ∧ encode i = req := by
  constructor
  · intro h
    refine ⟨?_, encode_of_decode h⟩
    cases req with
    | nil => cases h
    | cons op args =>
      rw [decode_cons] at h
      split at h
      · cases h
      · obtain ⟨-, -, hwf⟩ := decodeOperands_ok h
        exact hwf
  · rintro ⟨hwf, rfl⟩
    rw [encode, decode_cons, opOfByte_opcodeByte]
    exact decodeOperands_encodeOperands hwf

/-- Settles O6: the operand bytes are read back field by field. -/
theorem decodeOfEncodeIsInstruction : Obligations.DecodeOfEncodeIsInstruction :=
  fun _ h => decode_eq_ok_iff.mpr ⟨h, rfl⟩

/-- Settles O7: the decoder accepts only what the encoder writes. -/
theorem encodeOfDecodeIsRequest : Obligations.EncodeOfDecodeIsRequest :=
  fun _ _ h => decode_eq_ok_iff.mp h

/-- Settles O1: each byte string is the request of its operation. -/
theorem requestWordsDecode : Obligations.RequestWordsDecode := by
  refine ⟨?_, ?_, ?_, ?_, ?_, ?_, ?_, ?_⟩ <;> exact decode_eq_ok_iff.mpr ⟨by decide, by decide⟩

/-! ### Reserved opcodes (R86) -/

theorem mem_definedOpcodes_iff {b : Byte} : b ∈ definedOpcodes ↔ ∃ o, opOfByte b = some o := by
  rw [← Option.ne_none_iff_exists', Ne, opOfByte_eq_none, not_not, definedOpcodes]

/-- The five ranges are what the opcode map leaves out. -/
theorem not_mem_definedOpcodes_iff : ∀ op : Byte, op ∉ definedOpcodes ↔
    op.toNat = 0x00 ∨ (0x03 ≤ op.toNat ∧ op.toNat ≤ 0x0F) ∨ (0x13 ≤ op.toNat ∧ op.toNat ≤ 0x1F) ∨
      (0x22 ≤ op.toNat ∧ op.toNat ≤ 0x2F) ∨ (0x31 ≤ op.toNat ∧ op.toNat ≤ 0xFF) := by
  decide

/-- Settles O4: the ranges by their finitely many bytes, the answer by the decoder's first test. -/
theorem reservedOpcodeAnswersIllegal : Obligations.ReservedOpcodeAnswersIllegal := by
  refine fun s op args rest => ⟨not_mem_definedOpcodes_iff op, fun hp hreq hop => ?_⟩
  rw [step_of_request hp hreq, serve, decode_cons, opOfByte_eq_none.mpr hop]
  rfl

/-! ### Malformed requests (R87) -/

/-- The length of R85, read off the request's bytes. -/
theorem formatLength_eq (o : Op) (args : Bytes) :
    formatLength (opcodeByte o :: args) = requestLength o (byteAt (opcodeByte o :: args)) := by
  cases o with
  | msgDecode => exact congrArg (4 + ·) (half_toNat ..).symm
  | txSend => exact congrArg (4 + ·) (half_toNat ..).symm
  | _ => rfl

/-- The request of a well-formed instruction has the length of R85. -/
theorem encode_length {i : Instr} (h : i.wellFormed = true) : (encode i).length = formatLength (encode i) := by
  have hlen : (encode i).length = requestLength (opOf i) (byteAt (encode i)) := by
    cases i with
    | ingPush => exact (Laws.Request.ingPush h).2
    | ingPop => exact (Laws.Request.ingPop h).2
    | dfrFeed b => exact (Laws.Request.dfrFeed b h).2
    | dfrReset => exact (Laws.Request.dfrReset h).2
    | msgDecode dest data => exact (Laws.Request.msgDecode dest data h).2
    | txSend dest data => exact (Laws.Request.txSend dest data h).2
    | txCmd c => exact (Laws.Request.txCmd c h).2
    | canRx ide rtr rsv id dlc data => exact (Laws.Request.canRx ide rtr rsv id dlc data h).2
  exact hlen.trans (formatLength_eq (opOf i) (encodeOperands i)).symm

/-- Operand bytes that make up the length of R85 are read: fewer than the fixed part of the format are too few for it,
whatever the count field is taken to be. -/
theorem decodeOperands_of_length {o : Op} {args : Bytes}
    (h : args.length + 1 = requestLength o (byteAt (opcodeByte o :: args))) :
    ∃ i, decodeOperands o args = .ok i := by
  cases o with
  | ingPush | ingPop | dfrReset =>
    obtain rfl := List.eq_nil_of_length_eq_zero (Nat.succ.inj h)
    exact ⟨_, rfl⟩
  | dfrFeed | txCmd =>
    obtain ⟨b, rfl⟩ := List.length_eq_one_iff.mp (Nat.succ.inj h)
    exact ⟨_, rfl⟩
  | msgDecode | txSend =>
    match args, h with
    | dest :: n0 :: n1 :: data, h =>
      replace h : data.length + 4 = 4 + (half n0 n1).toNat := h
      exact ⟨_, if_pos (by omega)⟩
    | [], h | [_], h | [_, _], h => simp [requestLength] at h; omega
  | canRx =>
    match args, h with
    | flags :: i0 :: i1 :: i2 :: i3 :: dlc :: data, h =>
      replace h : data.length + 7 = 7 + kDataLength (flagRtr flags) dlc := h
      exact ⟨_, if_pos (by omega)⟩
    | [], h | [_], h | [_, _], h | [_, _, _], h | [_, _, _, _], h | [_, _, _, _, _], h =>
      simp [requestLength] at h; omega

/-- A request with a defined opcode is an operation's, or it does not have the length of R85. -/
theorem decode_of_definedOpcode {req : Bytes} (h : byteAt req 0 ∈ definedOpcodes) :
    (∃ i, decode req = .ok i) ∨ (decode req = .error .badLength ∧ req.length ≠ formatLength req) := by
  cases req with
  | nil => exact absurd h (by decide)
  | cons op args =>
    obtain ⟨o, ho⟩ := mem_definedOpcodes_iff.mp h
    obtain rfl := opcodeByte_of_opOfByte ho
    have hdecode : decode (opcodeByte o :: args) = decodeOperands o args := by rw [decode_cons, opOfByte_opcodeByte]
    rw [hdecode, formatLength_eq]
    cases hargs : decodeOperands o args with
    | ok i => exact .inl ⟨i, rfl⟩
    | error e =>
      rw [decodeOperands_error hargs]
      refine .inr ⟨rfl, fun hlen => ?_⟩
      obtain ⟨i, hi⟩ := decodeOperands_of_length hlen
      cases hi.symm.trans hargs

theorem flagsByte_div_four_eq_zero : ∀ (ide rtr : Bool) (rsv : BitVec 6),
    (flagsByte ide rtr rsv).toNat / 4 = 0 ↔ rsv = 0 := by decide

/-- The identifier field of a format K request is the identifier. -/
theorem idField_encode (ide rtr : Bool) (rsv : BitVec 6) (id : Word) (dlc : Byte) (data : Bytes) :
    idField (encode (.canRx ide rtr rsv id dlc data)) = id.toNat :=
  (word_toNat ..).symm.trans (congrArg BitVec.toNat (word_wordBytes id))

/-- The request of a well-formed instruction meets one of the conditions of R87 exactly if its instruction does. -/
theorem malformedRequest_encode {i : Instr} (h : i.wellFormed = true) :
    malformedRequest (encode i) ↔ malformed i = true := by
  simp only [malformedRequest, encode_length h, malformed, h, Bool.true_and, ne_eq, not_true_eq_false, false_or]
  cases i with
  | txCmd c =>
    simp [encode, opOf, opcodeByte, byteAt, encodeOperands, operandsLegal, Config.cmdReboot, Config.cmdGetTelem]
  | canRx ide rtr rsv id dlc data =>
    rw [idField_encode]
    have hide : (flagsByte ide rtr rsv)[0] = ide := flagIde_flagsByte ide rtr rsv
    have hrsv := flagsByte_div_four_eq_zero ide rtr rsv
    cases ide <;>
      simp [encode, opOf, opcodeByte, byteAt, encodeOperands, operandsLegal, wordBytes, hide, hrsv, or_assoc]
  | _ => simp [encode, opOf, opcodeByte, byteAt, encodeOperands, operandsLegal]

/-- A malformed instruction answers BAD_OPERAND, whatever its operation (R87). -/
theorem exec_of_malformed {i : Instr} (h : malformed i = true) (s : State) :
    exec i s = .next (responded s [0xFD]) := by
  cases i with
  | msgDecode dest data => exact if_pos h
  | txSend dest data => exact if_pos h
  | txCmd c => exact if_pos h
  | canRx ide rtr rsv id dlc data => exact if_pos h
  | _ => cases h

/-- Settles O5: the decoder finds a length that differs from R85's, and `exec` the operand values of points 2 and 3. -/
theorem malformedRequestAnswersBadOperand : Obligations.MalformedRequestAnswersBadOperand := by
  intro s req rest hp hreq hop
  rcases decode_of_definedOpcode hop with ⟨i, hi⟩ | ⟨hbad, hlen⟩
  · obtain ⟨hwf, rfl⟩ := decode_eq_ok_iff.mp hi
    rw [malformedRequest_encode hwf, step_of_decode hp hreq hi]
    exact ⟨fun h => exec_of_malformed h _, fun h => ⟨i, hi, by simpa using h, rfl⟩⟩
  · refine ⟨fun _ => ?_, fun h => absurd (.inl hlen) h⟩
    rw [step_of_request hp hreq, serve, hbad]
    rfl

end Sys2Proof.Machine
end

section
/-! PROOFS of a send to a sink that takes the whole frame (42_encoder.md R163), of `tx.cmd` as a send (R166), and that
an operation gives one response with a status of R200 or waits (30_encoding.md R91, 60_exceptions.md R200, R204). -/

namespace Sys2Proof.Machine

/-! ### A send to a willing sink -/

/-- Settles O32: the loop leaves nothing to be written after its first write. -/
theorem sendToWillingSinkCompletes : Obligations.SendToWillingSinkCompletes := by
  intro s i dest data ws fs hlegal hw hf
  have hlen := wireFrame_length s.cfg.hwid s.txSeq dest data
  rw [exec_legalSend_eq hlegal, writeLoop_of_ok (s := s.bumped.log _) _ _ hlen.ge hw, ← hlen,
    List.drop_length]
  simp [flushLoop, awaitFlush, hf, respond, answer_eq_responded, responseBytes, halfBytes, State.log, State.tookWrite,
    State.tookFlush, State.bumped]

/-! ### Commands -/

/-- A send that passed its checks does not answer MESSAGE_TOO_LONG. -/
theorem SendEnd.responses_ne_messageTooLong {s t : State} (h : SendEnd s t) : t.responses ≠ s.responses ++ [[0x05]] := by
  cases h with
  | waitsWrite _ _ _ _ _ hr => simp [hr]
  | waitsFlush _ _ _ _ hr => simp [hr]
  | sent _ _ hr => simp [hr]
  | failed _ _ hr => simp [hr]

/-- Settles O36: both run the common path, in which one byte is within the limit. -/
theorem commandIsSendOfOneByte : Obligations.CommandIsSendOfOneByte := by
  refine fun s c => ⟨fun hc => ?_, fun hvalid t ht => ?_, fun hc hc' => ?_⟩
  · calc exec (.txCmd c) s = transmit 0x01 [c] s := (execTxCmd_eq c s).trans (if_pos hc)
      _ = exec (.txSend 0x01 [c]) s := (execTxSend_eq (by simp) s).symm
  · by_cases hc : c = 0x12 ∨ c = 0x17
    · obtain ⟨-, -, -, hmax⟩ := hvalid
      have hlegal : legalSend s (.txCmd c) 0x01 [c] := .inr ⟨c, rfl, hc, rfl, rfl, by omega⟩
      rcases exec_legalSend_cases hlegal with ⟨he, -⟩ | ⟨_, he, effect⟩ <;> cases he.symm.trans ht
      exact effect.ending.responses_ne_messageTooLong
    · cases ((execTxCmd_eq c s).trans (if_neg hc)).symm.trans ht
      simp [responded]
  · exact (execTxCmd_eq c s).trans (if_neg (not_or.mpr ⟨hc, hc'⟩))

/-! ### One response with a status of R200, or none yet -/

/-- A result that is a next state waits without a response, or has one response more than `s`. -/
def RespondsOnce (s : State) : Result → Prop
  | .next t => (t.pending ≠ none ∧ t.responses = s.responses) ∨
      (t.pending = none ∧ ∃ r : Response, t.responses = s.responses ++ [responseBytes r])
  | .fault _ => True
  | .refused _ => True

theorem respond_respondsOnce {s u : State} (h : u.responses = s.responses) (r : Response) :
    RespondsOnce s (respond u r) := .inr ⟨rfl, r, by rw [← h]; rfl⟩

theorem guardOperands_respondsOnce {s : State} {own : Result} (i : Instr) (h : RespondsOnce s own) :
    RespondsOnce s (guardOperands i s own) := by
  unfold guardOperands
  split
  · exact respond_respondsOnce rfl _
  · exact h

theorem finishRead_respondsOnce {s u : State} (r : ReadReply) (h : u.responses = s.responses) :
    RespondsOnce s (finishRead r u) := by
  unfold finishRead
  split
  · split
    · trivial
    · exact respond_respondsOnce h _
  · exact respond_respondsOnce h _
  · exact respond_respondsOnce h _

theorem execIngPush_respondsOnce (s : State) : RespondsOnce s (execIngPush s) := by
  unfold execIngPush awaitRead
  split
  · split
    · exact .inl ⟨nofun, rfl⟩
    · exact finishRead_respondsOnce _ rfl
  · exact respond_respondsOnce rfl _

theorem execIngPop_respondsOnce (s : State) : RespondsOnce s (execIngPop s) := by
  unfold execIngPop popByte
  split
  · exact respond_respondsOnce s.rewound_responses _
  · split
    · exact respond_respondsOnce s.rewound_responses _
    · trivial

theorem execDfrFeed_respondsOnce (b : Byte) (s : State) : RespondsOnce s (execDfrFeed b s) := by
  rcases execDfrFeed_eq b s with ⟨_, r, -, -, he⟩ | ⟨_, _, -, -, -, he⟩ | ⟨_, _, f, -, -, -, -, he⟩ |
    ⟨_, _, -, -, he⟩ | ⟨_, _, -, -, -, -, he⟩ <;> rw [he]
  · exact .inr ⟨rfl, r, rfl⟩
  · exact .inr ⟨rfl, .feedNone, rfl⟩
  · exact .inr ⟨rfl, .feedFrame (frameOf f), rfl⟩
  · trivial
  · trivial

theorem orderCheck_respondsOnce {s u : State} (f : Fragment) (buf : Bytes) (h : u.responses = s.responses) :
    RespondsOnce s (orderCheck f buf u) := by
  simp only [orderCheck]
  split
  · split
    · exact respond_respondsOnce h _
    · split <;> exact respond_respondsOnce h _
  · split <;> exact respond_respondsOnce h _

theorem receive_respondsOnce (ide rtr : Bool) (id : Word) (dlc : Byte) (data : Bytes) (s : State) :
    RespondsOnce s (receive ide rtr id dlc data s) := by
  unfold receive offerFragment lookup
  split
  · exact respond_respondsOnce rfl _
  · split
    · exact respond_respondsOnce rfl _
    · split
      · rw [restart_eq]
        exact orderCheck_respondsOnce _ _ rfl
      · split
        · exact respond_respondsOnce rfl _
        · rw [restart_eq]
          exact orderCheck_respondsOnce _ _ rfl

/-- A step of a send ends with a response of R95 or R97, or waits. -/
theorem SendEnd.respondsOnce {s t : State} (h : SendEnd s t) : RespondsOnce s (.next t) := by
  cases h with
  | waitsWrite _ _ hp _ _ hr => exact .inl ⟨by simp [hp], hr⟩
  | waitsFlush _ _ hp _ hr => exact .inl ⟨by simp [hp], hr⟩
  | sent seq hp hr => exact .inr ⟨hp, .sent seq, hr⟩
  | failed e hp hr => exact .inr ⟨hp, .failed (.writeIo e), hr⟩

theorem transmit_respondsOnce (dest : Byte) (data : Bytes) (s : State) : RespondsOnce s (transmit dest data s) := by
  rcases transmit_effect dest data s with ⟨-, he⟩ | ⟨-, he, -⟩ | ⟨-, t, he, effect⟩ <;> rw [he]
  · exact respond_respondsOnce rfl (.failed .messageTooLong)
  · trivial
  · exact effect.ending.respondsOnce

theorem exec_respondsOnce (i : Instr) (s : State) : RespondsOnce s (exec i s) := by
  cases i with
  | ingPush => exact execIngPush_respondsOnce s
  | ingPop => exact execIngPop_respondsOnce s
  | dfrFeed b => exact execDfrFeed_respondsOnce b s
  | dfrReset => exact respond_respondsOnce rfl .resetDone
  | msgDecode dest data => exact guardOperands_respondsOnce _ (respond_respondsOnce rfl _)
  | txSend dest data => exact guardOperands_respondsOnce _ (transmit_respondsOnce dest data s)
  | txCmd c => exact guardOperands_respondsOnce _ (transmit_respondsOnce Config.destLocal [c] s)
  | canRx ide rtr rsv id dlc data => exact guardOperands_respondsOnce _ (receive_respondsOnce ide rtr id dlc data s)

/-- Settles O55: every response begins with a status of R200. -/
theorem oneResponseWithDefinedStatus : Obligations.OneResponseWithDefinedStatus := by
  intro i s t h
  have honce := exec_respondsOnce i s
  rw [h] at honce
  rcases honce with hwaits | ⟨hp, r, hr⟩
  · exact .inl hwaits
  · obtain ⟨status, fields, hbytes, hstatus⟩ := responseBytes_status r
    exact .inr ⟨hp, status, fields, hbytes ▸ hr, hstatus⟩

end Sys2Proof.Machine
end

section
/-! PROOFS of the assembler: the tokens of a written line (30_encoding.md R89), and what the lines of the operations and
of the pseudo-instructions (R90) assemble to. -/

namespace Sys2Proof.Machine

/-! ### The tokens of a written line -/

theorem tokens_word {w : List Char} (hne : w ≠ []) (hw : ∀ c ∈ w, plainChar c) : tokens w [] = [.word w] := by
  have := tokens_plain hw [] []
  rw [List.append_nil] at this
  exact this.trans (gathered_word hne)

theorem tokens_word_comma {w : List Char} (hne : w ≠ []) (hw : ∀ c ∈ w, plainChar c) (rest : List Char) :
    tokens (w ++ ',' :: rest) [] = .word w :: .comma :: tokens rest [] := by
  rw [tokens_plain hw, tokens_comma, List.nil_append, gathered_word hne]
  rfl

theorem tokens_word_space {w : List Char} (hne : w ≠ []) (hw : ∀ c ∈ w, plainChar c) (rest : List Char) :
    tokens (w ++ ' ' :: rest) [] = .word w :: tokens rest [] := by
  rw [tokens_plain hw, tokens_space, List.nil_append, gathered_word hne]
  rfl

theorem tokens_hexText (n v : Nat) : tokens (hexText n v) [] = [.word (hexText n v)] :=
  tokens_word (hexText_ne_nil n v) (hexText_plain n v)

theorem tokens_hexText_comma (n v : Nat) (rest : List Char) :
    tokens (hexText n v ++ ',' :: rest) [] = .word (hexText n v) :: .comma :: tokens rest [] :=
  tokens_word_comma (hexText_ne_nil n v) (hexText_plain n v) rest

theorem tokens_byteText (b : Byte) : tokens (byteText b) [] = [.word (byteText b)] := tokens_hexText 2 b.toNat

theorem tokens_byteText_comma (b : Byte) (rest : List Char) :
    tokens (byteText b ++ ',' :: rest) [] = .word (byteText b) :: .comma :: tokens rest [] :=
  tokens_hexText_comma 2 b.toNat rest

/-- The tokens of the rest of a written byte list. -/
def moreTokens : Bytes → List Token
  | [] => [.closeList]
  | b :: bs => .comma :: .word (byteText b) :: moreTokens bs

theorem tokens_moreText (bs : Bytes) (acc : List Char) : tokens (moreText bs) acc = gathered acc ++ moreTokens bs := by
  induction bs generalizing acc with
  | nil => exact tokens_close [] acc
  | cons b bs ih =>
    rw [moreText, List.cons_append, tokens_comma, byteText, tokens_plain (hexText_plain _ _), List.nil_append, ih,
      gathered_word (hexText_ne_nil _ _)]
    rfl

theorem moreBytes_moreTokens (bs : Bytes) : moreBytes (moreTokens bs) = some bs := by
  induction bs with
  | nil => rfl
  | cons b bs ih => simp only [moreTokens, moreBytes, byteOf_byteText, ih]

/-- A written byte list is read back. -/
theorem byteList_tokens_listText (bs : Bytes) : byteList (tokens (listText bs) []) = some bs := by
  cases bs with
  | nil => rfl
  | cons b bs =>
    have htokens : tokens (listText (b :: bs)) [] = .openList :: .word (byteText b) :: moreTokens bs := by
      rw [listText, List.cons_append, tokens_open, byteText, tokens_plain (hexText_plain _ _), List.nil_append,
        tokens_moreText, gathered_word (hexText_ne_nil _ _)]
      rfl
    simp only [htokens, byteList, byteOf_byteText, moreBytes_moreTokens]

/-! ### Lines -/

theorem assembleLine_eq {line : List Char} {is : List Instr} (h : operationsOf line = some is) :
    assembleLine line = some (is.map encode) := by
  rw [assembleLine, h]

/-- A line that is a name alone. -/
theorem operationsOf_name (n : Name) : operationsOf (nameText n) = namedLine n [] := by
  rw [operationsOf, tokens_word (nameText_ne_nil n) (nameText_plain n)]
  simp only [nameOf_nameText]

theorem destAndBytes_line (dest : Byte) {data : Bytes} (h : data.length ≤ 65535) :
    destAndBytes (tokens (byteText dest ++ ',' :: listText data) []) = some (dest, data) := by
  simp only [tokens_byteText_comma, destAndBytes, byteOf_byteText, byteList_tokens_listText, if_pos h]

/-- A command byte written as a number is none of the two command words. -/
theorem commandOf_byteText (c : Byte) : commandOf (byteText c) = some c := by
  rw [commandOf, if_neg, if_neg, byteOf_byteText] <;> simp [byteText, hexText_eq]

/-- The word for the frame kind of `can.rx` (R89). -/
def kindText (ide : Bool) : List Char := if ide then ['e', 'x', 't'] else ['s', 't', 'd']

theorem kindText_ne_nil (ide : Bool) : kindText ide ≠ [] := by cases ide <;> simp [kindText]

theorem kindText_plain (ide : Bool) : ∀ c ∈ kindText ide, plainChar c := by
  cases ide <;> simp [kindText, plainChar]

theorem kindOf_kindText (ide : Bool) : kindOf (kindText ide) = some ide := by cases ide <;> rfl

theorem lineText_canRx_data (ide : Bool) (rsv : BitVec 6) (id : Word) (dlc : Byte) (data : Bytes) :
    lineText (.canRx ide false rsv id dlc data) = nameText (.op .canRx) ++ ' ' ::
      (kindText ide ++ ' ' :: (hexText 8 id.toNat ++ ',' :: (byteText dlc ++ ',' :: listText data))) := by
  cases ide <;> simp [lineText, kindText]

theorem lineText_canRx_remote (ide : Bool) (rsv : BitVec 6) (id : Word) (dlc : Byte) (data : Bytes) :
    lineText (.canRx ide true rsv id dlc data) = nameText (.op .canRx) ++ ' ' ::
      (kindText ide ++ ',' :: (['r', 't', 'r'] ++ ' ' :: (hexText 8 id.toNat ++ ',' :: byteText dlc))) := by
  cases ide <;> simp [lineText, kindText]

theorem canRxLine_data (ide : Bool) (id : Word) (dlc : Byte) (data : Bytes) :
    canRxLine (tokens
        (kindText ide ++ ' ' :: (hexText 8 id.toNat ++ ',' :: (byteText dlc ++ ',' :: listText data))) []) =
      some (.canRx ide false 0 id dlc data) := by
  rw [tokens_word_space (kindText_ne_nil ide) (kindText_plain ide), tokens_hexText_comma, tokens_byteText_comma]
  simp only [canRxLine, kindOf_kindText, canOperands, wordOf_hexText, byteOf_byteText, byteList_tokens_listText]

theorem canRxLine_remote (ide : Bool) (id : Word) (dlc : Byte) :
    canRxLine (tokens
        (kindText ide ++ ',' :: (['r', 't', 'r'] ++ ' ' :: (hexText 8 id.toNat ++ ',' :: byteText dlc))) []) =
      some (.canRx ide true 0 id dlc []) := by
  have hrtr : ∀ c ∈ ['r', 't', 'r'], plainChar c := by simp [plainChar]
  rw [tokens_word_comma (kindText_ne_nil ide) (kindText_plain ide), tokens_word_space (by simp) hrtr,
    tokens_hexText_comma, tokens_byteText]
  simp only [canRxLine, kindOf_kindText, if_true, canOperands, wordOf_hexText, byteOf_byteText]

/-- The line of an operation is read as the operation. -/
theorem operationsOf_lineText {i : Instr} (h : i.wellFormed = true)
    (hrsv : ∀ ide rtr rsv id dlc data, i = .canRx ide rtr rsv id dlc data → rsv = 0) :
    operationsOf (lineText i) = some [i] := by
  cases i with
  | ingPush => exact operationsOf_name (.op .ingPush)
  | ingPop => exact operationsOf_name (.op .ingPop)
  | dfrReset => exact operationsOf_name (.op .dfrReset)
  | dfrFeed b =>
    rw [lineText, operationsOf_named, tokens_byteText]
    simp only [namedLine, byteOf_byteText, Option.map_some]
  | txCmd c =>
    rw [lineText, operationsOf_named, tokens_byteText]
    simp only [namedLine, commandOf_byteText, Option.map_some]
  | msgDecode dest data =>
    rw [lineText, List.append_assoc, List.cons_append, operationsOf_named]
    simp only [namedLine, destAndBytes_line dest (of_decide_eq_true h), Option.map_some]
  | txSend dest data =>
    rw [lineText, List.append_assoc, List.cons_append, operationsOf_named]
    simp only [namedLine, destAndBytes_line dest (of_decide_eq_true h), Option.map_some]
  | canRx ide rtr rsv id dlc data =>
    obtain rfl := hrsv _ _ _ _ _ _ rfl
    have hlen : data.length = kDataLength rtr dlc := of_decide_eq_true h
    cases rtr with
    | false =>
      rw [lineText_canRx_data, operationsOf_named]
      simp only [namedLine, canRxLine_data, Option.map_some]
    | true =>
      obtain rfl := List.eq_nil_of_length_eq_zero hlen
      rw [lineText_canRx_remote, operationsOf_named]
      simp only [namedLine, canRxLine_remote, Option.map_some]

/-- Settles O59: the line is read as the operation, whose request it then is. -/
theorem assembledLineIsRequest : Obligations.AssembledLineIsRequest :=
  fun _ h hrsv => assembleLine_eq (operationsOf_lineText h hrsv)

/-! ### The pseudo-instructions (R90) -/

theorem canFragLine_text (id : Word) (sn sl : Byte) {payload : Bytes} (hne : payload ≠ [])
    (hlen : payload.length ≤ 252) :
    canFragLine (tokens
        (hexText 8 id.toNat ++ ',' :: (byteText sn ++ ',' :: (byteText sl ++ ',' :: listText payload))) []) =
      some (.canRx true false 0 id (BitVec.ofNat 8 (3 + payload.length)) (sn :: 0x00 :: sl :: payload)) := by
  have hfits : ¬ (payload = [] ∨ 255 < payload.length + 3) := not_or.mpr ⟨hne, by omega⟩
  simp only [tokens_hexText_comma, tokens_byteText_comma, canFragLine, wordOf_hexText, byteOf_byteText,
    byteList_tokens_listText, canFragInstr, if_neg hfits]

/-- Settles O60: the lines are read as the expansions, which encode to the requests. -/
theorem pseudoInstructionsExpand : Obligations.PseudoInstructionsExpand := by
  refine ⟨assembleLine_eq (operationsOf_name .txReboot), assembleLine_eq (operationsOf_name .txGettelem),
    fun bytes hne => ?_, fun id sn sl payload hne hlen => ?_⟩
  · obtain ⟨b, bs, rfl⟩ := List.exists_cons_of_ne_nil hne
    have hline : operationsOf (nameText .dfrFeeds ++ ' ' :: listText (b :: bs)) = some ((b :: bs).map .dfrFeed) := by
      rw [operationsOf_named]
      simp only [namedLine, byteList_tokens_listText]
    rw [assembleLine_eq hline, List.map_map]
    rfl
  · have hline : operationsOf (nameText .canFrag ++ ' ' ::
        (hexText 8 id.toNat ++ ',' :: (byteText sn ++ ',' :: (byteText sl ++ ',' :: listText payload)))) =
          some [.canRx true false 0 id (BitVec.ofNat 8 (3 + payload.length)) (sn :: 0x00 :: sl :: payload)] := by
      rw [operationsOf_named]
      simp only [namedLine, canFragLine_text id sn sl hne hlen, Option.map_some]
    simp only [List.append_assoc, List.cons_append]
    exact assembleLine_eq hline

end Sys2Proof.Machine
end

section
/-! PROOFS of the wire round trip: the bytes of a frame, fed from `SYNC(0)`, give the frame back (41_deframer.md R130 to
R139, 30_encoding.md R70). -/

namespace Sys2Proof.Machine

/-! ### One byte fed -/

/-- The state after bytes were fed that gave the responses `resps`. -/
def State.fed (s : State) (d : Dfr) (fb : Memory) (resps : List Bytes) : State :=
  { s with dfr := d, fb := fb, pending := none, responses := s.responses ++ resps }

theorem State.fed_fed (s : State) (d d' : Dfr) (fb fb' : Memory) (resps resps' : List Bytes) :
    (s.fed d fb resps).fed d' fb' resps' = s.fed d' fb' (resps ++ resps') := by
  simp [State.fed]

theorem exec_dfrFeed_sync {s : State} {p : Fin 2} (b : Byte) (hd : s.dfr = .sync p) :
    exec (.dfrFeed b) s = feedSync p b s := by
  simp only [exec, execDfrFeed, hd]

theorem exec_dfrFeed_body {s : State} {e r : Nat} (b : Byte) (hd : s.dfr = .body e r) :
    exec (.dfrFeed b) s = feedBody e r b s := by
  simp only [exec, execDfrFeed, hd]

/-- A length above the header's begins a body, for no byte is above the capacity (R132). -/
theorem exec_dfrFeed_length {s : State} {len : Byte} (hd : s.dfr = .length) (hlen : 5 < len.toNat) :
    exec (.dfrFeed len) s = .next (s.fed (.body len.toNat 0) s.fb [[0x00, 0x00]]) := by
  have hlong : ¬ len.toNat ≤ Config.hdrLen := Nat.not_le.mpr hlen
  have hcap : ¬ len.toNat - Config.hdrLen > Config.payloadCap := by
    have := len.isLt
    simp only [Config.hdrLen, Config.payloadCap, Config.frameCap]
    omega
  simp only [exec, execDfrFeed, hd, feedLength, if_neg hlong, if_neg hcap]
  rfl

/-- A byte of the body that is not the last is stored (R133). -/
theorem exec_dfrFeed_more {s : State} {e r : Nat} (b : Byte) (hd : s.dfr = .body e r) (hr : r < 256)
    (hmore : r + 1 ≠ e) :
    exec (.dfrFeed b) s = .next (s.fed (.body e (r + 1)) (memWrite s.fb r b) [[0x00, 0x00]]) :=
  (exec_dfrFeed_body b hd).trans ((if_pos hr).trans (if_neg hmore))

/-- A byte stored after the bytes received is read last (R133). -/
theorem memReadAll_memWrite {m : Memory} {r : Nat} {pre : Bytes} (b : Byte) (h : memReadAll m 0 r = some pre) :
    memReadAll (memWrite m r b) 0 (r + 1) = some (pre ++ [b]) := by
  obtain ⟨rfl, hread⟩ := memReadAll_eq_some.mp h
  refine memReadAll_eq_some.mpr ⟨List.length_append, fun i hi => ?_⟩
  rw [Nat.zero_add, memRead_memWrite]
  split
  next he => rw [← he, List.getElem?_concat_length]
  next he =>
    have hread := hread i (by omega)
    rwa [Nat.zero_add, ← List.getElem?_append_left (l₂ := [b]) (by omega)] at hread

/-- The last byte of the body ends the frame (R133, R134). -/
theorem exec_dfrFeed_last {s : State} {r : Nat} {pre : Bytes} (b : Byte) (hd : s.dfr = .body (r + 1) r) (hr : r < 256)
    (hpre : memReadAll s.fb 0 r = some pre) :
    exec (.dfrFeed b) s = .next
      (s.fed (.sync 0) (memWrite s.fb r b) [responseBytes (.feedFrame (frameOf (pre ++ [b])))]) := by
  refine (exec_dfrFeed_body b hd).trans ((if_pos hr).trans ((if_pos rfl).trans ?_))
  simp only [emitFrame, State.framed_fb, memReadAll_memWrite b hpre]
  rfl

/-! ### A whole frame -/

/-- The sync pattern and a length above the header's lead to an empty body (R131, R132). -/
theorem feedAll_header {s : State} {len : Byte} (hd : s.dfr = .sync 0) (hlen : 5 < len.toNat) :
    feedAll [0x22, 0x69, len] s =
      .next (s.fed (.body len.toNat 0) s.fb [[0x00, 0x00], [0x00, 0x00], [0x00, 0x00]]) := by
  have hfirst : exec (.dfrFeed 0x22) s = .next (s.fed (.sync 1) s.fb [[0x00, 0x00]]) := exec_dfrFeed_sync 0x22 hd
  have hsecond {u : State} (hu : u.dfr = .sync 1) :
      exec (.dfrFeed 0x69) u = .next (u.fed .length u.fb [[0x00, 0x00]]) := exec_dfrFeed_sync 0x69 hu
  rw [feedAll_cons hfirst, feedAll_cons (hsecond rfl), feedAll_cons (exec_dfrFeed_length rfl hlen), State.fed_fed,
    State.fed_fed]
  rfl

/-- The bytes that a body lacks give NONE but for the last, which gives the frame of all its bytes (R133, R134). -/
theorem feedAll_body {s : State} {e r n : Nat} {pre bs : Bytes} (hd : s.dfr = .body e r) (hn : bs.length = n + 1)
    (he : r + n + 1 = e) (hcap : e ≤ 256) (hpre : memReadAll s.fb 0 r = some pre) :
    ∃ fb, feedAll bs s = .next (s.fed (.sync 0) fb
      (List.replicate n [0x00, 0x00] ++ [responseBytes (.feedFrame (frameOf (pre ++ bs)))])) := by
  induction n generalizing s r pre bs with
  | zero =>
    obtain ⟨b, rfl⟩ := List.length_eq_one_iff.mp hn
    subst he
    exact ⟨_, feedAll_cons (exec_dfrFeed_last b hd (by omega) hpre)⟩
  | succ n ih =>
    obtain ⟨b, bs, rfl⟩ := List.exists_cons_of_length_eq_add_one hn
    obtain ⟨fb, hfeed⟩ := ih (s := s.fed (.body e (r + 1)) (memWrite s.fb r b) [[0x00, 0x00]]) rfl (Nat.succ.inj hn)
      (by omega) (memReadAll_memWrite b hpre)
    refine ⟨fb, ?_⟩
    rw [feedAll_cons (exec_dfrFeed_more b hd (by omega) (by omega)), hfeed, State.fed_fed, List.append_assoc]
    rfl

/-- The bytes of a frame after LEN hold its fields (R134, 30_encoding.md R70). -/
theorem frameOf_fields (hwid seq : Half) (dest : Byte) (data : Bytes) :
    frameOf (halfBytes hwid ++ halfBytes seq ++ dest :: data) =
      { hwid := hwid, seq := seq, dest := dest, payload := data } := by
  rw [frameOf]
  congr 1
  · exact half_lo_hi hwid
  · exact half_lo_hi seq

/-- Settles O24: the header leads to an empty body, which the rest of the frame fills. -/
theorem frameRoundTrip : Obligations.FrameRoundTrip := by
  intro s hwid seq dest data hd hmin hmax
  have hlen : (BitVec.ofNat 8 (data.length + 5)).toNat = data.length + 5 := by
    rw [BitVec.toNat_ofNat]
    omega
  have hheader := feedAll_header hd (len := BitVec.ofNat 8 (data.length + 5)) (by omega)
  obtain ⟨fb, hbody⟩ := feedAll_body (pre := []) (bs := halfBytes hwid ++ halfBytes seq ++ dest :: data)
    (s := s.fed (.body (BitVec.ofNat 8 (data.length + 5)).toNat 0) s.fb [[0x00, 0x00], [0x00, 0x00], [0x00, 0x00]])
    (n := data.length + 4) rfl (by simp [halfBytes]) (by omega) (by omega) rfl
  rw [State.fed_fed, List.nil_append, frameOf_fields] at hbody
  refine ⟨_, (feedAll_append _ hheader).trans hbody, rfl, ?_, ⟨fun _ => rfl, rfl, rfl, rfl⟩, rfl, fun _ => rfl⟩
  simp [State.fed, responseBytes, halfBytes, List.replicate_succ]

end Sys2Proof.Machine
end

section
/-! PROOFS that the fragments of a message, delivered in order, give the message (43_can_reassembler.md R184 to
R191). -/

namespace Sys2Proof.Machine

/-! ### One fragment in order -/

theorem canSet_canSet (t : CanTable) (src : Nat) (buf buf' : Bytes) :
    canSet (canSet t src buf) src buf' = canSet t src buf' := keySet_keySet ..

theorem canErase_canSet {t : CanTable} (h : keysRising t) (src : Nat) (buf : Bytes) :
    canErase (canSet t src buf) src = canErase t src := keyErase_keySet h src buf

theorem canGet_canSet_self (t : CanTable) (src : Nat) (buf : Bytes) : canGet (canSet t src buf) src = some buf :=
  keyGet_keySet_self ..

/-- The answer PENDING, with the source's buffer set (R188). -/
def State.collected (s : State) (src : Nat) (buf : Bytes) : State :=
  responded { s with canTable := canSet s.canTable src buf } [0x00, 0x00]

/-- The answer COMPLETE, with the source's entry removed (R188). -/
def State.completed (s : State) (src : Nat) (m : Bytes) : State :=
  responded { s with canTable := canErase s.canTable src } ([0x00, 0x01] ++ countBytes m.length ++ m)

/-- Past the announced size and the lookup, a fragment is checked against the buffer that step 4 leaves, in a table in
which only its source's entry may differ (R183 to R185). -/
theorem offerFragment_accepted {f : Fragment} {s : State} (hsize : f.seqLen * 5 ≤ s.cfg.maxPacket)
    (hslot : canGet s.canTable f.src = none → s.canTable.length < s.cfg.numSources) :
    ∃ t, (t = s.canTable ∨ t = canSet s.canTable f.src []) ∧
      offerFragment f s = orderCheck f (checkedBuffer f ((canGet s.canTable f.src).getD [])) (s.setCan t) := by
  have hrestart (t : CanTable) (ht : t = s.canTable ∨ t = canSet s.canTable f.src []) :
      restartedTable f t = s.canTable ∨ restartedTable f t = canSet s.canTable f.src [] := by
    unfold restartedTable
    split
    · rcases ht with rfl | rfl
      · exact .inr rfl
      · exact .inr (canSet_canSet ..)
    · exact ht
  have hlookup : offerFragment f s = lookup f s := if_neg (Nat.not_lt.mpr hsize)
  rw [hlookup, lookup]
  cases hget : canGet s.canTable f.src with
  | some buf => exact ⟨_, hrestart _ (.inl rfl), restart_eq f buf s⟩
  | none => exact ⟨_, hrestart _ (.inr rfl), (if_neg (hslot hget).ne).trans (restart_eq ..)⟩

/-- A fragment in order within the capacity is appended (R186 to R188). -/
theorem orderCheck_inOrder {f : Fragment} {buf : Bytes} {s : State} {t : CanTable} (hrising : keysRising s.canTable)
    (ht : t = s.canTable ∨ t = canSet s.canTable f.src []) (hseq : f.seqNum = buf.length / 5)
    (hfits : buf.length + f.payload.length ≤ s.cfg.maxPacket) :
    orderCheck f buf (s.setCan t) = .next (if f.seqLen ≤ f.seqNum then s.completed f.src (buf ++ f.payload)
      else s.collected f.src (buf ++ f.payload)) := by
  have herase : canErase t f.src = canErase s.canTable f.src := by
    rcases ht with rfl | rfl
    · rfl
    · exact canErase_canSet hrising ..
  have hset : canSet t f.src (buf ++ f.payload) = canSet s.canTable f.src (buf ++ f.payload) := by
    rcases ht with rfl | rfl
    · rfl
    · exact canSet_canSet ..
  rw [State.completed, State.collected, ← herase, ← hset, apply_ite Host.Outcome.next]
  exact (if_pos hseq).trans (if_neg (Nat.not_lt.mpr hfits))

/-- The same for the whole operation, on a fragment of 30_encoding.md R77. -/
theorem exec_fragment_inOrder {s : State} {id : Word} {sn rv sl : Byte} {payload buf : Bytes}
    (hrising : keysRising s.canTable) (h : acceptable s id sl payload) (hbuf : currentBuffer s id sn = buf)
    (hseq : sn.toNat = buf.length / 5) (hfits : buf.length + payload.length ≤ s.cfg.maxPacket) :
    exec (fragmentFrame id sn rv sl payload) s =
      .next (if sl.toNat ≤ sn.toNat then s.completed (sourceIn s id) (buf ++ payload)
        else s.collected (sourceIn s id) (buf ++ payload)) := by
  obtain ⟨h29, h1, h5, hsize, hslot⟩ := h
  obtain ⟨t, ht, he⟩ := offerFragment_accepted (s := s)
    (f := { src := sourceIn s id, seqNum := sn.toNat, seqLen := sl.toNat, payload := payload }) hsize hslot
  have hchecked : checkedBuffer { src := sourceIn s id, seqNum := sn.toNat, seqLen := sl.toNat, payload := payload }
      ((canGet s.canTable (sourceIn s id)).getD []) = buf := by
    rw [← hbuf, checkedBuffer, currentBuffer]
    simp [BitVec.toNat_eq]
  rw [execCanRx_fragment h29 h1 h5, he, hchecked]
  exact orderCheck_inOrder hrising ht hseq hfits

/-! ### The fragments of a message -/

/-- The source has an entry or a slot for fragment `n` of the message that ends with fragment `k`, and `buf` holds the
fragments before it. -/
structure ReadyFor (s : State) (id : Word) (k n : Nat) (buf : Bytes) : Prop where
  rising : keysRising s.canTable
  announced : k * 5 ≤ s.cfg.maxPacket
  slot : canGet s.canTable (sourceIn s id) = none → s.canTable.length < s.cfg.numSources
  buffer : currentBuffer s id (BitVec.ofNat 8 n) = buf
  received : buf.length = 5 * n

theorem ReadyFor.exec_fragment {s : State} {id : Word} {rv : Byte} {k n : Nat} {buf p : Bytes}
    (h : ReadyFor s id k n buf) (h29 : id.toNat < 2 ^ 29) (hk : k ≤ 255) (hn : n ≤ k) (h1 : 1 ≤ p.length)
    (h5 : p.length ≤ 5) (hfits : buf.length + p.length ≤ s.cfg.maxPacket) :
    exec (fragmentFrame id (BitVec.ofNat 8 n) rv (BitVec.ofNat 8 k) p) s =
      .next (if k ≤ n then s.completed (sourceIn s id) (buf ++ p) else s.collected (sourceIn s id) (buf ++ p)) := by
  have hn8 : (BitVec.ofNat 8 n).toNat = n := by rw [BitVec.toNat_ofNat]; omega
  have hk8 : (BitVec.ofNat 8 k).toNat = k := by rw [BitVec.toNat_ofNat]; omega
  have hnumber : (BitVec.ofNat 8 n).toNat = buf.length / 5 := by rw [hn8, h.received]; omega
  have := exec_fragment_inOrder (rv := rv) h.rising
    ⟨h29, h1, h5, by rw [hk8]; exact h.announced, h.slot⟩ h.buffer hnumber hfits
  rwa [hn8, hk8] at this

/-- After a full fragment the source is ready for the next one. -/
theorem ReadyFor.collected {s : State} {id : Word} {k n : Nat} {buf p : Bytes} (h : ReadyFor s id k n buf)
    (hn : n < 255) (hp : p.length = 5) :
    ReadyFor (s.collected (sourceIn s id) (buf ++ p)) id k (n + 1) (buf ++ p) where
  rising := keysRising_keySet h.rising ..
  announced := h.announced
  slot := fun hnone => nomatch (canGet_canSet_self ..).symm.trans hnone
  buffer := by
    have hne : ¬ BitVec.ofNat 8 (n + 1) = 0 := by
      rw [BitVec.toNat_eq, BitVec.toNat_ofNat]
      exact (Nat.mod_eq_of_lt (by omega : n + 1 < 2 ^ 8)).trans_ne (Nat.succ_ne_zero n)
    refine (if_neg hne).trans ?_
    exact congrArg (Option.getD · []) (canGet_canSet_self ..)
  received := by rw [List.length_append, h.received, hp]; omega

/-- The fragments from number `n` on, each with the last fragment's number `k`. -/
def fragmentsFrom (id : Word) (rv : Byte) (k n : Nat) (parts : List Bytes) : List Instr :=
  parts.mapIdx fun j p => fragmentFrame id (BitVec.ofNat 8 (n + j)) rv (BitVec.ofNat 8 k) p

theorem fragmentsFrom_cons (id : Word) (rv : Byte) (k n : Nat) (p : Bytes) (parts : List Bytes) :
    fragmentsFrom id rv k n (p :: parts) =
      fragmentFrame id (BitVec.ofNat 8 n) rv (BitVec.ofNat 8 k) p :: fragmentsFrom id rv k (n + 1) parts := by
  simp only [fragmentsFrom, List.mapIdx_cons, Nat.add_zero, Nat.add_assoc, Nat.add_comm 1]

/-- Full fragments and a last one complete the message that the fragments before them began (R191). -/
theorem ReadyFor.execAll_fragmentsFrom {s : State} {id : Word} {rv : Byte} {k n : Nat} {buf last : Bytes}
    {parts : List Bytes} (h : ReadyFor s id k n buf) (h29 : id.toNat < 2 ^ 29) (hk : k ≤ 255)
    (hn : n + parts.length = k) (hfull : ∀ p ∈ parts, p.length = 5) (h1 : 1 ≤ last.length) (h5 : last.length ≤ 5)
    (hfits : (buf ++ parts.flatten ++ last).length ≤ s.cfg.maxPacket) :
    execAll (fragmentsFrom id rv k n (parts ++ [last])) s = .next
      { s with
        canTable := canErase s.canTable (sourceIn s id)
        pending := none
        responses := s.responses ++ List.replicate parts.length [0x00, 0x00] ++
          [0x00 :: 0x01 :: countBytes (buf ++ parts.flatten ++ last).length ++ (buf ++ parts.flatten ++ last)] } := by
  induction parts generalizing s n buf with
  | nil =>
    obtain rfl : n = k := hn
    have hlast := h.exec_fragment (rv := rv) h29 hk le_rfl h1 h5 (by simpa using hfits)
    rw [if_pos le_rfl] at hlast
    rw [List.nil_append, fragmentsFrom_cons, execAll_cons hlast]
    simp [fragmentsFrom, execAll, State.completed, responded]
  | cons p parts ih =>
    have hp : p.length = 5 := hfull p List.mem_cons_self
    rw [List.length_cons] at hn
    have hfirst := h.exec_fragment (rv := rv) (p := p) h29 hk (by omega) (by omega) (by omega)
      (by simp only [List.length_append, List.flatten_cons] at hfits ⊢; omega)
    rw [if_neg (by omega)] at hfirst
    have hrest := ih (h.collected (by omega) hp) (by omega) (fun q hq => hfull q (List.mem_cons_of_mem p hq))
      (by simpa [State.collected, responded] using hfits)
    rw [List.cons_append, fragmentsFrom_cons, execAll_cons hfirst, hrest]
    have herase := canErase_canSet h.rising (sourceIn s id) (buf ++ p)
    simp [State.collected, responded, herase, List.replicate_succ]

/-- Settles O47: no fragment has come before fragment 0, whatever the source's buffer holds. -/
theorem messageReassemblesInOrder : Obligations.MessageReassemblesInOrder := by
  intro s id rv parts last h29 hrising hmax hfull h1 h5 hfits hslot
  have hsize : parts.flatten.length = parts.length * 5 := by
    rw [List.length_flatten, List.map_congr_left (g := fun _ => 5) hfull]
    simp
  have hready : ReadyFor s id parts.length 0 [] := ⟨hrising, by omega, hslot, rfl, rfl⟩
  have hrun := hready.execAll_fragmentsFrom (rv := rv) h29 hmax (Nat.zero_add _) hfull h1 h5 (by simpa using hfits)
  simp only [fragmentsFrom, Nat.zero_add, List.nil_append] at hrun
  refine ⟨_, hrun, fun k => ?_⟩
  split
  next hk => rw [hk, canGet, canErase, keyGet_keyErase hrising, if_pos rfl]
  next hk => exact canGet_canErase_of_ne hrising hk

end Sys2Proof.Machine
end

section
/-! PROOFS of what a push does with its reply and of what a pop answers (40_ingest.md R112 to R120), and of the replies
outside a collaborator's liberties (R118, 42_encoder.md R163). -/

namespace Sys2Proof.Machine

/-! ### A push that finds its reply -/

theorem memRead_memWriteAll_of_inside (m : Memory) {start i : Nat} {bs : Bytes} (hi : i < bs.length) :
    memRead (memWriteAll m start bs) (start + i) = bs[i]? := by
  rw [memRead_memWriteAll, if_pos (by omega), Nat.add_sub_cancel_left]

/-- The count of a response, whatever its size (30_encoding.md R92). -/
theorem countBytes_eq (n : Nat) : countBytes n = [BitVec.ofNat 8 n, BitVec.ofNat 8 (n / 256)] := by
  have hlo : BitVec.ofNat 8 (n % 2 ^ 16 % 256) = BitVec.ofNat 8 n := by
    apply BitVec.eq_of_toNat_eq; simp only [BitVec.toNat_ofNat]; omega
  have hhi : BitVec.ofNat 8 (n % 2 ^ 16 / 256 % 256) = BitVec.ofNat 8 (n / 256) := by
    apply BitVec.eq_of_toNat_eq; simp only [BitVec.toNat_ofNat]; omega
  simp only [countBytes, halfBytes, lo, hi, BitVec.toNat_ofNat, hlo, hhi]

/-- Settles O9: the reply is stored from `start` on, over any chunk size. -/
theorem pushStoresTheChunk : Obligations.PushStoresTheChunk := by
  intro s bytes rs ha hr hl start
  have hstored := (execIngPush_of_reply ha hr).trans (if_neg (Nat.not_lt.mpr hl))
  refine ⟨_, hstored, fun i hi => ?_, fun a hout => ?_, rfl, rfl, rfl, rfl, rfl, ?_, rfl⟩
  · exact memRead_memWriteAll_of_inside s.ingS hi
  · exact memRead_memWriteAll_of_outside s.ingS le_rfl hout
  · rw [← countBytes_eq]; rfl

/-- An admitted push whose read fails or is cancelled (R113, R217). -/
theorem execIngPush_of_failedRead {s : State} {r : ReadReply} {rs : List ReadReply} {resp : Bytes}
    (ha : admitted s) (hr : s.readReplies = r :: rs)
    (hfail : (∃ e, r = .err e ∧ resp = [0x03, e]) ∨ (r = .cancelled ∧ resp = [0x0B])) :
    execIngPush s = .next (responded
      { s with readReplies := rs, traffic := s.traffic ++ [Event.read s.cfg.chunk, .readReply r] : State }.scrambled
      resp) := by
  rw [execIngPush_of_reply ha hr]
  rcases hfail with ⟨e, rfl, rfl⟩ | ⟨rfl, rfl⟩ <;> rfl

/-- Settles O10: only the region is written, and in either shape it holds nothing unread. -/
theorem failedReadKeepsCursors : Obligations.FailedReadKeepsCursors := by
  intro s r rs resp ha hr hfail start
  refine ⟨_, execIngPush_of_failedRead ha hr hfail, rfl, rfl, rfl, fun a hout => ?_, rfl, rfl, rfl, rfl,
    fun hinv => ?_⟩
  · exact memRead_memWriteAll_of_outside s.ingS (freeBytes_length ..).le hout
  · exact unread_scrambled (s := { s with readReplies := rs, traffic := _ }) hinv.shape ha

/-! ### A pop, and the push after EMPTY -/

/-- Settles O13: the two outcomes of a pop that finds what it needs, after the rewind. -/
theorem popRewindsThenReturns : Obligations.PopRewindsThenReturns := by
  intro s s' hs
  obtain rfl : s' = s.rewound := hs
  refine ⟨fun heq => ?_, fun b hne hin hb => ?_⟩
  · rw [State.rewound_ingHead] at heq
    rcases execIngPop_eq s with ⟨-, he⟩ | ⟨hne, -⟩ | ⟨hne, -⟩
    · exact he
    · exact absurd heq hne
    · exact absurd heq hne
  · rw [State.rewound_ingHead] at hne
    rw [State.rewound_ingS] at hb
    rcases execIngPop_eq s with ⟨heq, -⟩ | ⟨-, b', -, hb', he⟩ | ⟨-, habsent, -⟩
    · exact absurd heq hne
    · cases hb.symm.trans hb'
      exact he
    · cases hb.symm.trans (habsent hin)

/-- A pop that answers EMPTY has found the cursors equal after the rewind (R115). -/
theorem execIngPop_empty {s t : State} (h : execIngPop s = .next t)
    (hempty : t.responses = s.responses ++ [[0x01]]) :
    t = responded s.rewound [0x01] ∧ s.rewound.ingHead = s.rewound.ingTail := by
  rw [State.rewound_ingHead]
  rcases execIngPop_eq s with ⟨heq, he⟩ | ⟨-, b, -, -, he⟩ | ⟨-, -, he⟩ <;> cases he.symm.trans h
  · exact ⟨rfl, heq⟩
  · simp [responded] at hempty

/-- An admitted push waits without a response, or answers OK, READ_IO or CANCELLED (R112, R113). -/
theorem execIngPush_admitted_responses {s t : State} (ha : admitted s) (h : execIngPush s = .next t) :
    t.responses = s.responses ∨
      ∃ c fields, c ∈ ([0x00, 0x03, 0x0B] : Bytes) ∧ t.responses = s.responses ++ [c :: fields] := by
  rcases execIngPush_eq s with ⟨hna, -⟩ | ⟨-, -, he⟩ | ⟨-, r, rs, -, he⟩
  · exact absurd ha hna
  · cases he.symm.trans h
    exact .inl rfl
  · replace h := he.symm.trans h
    rcases finishRead_eq r _ with ⟨_, -, -, he⟩ | ⟨_, -, -, he⟩ | ⟨_, -, he⟩ | ⟨-, he⟩ <;>
      cases he.symm.trans h
    · exact .inr ⟨0x00, _, by decide, rfl⟩
    · exact .inr ⟨0x03, _, by decide, rfl⟩
    · exact .inr ⟨0x0B, _, by decide, rfl⟩

/-- Settles O15: equal cursors leave the linear shape only, which is then drained, and drained contents are admitted
below the midpoint as above it. -/
theorem pushAfterEmptyIsAdmitted : Obligations.PushAfterEmptyIsAdmitted := by
  intro s t hs h hempty
  obtain ⟨rfl, heq⟩ := execIngPop_empty h hempty
  have hlinear : linearShape s.rewound := by
    rcases shape_rewound hs with hl | ⟨hw, -⟩
    · exact hl
    · omega
  have hadmitted : admitted (responded s.rewound [0x01]) := by simp only [admitted, responded]; omega
  refine ⟨hlinear.1, heq.symm, ?_, hadmitted, fun u hu hoverflow => ?_⟩
  · simp only [responded]; omega
  · rcases execIngPush_admitted_responses hadmitted hu with hr | ⟨c, _, hc, hr⟩
    · simp [hr] at hoverflow
    · simp only [hr, List.append_cancel_left_eq, List.cons.injEq] at hoverflow
      rw [hoverflow.1.1] at hc
      exact absurd hc (by decide)

/-! ### Replies outside a collaborator's liberties -/

/-- A send whose sink claims more than it was offered is refused (42_encoder.md R163). -/
theorem exec_of_overclaims {s : State} {i : Instr} {dest : Byte} {data : Bytes} (h : legalSend s i dest data)
    (hclaim : overclaims (wireFrame s.cfg.hwid s.txSeq dest data) s.writeReplies s.flushReplies) :
    exec i s = .refused .overclaimedWrite :=
  (exec_legalSend_eq h).trans (awaitWrite_of_overclaims s.txSeq hclaim)

/-- Settles O11: both claims reach the test that refuses them. -/
theorem replyOutsideLibertiesIsRefused : Obligations.ReplyOutsideLibertiesIsRefused := by
  refine ⟨fun s bytes rs ha hr hl => (execIngPush_of_reply ha hr).trans (if_pos hl),
    fun s dest data ks k ws fs hmax hcount hrest hk hw hf => ?_⟩
  refine exec_of_overclaims (.inl ⟨rfl, hmax, hcount⟩) ⟨ks, k, ws, fs, ?_, ?_, hw, hf⟩
  · rwa [wireFrame_length]
  · rwa [wireFrame_length]

end Sys2Proof.Machine
end

section
/-! PROOFS that OVERFLOW, MESSAGE_TOO_LONG, MESSAGE_BUFFER_FULL and SOURCE_BUFFER_FULL change nothing but the response
log (60_exceptions.md R201). -/

namespace Sys2Proof.Machine

/-- The statuses of the four resource errors (R200). EMPTY is not among them, since a pop may rewind before it
(40_ingest.md R114). -/
def resourceStatuses : Bytes := [0x02, 0x05, 0x08, 0x09]

/-- A result whose response is one of the four is `s` with that response, and nothing else changed. -/
def UnchangedOnResourceError (s : State) : Result → Prop
  | .next t => ∀ c ∈ resourceStatuses, t.responses = s.responses ++ [[c]] → t = responded s [c]
  | .fault _ => True
  | .refused _ => True

theorem unchanged_of_responded (s : State) (resp : Bytes) :
    UnchangedOnResourceError s (.next (responded s resp)) := by
  intro c _ h
  rw [show resp = [c] by simpa [responded] using h]

theorem unchanged_of_status {s t : State} {c : Byte} {fields : Bytes} (hc : c ∉ resourceStatuses)
    (h : t.responses = s.responses ++ [c :: fields]) : UnchangedOnResourceError s (.next t) := by
  intro c' hc' h'
  simp only [h, List.append_cancel_left_eq, List.cons.injEq] at h'
  exact absurd (h'.1.1 ▸ hc') hc

theorem unchanged_of_silence {s t : State} (h : t.responses = s.responses) :
    UnchangedOnResourceError s (.next t) := by
  intro c _ h'
  simp [h] at h'

theorem guardOperands_unchanged {i : Instr} {s : State} {own : Result}
    (h : malformed i = false → UnchangedOnResourceError s own) :
    UnchangedOnResourceError s (guardOperands i s own) := by
  rw [guardOperands_eq]
  split
  · exact unchanged_of_responded s _
  next hm => exact h (Bool.eq_false_of_not_eq_true hm)

/-! ### The serial engine -/

theorem execIngPush_unchanged (s : State) : UnchangedOnResourceError s (execIngPush s) := by
  have hother : ∀ c ∈ ([0x00, 0x03, 0x0B] : Bytes), c ∉ resourceStatuses := by decide
  by_cases ha : admitted s
  · cases he : execIngPush s with
    | next t =>
      rcases execIngPush_admitted_responses ha he with hr | ⟨c, fields, hc, hr⟩
      · exact unchanged_of_silence hr
      · exact unchanged_of_status (hother c hc) hr
    | fault f => trivial
    | refused r => trivial
  · rw [execIngPush_of_not_admitted ha]
    exact unchanged_of_responded s _

theorem execIngPop_unchanged (s : State) : UnchangedOnResourceError s (execIngPop s) := by
  rcases execIngPop_eq s with ⟨-, he⟩ | ⟨-, b, -, -, he⟩ | ⟨-, -, he⟩ <;> rw [he]
  · exact unchanged_of_status (c := 0x01) (by decide) (congrArg (· ++ [_]) s.rewound_responses)
  · exact unchanged_of_status (c := 0x00) (by decide) (congrArg (· ++ [_]) s.rewound_responses)
  · trivial

/-- What a feed answers: NONE, FRAME or DISCARD_SHORT, or the error of the oversize arm (41_deframer.md R131 to
R134). -/
theorem execDfrFeed_status {b : Byte} {s t : State} (h : execDfrFeed b s = .next t) :
    ∃ c fields, (c = 0x00 ∨ c = 0x06) ∧ t.responses = s.responses ++ [c :: fields] := by
  unfold execDfrFeed at h
  split at h
  · unfold feedSync at h
    split at h
    · split at h <;> cases h <;> exact ⟨0x00, _, .inl rfl, rfl⟩
    · cases h
      exact ⟨0x00, _, .inl rfl, rfl⟩
  · unfold feedLength at h
    split at h
    · cases h
      exact ⟨0x00, _, .inl rfl, rfl⟩
    · split at h <;> cases h
      · exact ⟨0x06, _, .inr rfl, rfl⟩
      · exact ⟨0x00, _, .inl rfl, rfl⟩
  · unfold feedBody emitFrame at h
    split at h
    · split at h
      · split at h <;> cases h
        exact ⟨0x00, _, .inl rfl, rfl⟩
      · cases h
        exact ⟨0x00, _, .inl rfl, rfl⟩
    · cases h

theorem execDfrFeed_unchanged (b : Byte) (s : State) : UnchangedOnResourceError s (execDfrFeed b s) := by
  cases he : execDfrFeed b s with
  | next t =>
    obtain ⟨c, fields, hc, hr⟩ := execDfrFeed_status he
    exact unchanged_of_status (by rcases hc with rfl | rfl <;> decide) hr
  | fault f => trivial
  | refused r => trivial

/-- A send that fails its checks changes nothing (42_encoder.md R161), and any other does not answer one of the four. -/
theorem exec_send_unchanged {i : Instr} (hi : isSend i) (s : State) : UnchangedOnResourceError s (exec i s) := by
  rcases exec_send_rejected_or_legal hi s with ⟨resp, he⟩ | ⟨dest, data, hlegal⟩
  · rw [he]
    exact unchanged_of_responded s resp
  · rcases exec_legalSend_cases hlegal with ⟨he, -⟩ | ⟨t, he, effect⟩ <;> rw [he]
    · trivial
    · cases effect.ending with
      | waitsWrite _ _ _ _ _ hr => exact unchanged_of_silence hr
      | waitsFlush _ _ _ _ hr => exact unchanged_of_silence hr
      | sent _ _ hr => exact unchanged_of_status (c := 0x00) (by decide) hr
      | failed _ _ hr => exact unchanged_of_status (c := 0x04) (by decide) hr

/-! ### The CAN engine -/

/-- Steps 5 to 7 find the buffer full only where step 3 and step 4 left the table as it was (43_can_reassembler.md
R187): `t` is the table they left, and a payload after an empty buffer fits. -/
theorem orderCheck_unchanged {f : Fragment} {buf : Bytes} {s : State} {t : CanTable}
    (h : t = s.canTable ∨ buf.length + f.payload.length ≤ s.cfg.maxPacket) :
    UnchangedOnResourceError s (orderCheck f buf (s.setCan t)) := by
  rw [orderCheck_eq]
  split
  · split
    next hfull =>
      rcases h with rfl | hfits
      · exact unchanged_of_responded s _
      · exact absurd hfull (Nat.not_lt.mpr hfits)
    next =>
      split
      · exact unchanged_of_status (c := 0x00) (by decide) rfl
      · exact unchanged_of_status (c := 0x00) (by decide) rfl
  · split
    · exact unchanged_of_status (c := 0x00) (by decide) rfl
    · exact unchanged_of_status (c := 0x0A) (by decide) rfl

/-- A restart empties the buffer (R185). -/
theorem restart_unchanged {f : Fragment} {buf : Bytes} {s : State} {t : CanTable}
    (hfits : f.payload.length ≤ s.cfg.maxPacket) (h : t = s.canTable ∨ buf = []) :
    UnchangedOnResourceError s (restart f buf (s.setCan t)) := by
  rw [restart_eq]
  refine orderCheck_unchanged (s := s) (t := restartedTable f t) ?_
  unfold restartedTable checkedBuffer
  by_cases h0 : f.seqNum = 0
  · simp [h0, hfits]
  · rcases h with rfl | rfl
    · simp [h0]
    · simp [hfits]

theorem offerFragment_unchanged {f : Fragment} {s : State} (hfits : f.payload.length ≤ s.cfg.maxPacket) :
    UnchangedOnResourceError s (offerFragment f s) := by
  unfold offerFragment
  split
  · exact unchanged_of_responded s _
  · unfold lookup
    split
    · exact restart_unchanged (s := s) hfits (.inl rfl)
    · split
      · exact unchanged_of_responded s _
      · exact restart_unchanged hfits (.inr rfl)

/-- A fragment carries at most five bytes (30_encoding.md R77). -/
theorem fragmentOf_payload_length_le {dlc : Byte} (h : dlc.toNat ≤ 8) (m : SourceMap) (id : Word) (data : Bytes) :
    (fragmentOf m id dlc data).payload.length ≤ 5 := by
  simp only [fragmentOf, slice, Config.fragHdr, List.length_drop, List.length_take]
  omega

theorem dlc_le_of_not_malformed {ide rtr : Bool} {rsv : BitVec 6} {id : Word} {dlc : Byte} {data : Bytes}
    (h : malformed (.canRx ide rtr rsv id dlc data) = false) : dlc.toNat ≤ 8 := by
  simp only [malformed, operandsLegal, Bool.not_eq_false', Bool.and_eq_true, decide_eq_true_eq] at h
  obtain ⟨-, ⟨-, hdlc⟩, -⟩ := h
  exact hdlc

theorem execCanRx_unchanged {s : State} (h : s.cfg.valid) (ide rtr : Bool) (rsv : BitVec 6) (id : Word) (dlc : Byte)
    (data : Bytes) : UnchangedOnResourceError s (execCanRx ide rtr rsv id dlc data s) := by
  refine guardOperands_unchanged fun hm => ?_
  unfold receive
  split
  · exact unchanged_of_responded s _
  · have hlen := fragmentOf_payload_length_le (dlc_le_of_not_malformed hm) s.cfg.sourceMap id data
    obtain ⟨-, -, ⟨hmax, -⟩, -⟩ := h
    exact offerFragment_unchanged (hlen.trans hmax)

/-! ### Every operation -/

theorem exec_unchanged {s : State} (h : s.cfg.valid) (i : Instr) : UnchangedOnResourceError s (exec i s) := by
  cases i with
  | ingPush => exact execIngPush_unchanged s
  | ingPop => exact execIngPop_unchanged s
  | dfrFeed b => exact execDfrFeed_unchanged b s
  | dfrReset => exact unchanged_of_status (c := 0x00) (by decide) rfl
  | msgDecode dest data => exact guardOperands_unchanged fun _ => unchanged_of_responded s _
  | txSend dest data => exact exec_send_unchanged (.inl ⟨dest, data, rfl⟩) s
  | txCmd c => exact exec_send_unchanged (.inr ⟨c, rfl⟩) s
  | canRx ide rtr rsv id dlc data => exact execCanRx_unchanged h ide rtr rsv id dlc data

/-- Settles O56: of the four, only MESSAGE_BUFFER_FULL comes after a change could have been made, and R8's parameters
rule that out. -/
theorem resourceErrorsChangeNothing : Obligations.ResourceErrorsChangeNothing := by
  intro i s t resp hvalid h hresp hmem
  have hun := exec_unchanged hvalid i
  rw [h] at hun
  obtain ⟨c, hc, rfl⟩ : ∃ c ∈ resourceStatuses, [c] = resp := List.mem_map.mp hmem
  exact hun c hc hresp

end Sys2Proof.Machine
end

section
/-! PROOFS of the deframer's search: its tables of bytes (41_deframer.md R131 to R134), and the bytes it skips (R136,
R137). -/

namespace Sys2Proof.Machine

/-! ### One byte fed -/

/-- A mismatch starts the search afresh, even if the byte is the pattern's first (R131). -/
theorem feedSync_of_ne {p : Fin 2} {b : Byte} (h : b ≠ byteAt Config.magic p.val) (s : State) :
    feedSync p b s = respond (s.setDfr (.sync 0)) .feedNone :=
  if_neg h

/-- Settles O18: a match in `SYNC(0)` leads to `SYNC(1)`, one in `SYNC(1)` to `LENGTH`, and any other byte back. -/
theorem feedInSyncFollowsTable : Obligations.FeedInSyncFollowsTable := by
  intro s p b hd
  rw [exec_dfrFeed_sync b hd]
  match p with
  | 0 =>
    by_cases hb : b = 0x22
    · subst hb
      rfl
    · rw [feedSync_of_ne (p := 0) hb, if_pos rfl, if_neg hb]
      rfl
  | 1 =>
    by_cases hb : b = 0x69
    · subst hb
      rfl
    · rw [feedSync_of_ne (p := 1) hb, if_neg (by decide), if_neg hb]
      rfl

/-- Settles O19: the model's arm has the same three cases, with R7's constants for the numbers. -/
theorem feedInLengthFollowsLen : Obligations.FeedInLengthFollowsLen := by
  intro s b hd
  rw [apply_ite Host.Outcome.next, apply_ite Host.Outcome.next]
  simp only [exec, execDfrFeed, hd]
  rfl

/-- Settles O20: the byte is stored after the bytes received, which then are the frame's if it was the last. -/
theorem feedInBodyStoresAndEmits : Obligations.FeedInBodyStoresAndEmits := by
  intro s e r b pre hd _ he hr hpre
  refine ⟨memWrite s.fb r b, fun a => ?_, fun hmore => exec_dfrFeed_more b hd (by omega) hmore, ?_⟩
  · rw [memRead_memWrite, if_congr eq_comm rfl rfl]
  · rintro rfl
    obtain ⟨hlen, -⟩ := memReadAll_eq_some.mp hpre
    have hpayload : (frameOf (pre ++ [b])).payload.length = r + 1 - 5 := by
      simp [frameOf, Config.hdrLen, hlen]
    refine ⟨frameOf (pre ++ [b]), half_toNat .., half_toNat .., rfl, rfl, ?_⟩
    rw [← hpayload]
    exact exec_dfrFeed_last b hd (by omega) hpre

/-! ### Bytes that give no frame -/

theorem feedAll_nil (s : State) : feedAll [] s = .next s := rfl

/-- Settles O22: the pattern leads to `LENGTH`, and the short length back to `SYNC(0)`. -/
theorem shortLengthResyncs : Obligations.ShortLengthResyncs := by
  intro s len hd hlen
  rw [feedAll_cons (feedInSyncFollowsTable s 0 0x22 hd), feedAll_cons (feedInSyncFollowsTable _ 1 0x69 rfl),
    feedAll_cons (feedInLengthFollowsLen _ len rfl), if_pos hlen]
  simp [feedAll_nil, responded]

/-- The length of the run of `0x22` that ends a byte string (R136). -/
def trailingRun (g : Bytes) : Nat := (g.reverse.takeWhile (· == 0x22)).length

theorem trailingRun_concat (g : Bytes) (b : Byte) :
    trailingRun (g ++ [b]) = if b = 0x22 then trailingRun g + 1 else 0 := by
  rw [trailingRun, List.reverse_concat, List.takeWhile_cons, if_congr beq_iff_eq rfl rfl, apply_ite List.length]
  rfl

/-- Bytes that end in a run of `0x22` that is not empty have `0x22` last. -/
theorem getLast?_of_trailingRun {g : Bytes} (h : trailingRun g ≠ 0) : g.getLast? = some 0x22 := by
  cases g using List.reverseRecOn with
  | nil => exact absurd rfl h
  | append_singleton g b =>
    rw [trailingRun_concat] at h
    obtain ⟨rfl, -⟩ := ite_ne_right_iff.mp h
    exact List.getLast?_concat

/-- `0x69` never follows `0x22` (R136). -/
def patternFree (g : Bytes) : Prop := ∀ i : Nat, g[i]? = some (0x22 : Byte) → g[i + 1]? ≠ some (0x69 : Byte)

theorem getElem?_append_of_eq_some {xs ys : Bytes} {i : Nat} {b : Byte} (h : xs[i]? = some b) :
    (xs ++ ys)[i]? = some b := by
  obtain ⟨hi, -⟩ := List.getElem?_eq_some_iff.mp h
  rwa [List.getElem?_append_left hi]

theorem patternFree_of_concat {g : Bytes} {b : Byte} (h : patternFree (g ++ [b])) : patternFree g :=
  fun i hi hnext => h i (getElem?_append_of_eq_some hi) (getElem?_append_of_eq_some hnext)

theorem ne_of_patternFree_concat {g : Bytes} {b : Byte} (h : patternFree (g ++ [b])) (hrun : trailingRun g ≠ 0) :
    b ≠ 0x69 := by
  obtain ⟨g, rfl⟩ := List.getLast?_eq_some_iff.mp (getLast?_of_trailingRun hrun)
  rintro rfl
  exact h g.length (by simp) (by simp)

/-- Where the search stands after bytes without the pattern: every second `0x22` of a run is taken for a mismatch
(R131, R135). -/
def searchAfter (g : Bytes) : Fin 2 := if trailingRun g % 2 = 0 then 0 else 1

/-- One more byte without the pattern moves the search as its table has it (R131). -/
theorem searchAfter_concat {g : Bytes} {b : Byte} (h : patternFree (g ++ [b])) :
    (if searchAfter g = 0 then (if b = 0x22 then Dfr.sync 1 else .sync 0)
      else (if b = 0x69 then .length else .sync 0)) = .sync (searchAfter (g ++ [b])) := by
  rw [searchAfter, searchAfter, trailingRun_concat]
  by_cases heven : trailingRun g % 2 = 0
  · have hodd : (trailingRun g + 1) % 2 ≠ 0 := by omega
    rw [if_pos heven, if_pos rfl]
    by_cases hb : b = 0x22
    · rw [if_pos hb, if_pos hb, if_neg hodd]
    · rw [if_neg hb, if_neg hb]
      rfl
  · have hb : b ≠ 0x69 := ne_of_patternFree_concat h fun h0 => heven (by rw [h0])
    have hback : (if b = 0x22 then trailingRun g + 1 else 0) % 2 = 0 := by split <;> omega
    rw [if_neg heven, if_neg (by decide), if_neg hb, if_pos hback]

/-- Bytes without the pattern, fed from `SYNC(0)`, move the search and give NONE each, and nothing else changes but that
no operation waits after the first (R136). -/
theorem feedAll_patternFree {s : State} {g : Bytes} (hd : s.dfr = .sync 0) (hg : patternFree g) :
    ∃ p, feedAll g s = .next { s with dfr := .sync (searchAfter g), pending := p,
                                      responses := s.responses ++ List.replicate g.length [0x00, 0x00] } := by
  induction g using List.reverseRecOn with
  | nil => exact ⟨s.pending, by simp [feedAll_nil, searchAfter, trailingRun, ← hd]⟩
  | append_singleton g b ih =>
    obtain ⟨p, hfeed⟩ := ih (patternFree_of_concat hg)
    refine ⟨none, ?_⟩
    rw [feedAll_append [b] hfeed, feedAll_cons (feedInSyncFollowsTable _ (searchAfter g) b rfl), searchAfter_concat hg]
    simp [feedAll_nil, responded, List.replicate_succ']

/-- Settles O23: the search after the bytes is known by induction on them, from their end, where the run of `0x22`
grows. -/
theorem garbageIsSkipped : Obligations.GarbageIsSkipped := by
  intro s g hd hg
  obtain ⟨p, hfeed⟩ := feedAll_patternFree hd hg
  exact ⟨_, hfeed, rfl, rfl, ⟨fun _ => rfl, rfl, rfl, rfl⟩, fun _ => rfl, rfl, fun _ => rfl⟩

end Sys2Proof.Machine
end

section
/-! PROOFS of `msg.decode`: what each destination and each reply code answers (41_deframer.md R141 to R149). -/

namespace Sys2Proof.Machine

/-- The decode of a payload that has a count whose message is known (R141). -/
theorem exec_msgDecode {dest : Byte} {data : Bytes} {m : Except ParseError Message} (h : data.length ≤ 65535)
    (hm : messageOf dest data = m) (s : State) :
    exec (.msgDecode dest data) s = .next (responded s (responseBytes (messageResponse m))) :=
  hm ▸ execMsgDecode_eq h s

/-- Settles O26: the response is that of the decoded message. -/
theorem messageDecodeIsPure : Obligations.MessageDecodeIsPure :=
  fun _ _ h => ⟨_, exec_msgDecode h rfl⟩

/-! ### Reply codes and destinations -/

/-- The decode of a LOCAL payload that begins with a reply code (R142). -/
theorem exec_msgDecode_reply {c : Byte} {sub : Bytes} {m : Except ParseError Message} (h : sub.length < 65535)
    (hm : localDecode (c :: sub) = m) (s : State) :
    exec (.msgDecode 0x01 (c :: sub)) s = .next (responded s (responseBytes (messageResponse m))) :=
  exec_msgDecode (data := c :: sub) h ((if_pos rfl).trans hm) s

/-- A telemetry reply with all its bytes (R145). -/
theorem localDecode_telemetry {sub : Bytes} (h : 62 ≤ sub.length) :
    localDecode (0x18 :: sub) = .ok (.telemetry (telemetryOf sub)) :=
  if_neg (Nat.not_lt.mpr h)

/-- A telemetry reply that is too short (R146). -/
theorem localDecode_telemetryShort {sub : Bytes} (h : sub.length < 62) :
    localDecode (0x18 :: sub) = .error .telemetryShort :=
  if_pos h

/-- A reply whose code has no meaning (R144). -/
theorem localDecode_unknown {c : Byte} (sub : Bytes) (hack : c ≠ 0x10) (hnack : c ≠ 0xFF) (htelem : c ≠ 0x18) :
    localDecode (c :: sub) = .ok (.unknown c) :=
  (if_neg hack).trans ((if_neg hnack).trans (if_neg htelem))

/-- Settles O27: each code by its arm of the decode. -/
theorem localDecodeFollowsCodes : Obligations.LocalDecodeFollowsCodes := by
  intro s c sub hcount
  refine ⟨exec_msgDecode (Nat.zero_le _) rfl s, ?_, ?_, ?_, ?_, fun hack hnack htelem => ?_⟩
  · rintro rfl
    exact exec_msgDecode_reply hcount (m := .ok .ack) rfl s
  · rintro rfl
    exact exec_msgDecode_reply hcount (m := .ok .nack) rfl s
  · rintro rfl hshort
    exact exec_msgDecode_reply hcount (localDecode_telemetryShort hshort) s
  · rintro rfl hlong
    exact exec_msgDecode_reply hcount (localDecode_telemetry hlong) s
  · exact exec_msgDecode_reply hcount (localDecode_unknown sub hack hnack htelem) s

/-- Settles O29: the dispatch on the destination. -/
theorem relayAndUnknownDestinations : Obligations.RelayAndUnknownDestinations := by
  intro s dest data hcount
  refine ⟨?_, fun hlocal hrelay => ?_, exec_msgDecode_reply (by decide) rfl s⟩
  · rw [exec_msgDecode hcount (m := .ok (.relay data)) rfl s]
    simp only [messageResponse, responseBytes, messageBytes, countBytes_eq, List.cons_append]
  · exact exec_msgDecode hcount ((if_neg hlocal).trans (if_neg hrelay)) s

/-! ### Telemetry -/

theorem slice_cons {xs : Bytes} {i j : Nat} (hij : i < j) (hi : i < xs.length) :
    slice xs i j = byteAt xs i :: slice xs (i + 1) j := by
  have htake : i < (xs.take j).length := by rw [List.length_take]; omega
  rw [slice, List.drop_eq_getElem_cons htake, List.getElem_take, byteAt, List.getD_eq_getElem _ _ hi]
  rfl

theorem slice_self (xs : Bytes) (i : Nat) : slice xs i i = [] :=
  List.drop_eq_nil_of_le (List.length_take_le ..)

/-- The bytes of a little-endian word of a byte string are those it was read from (00_scope.md R11). -/
theorem wordBytes_le32 {xs : Bytes} {i : Nat} (h : i + 4 ≤ xs.length) :
    wordBytes (le32 xs i) = slice xs i (i + 4) := by
  rw [le32, wordBytes_word, slice_cons (by omega) (by omega), slice_cons (by omega) (by omega),
    slice_cons (by omega) (by omega), slice_cons (by omega) (by omega), slice_self]

/-- A byte read as two's complement is reported as that byte (R145). -/
theorem ofInt_sext8 (b : Byte) : BitVec.ofInt 8 (sext8 b) = b := by
  revert b; decide

/-- Settles O28: the sample is `telemetryOf`, whose words are sums of their bytes, and the response holds the bytes
again. -/
theorem telemetryFieldsFollowLayout : Obligations.TelemetryFieldsFollowLayout := by
  intro s sub hlong hcount n32
  refine ⟨telemetryOf sub, localDecode_telemetry hlong, word_toNat .., rfl, rfl, word_toNat .., word_toNat ..,
    word_toNat .., ?_, ?_⟩
  · rw [telemetryOf, BitVec.toNat_add]
    exact congrArg₂ (fun a b => (a + b) % 2 ^ 32) (word_toNat ..) (word_toNat ..)
  · have hword (i : Nat) (hi : i + 4 ≤ 62) : slice sub i (i + 4) = wordBytes (le32 sub i) :=
      (wordBytes_le32 (hi.trans hlong)).symm
    rw [exec_msgDecode_reply hcount (localDecode_telemetry hlong) s, hword 0 (by decide), hword 38 (by decide),
      hword 46 (by decide), hword 50 (by decide)]
    simp only [messageResponse, responseBytes, messageBytes, telemetryOf, ofInt_sext8, List.cons_append,
      List.nil_append]

end Sys2Proof.Machine
end

section
/-! PROOFS of the rounds of a send (42_encoder.md R161 to R165): what the first write offers, what the sink has accepted
after good rounds, and how the last round ends the send. -/

namespace Sys2Proof.Machine

/-! ### Good rounds -/

theorem goodRounds_concat (rest : Bytes) (ks : List Nat) (k : Nat) :
    goodRounds rest (ks ++ [k]) = goodRounds rest ks ++
      [.write (rest.drop ks.sum), .writeReply (.ok k), .flush, .flushReply .ok] := by
  induction ks generalizing rest with
  | nil => rfl
  | cons n ks ih => simp [goodRounds, ih, List.drop_drop]

/-- The accepted parts of good rounds are, in order, what the counts add up to of the bytes to be sent (R163). -/
theorem acceptedBytes_goodRounds (rest : Bytes) (ks : List Nat) :
    acceptedBytes (goodRounds rest ks) = rest.take ks.sum := by
  induction ks generalizing rest with
  | nil => rfl
  | cons k ks ih =>
    calc acceptedBytes (goodRounds rest (k :: ks))
        = rest.take k ++ acceptedBytes (goodRounds (rest.drop k) ks) := by simp [goodRounds, acceptedBytes]
      _ = rest.take k ++ (rest.drop k).take ks.sum := by rw [ih]
      _ = rest.take (k :: ks).sum := by rw [List.sum_cons, List.take_add]

/-! ### The last round -/

/-- A failed write ends the send with its error code (R164). -/
theorem writeLoop_of_err (seq : Half) (rest : Bytes) {s : State} {e : Byte} {ws : List WriteReply}
    (hw : s.writeReplies = .err e :: ws) :
    writeLoop seq rest s = .next (responded (s.tookWrite (.err e) ws) [0x04, e]) := by
  rw [writeLoop, hw]
  rfl

/-- A failed flush ends the send with its error code, whatever is left to be written (R165). -/
theorem flushLoop_of_err (seq : Half) (rest : Bytes) {s : State} {e : Byte} {fs : List FlushReply}
    (hf : s.flushReplies = .err e :: fs) :
    flushLoop seq rest s = .next (responded (s.tookFlush (.err e) fs) [0x04, e]) := by
  simp only [flushLoop, awaitFlush, hf]
  rfl

/-- A good flush with nothing left to be written ends the send with OK and the frame's seq (R163). -/
theorem flushLoop_nil_of_ok (seq : Half) {s : State} {fs : List FlushReply} (hf : s.flushReplies = .ok :: fs) :
    flushLoop seq [] s = .next (responded (s.tookFlush .ok fs) [0x00, lo seq, hi seq]) := by
  simp only [flushLoop, awaitFlush, hf]
  rfl

section
variable {s : State} {i : Instr} {dest : Byte} {data : Bytes} {ks : List Nat} {ws : List WriteReply}
  {fs : List FlushReply}

/-- After good rounds that leave bytes to write, the unsent suffix has been offered and its reply is awaited (R163). -/
theorem exec_goodRounds (hi : legalSend s i dest data) (hk : ks.sum < data.length + 8)
    (hw : s.writeReplies = ks.map .ok ++ ws) (hf : s.flushReplies = List.replicate ks.length .ok ++ fs) :
    let frame := wireFrame s.cfg.hwid s.txSeq dest data
    exec i s = writeLoop s.txSeq (frame.drop ks.sum)
      { s with txSeq := s.txSeq + 1, writeReplies := ws, flushReplies := fs,
               traffic := s.traffic ++ goodRounds frame ks ++ [.write (frame.drop ks.sum)] } :=
  have ⟨hl, he⟩ := exec_of_legalSend hi
  he.trans (transmit_goodRounds hl hk hw hf)

/-- After good rounds and one more accepted write, that write's flush is awaited (R163). -/
theorem exec_goodRounds_write {k : Nat} (hi : legalSend s i dest data) (hk : ks.sum < data.length + 8)
    (hfits : ks.sum + k ≤ data.length + 8) (hw : s.writeReplies = ks.map .ok ++ .ok k :: ws)
    (hf : s.flushReplies = List.replicate ks.length .ok ++ fs) :
    let frame := wireFrame s.cfg.hwid s.txSeq dest data
    exec i s = flushLoop s.txSeq (frame.drop (ks.sum + k))
      { s with txSeq := s.txSeq + 1, writeReplies := ws, flushReplies := fs,
               traffic := s.traffic ++ goodRounds frame ks ++
                 [.write (frame.drop ks.sum), .writeReply (.ok k), .flush] } := by
  intro frame
  have hle : k ≤ (frame.drop ks.sum).length := by
    rw [List.length_drop, wireFrame_length]
    omega
  rw [exec_goodRounds hi hk hw hf, writeLoop_of_ok _ _ hle rfl, List.drop_drop]
  simp only [State.tookWrite, State.log, List.append_assoc, List.cons_append, List.nil_append, frame]

end

/-! ### The statements -/

/-- Settles O33: the last round leaves nothing to be written, and the counts add up to the frame. -/
theorem shortWritesAddUpToFrame : Obligations.ShortWritesAddUpToFrame := by
  intro s dest data ks k ws fs hl hc hk hsum hw hf
  have hlen := wireFrame_length s.cfg.hwid s.txSeq dest data
  have hflush : s.flushReplies = List.replicate ks.length .ok ++ .ok :: fs := by
    rw [hf, List.replicate_succ', List.append_assoc]
    rfl
  refine ⟨?_, ?_⟩
  · rw [exec_goodRounds_write (.inl ⟨rfl, hl, hc⟩) hk hsum.le hw hflush, hsum, ← hlen, List.drop_length,
      flushLoop_nil_of_ok _ rfl, goodRounds_concat]
    simp [State.tookFlush]
  · rw [acceptedBytes_goodRounds, List.sum_append, List.sum_singleton, hsum, ← hlen, List.take_length]

/-- Settles O31: the send goes on from the state with the counter advanced and the frame offered, and then only adds to
the traffic. -/
theorem sendBuildsFrameAndAdvancesCounter : Obligations.SendBuildsFrameAndAdvancesCounter := by
  intro s i dest data hlegal
  refine ⟨wireFrame_length .., ?_⟩
  rcases exec_legalSend_cases hlegal with hrefused | ⟨t, he, effect⟩
  · exact .inr hrefused
  · obtain ⟨es, hes⟩ := effect.traffic
    exact .inl ⟨t, es, he, effect.txSeq, hes.trans (by simp [State.log, State.bumped])⟩

/-- Settles O34: the loop takes the failed write after the good rounds. -/
theorem writeFailureEndsSend : Obligations.WriteFailureEndsSend := by
  intro s dest data ks e ws fs hl hc hk hw hf
  rw [exec_goodRounds (.inl ⟨rfl, hl, hc⟩) hk hw hf, writeLoop_of_err _ _ rfl]
  simp [State.tookWrite]

/-- Settles O35: the loop takes the failed flush after the good rounds and the accepted write. -/
theorem flushFailureEndsSend : Obligations.FlushFailureEndsSend := by
  intro s dest data ks k e ws fs hl hc hk hfits hw hf
  rw [exec_goodRounds_write (.inl ⟨rfl, hl, hc⟩) hk hfits hw hf, flushLoop_of_err _ _ rfl]
  simp [State.tookFlush]

/-- Settles O30: the length check comes before the frame. -/
theorem overlongPayloadIsRejected : Obligations.OverlongPayloadIsRejected := by
  intro s dest data hlong hc
  rcases transmit_cases dest data s with ⟨-, he⟩ | ⟨hl, -⟩
  · exact (execTxSend_eq hc s).trans he
  · exact absurd hlong (Nat.not_lt.mpr hl)

end Sys2Proof.Machine
end

section
/-! PROOFS of what one CAN frame answers and leaves in the table, outcome by outcome, and that no other operation takes
an entry from it (43_can_reassembler.md R181 to R193, 70_reset_and_hazards.md R243). -/

namespace Sys2Proof.Machine

/-! ### The announced size and the lookup -/

theorem offerFragment_of_size_le {f : Fragment} {s : State} (h : f.seqLen * 5 ≤ s.cfg.maxPacket) :
    offerFragment f s = lookup f s := if_neg (Nat.not_lt.mpr h)

theorem lookup_of_entry {f : Fragment} {s : State} {buf : Bytes} (h : canGet s.canTable f.src = some buf) :
    lookup f s = restart f buf s := by
  simp only [lookup, h]

theorem lookup_of_full {f : Fragment} {s : State} (hnew : canGet s.canTable f.src = none)
    (hfull : s.canTable.length = s.cfg.numSources) : lookup f s = .next (responded s [0x09]) := by
  simp only [lookup, hnew, if_pos hfull]
  rfl

/-- Settles O40: step 1 comes before the table is looked at. -/
theorem nonFragmentIsRejected : Obligations.NonFragmentIsRejected := by
  intro s ide rtr id dlc data hm hkind
  show execCanRx ide rtr 0 id dlc data s = _
  rw [execCanRx, guardOperands_eq, hm, if_neg Bool.false_ne_true, receive, if_pos hkind]
  rfl

/-- Settles O41: step 2 comes before the table is looked at, and step 3 needs a free slot. -/
theorem announcedSizeThenFreeSlot : Obligations.AnnouncedSizeThenFreeSlot := by
  intro s id sn rv sl payload h29 h1 h5
  rw [execCanRx_fragment h29 h1 h5]
  exact ⟨fun hlong => if_pos hlong, fun hsize hnew hfull =>
    (offerFragment_of_size_le hsize).trans (lookup_of_full hnew hfull)⟩

/-! ### What is left in the table -/

theorem canGet_canSet (t : CanTable) (src : Nat) (buf : Bytes) (k : Nat) :
    canGet (canSet t src buf) k = if k = src then some buf else canGet t k := by
  split
  next hk => rw [hk, canGet_canSet_self]
  next hk => exact canGet_canSet_of_ne t buf hk

theorem canGet_canErase {t : CanTable} (ht : keysRising t) (src k : Nat) :
    canGet (canErase t src) k = if k = src then none else canGet t k := by
  split
  next hk => rw [hk, canGet, canErase, keyGet_keyErase ht, if_pos rfl]
  next hk => exact canGet_canErase_of_ne ht hk

/-- Setting the source's buffer undoes what step 3 and step 4 did to its entry. -/
theorem canSet_of_restarted {t t' : CanTable} {src : Nat} (ht : t' = t ∨ t' = canSet t src []) (buf : Bytes) :
    canSet t' src buf = canSet t src buf := by
  rcases ht with rfl | rfl
  · rfl
  · exact canSet_canSet ..

/-! ### The outcomes of the order check, in the table `t` that step 3 and step 4 leave -/

section
variable {f : Fragment} {buf : Bytes} {s : State} {t : CanTable}

theorem orderCheck_behind (h : f.seqNum < buf.length / 5) :
    orderCheck f buf s = .next (responded s [0x00, 0x00]) := (if_neg h.ne).trans (if_pos h)

theorem orderCheck_overfull (hseq : f.seqNum = buf.length / 5)
    (hover : buf.length + f.payload.length > s.cfg.maxPacket) :
    orderCheck f buf s = .next (responded s [0x08]) := (if_pos hseq).trans (if_pos hover)

theorem orderCheck_appended (ht : t = s.canTable ∨ t = canSet s.canTable f.src []) (hseq : f.seqNum = buf.length / 5)
    (hfits : buf.length + f.payload.length ≤ s.cfg.maxPacket) (hmore : f.seqNum < f.seqLen) :
    orderCheck f buf (s.setCan t) = .next (s.collected f.src (buf ++ f.payload)) := by
  rw [State.collected, ← canSet_of_restarted ht]
  exact (if_pos hseq).trans ((if_neg (Nat.not_lt.mpr hfits)).trans (if_neg (Nat.not_le.mpr hmore)))

theorem orderCheck_ahead (ht : t = s.canTable ∨ t = canSet s.canTable f.src []) (h : buf.length / 5 < f.seqNum) :
    orderCheck f buf (s.setCan t) =
      .next (responded { s with canTable := canSet s.canTable f.src [] } [0x0A]) := by
  rw [← canSet_of_restarted ht]
  exact (if_neg h.ne').trans (if_neg h.not_gt)

end

/-! ### The order check of an acceptable fragment -/

/-- The fields of a fragment of 30_encoding.md R77 (R182). -/
def fieldsIn (s : State) (id : Word) (sn sl : Byte) (payload : Bytes) : Fragment where
  src := sourceIn s id
  seqNum := sn.toNat
  seqLen := sl.toNat
  payload := payload

section
variable {s : State} {id : Word} {sn rv sl : Byte} {payload : Bytes}

theorem checkedBuffer_fieldsIn :
    checkedBuffer (fieldsIn s id sn sl payload) ((canGet s.canTable (sourceIn s id)).getD []) =
      currentBuffer s id sn := by
  simp only [checkedBuffer, fieldsIn, currentBuffer, BitVec.toNat_eq]
  rfl

/-- An acceptable fragment is checked against the current buffer, in a table in which only its source's entry may
differ (R183 to R185). -/
theorem exec_acceptable_fragment (h : acceptable s id sl payload) :
    ∃ t, (t = s.canTable ∨ t = canSet s.canTable (sourceIn s id) []) ∧
      exec (fragmentFrame id sn rv sl payload) s =
        orderCheck (fieldsIn s id sn sl payload) (currentBuffer s id sn) (s.setCan t) := by
  obtain ⟨h29, h1, h5, hsize, hslot⟩ := h
  obtain ⟨t, ht, he⟩ := offerFragment_accepted (f := fieldsIn s id sn sl payload) hsize hslot
  refine ⟨t, ht, ?_⟩
  rw [execCanRx_fragment h29 h1 h5, ← checkedBuffer_fieldsIn]
  exact he

/-- Where the current buffer holds bytes, the source has its entry and does not restart, so the table comes to the order
check as it was. -/
theorem exec_fragment_of_currentBuffer_ne_nil (h : acceptable s id sl payload) (hne : currentBuffer s id sn ≠ []) :
    exec (fragmentFrame id sn rv sl payload) s =
      orderCheck (fieldsIn s id sn sl payload) (currentBuffer s id sn) s := by
  obtain ⟨h29, h1, h5, hsize, -⟩ := h
  by_cases hsn : sn = 0
  · exact absurd (if_pos hsn) hne
  · have hbuf : currentBuffer s id sn = (canGet s.canTable (sourceIn s id)).getD [] := if_neg hsn
    have hseq : ¬ sn.toNat = 0 := fun h0 => hsn (BitVec.eq_of_toNat_eq h0)
    cases hentry : canGet s.canTable (sourceIn s id) with
    | none => exact absurd (by rw [hbuf, hentry]; rfl) hne
    | some buf =>
      rw [execCanRx_fragment h29 h1 h5, offerFragment_of_size_le hsize, lookup_of_entry hentry, hbuf, hentry]
      exact if_neg hseq

end

/-- Settles O42: the fragment is in order, fits and is not the last. -/
theorem inOrderFragmentIsAppended : Obligations.InOrderFragmentIsAppended := by
  intro s id sn rv sl payload h hseq hfits hmore
  obtain ⟨t, ht, he⟩ := exec_acceptable_fragment h
  exact ⟨_, he.trans (orderCheck_appended ht hseq hfits hmore), canGet_canSet _ _ _⟩

/-- Settles O43: the fragment is in order, fits and is the last. -/
theorem lastFragmentCompletes : Obligations.LastFragmentCompletes := by
  rintro s id sn rv sl payload _ hrising h hseq rfl hfits hlast
  refine ⟨canErase s.canTable (sourceIn s id), ?_, canGet_canErase hrising _⟩
  rw [exec_fragment_inOrder hrising h rfl hseq (List.length_append ▸ hfits), if_pos hlast, State.completed,
    countBytes_eq]
  rfl

/-- Settles O44: a fragment can only be behind a buffer that holds bytes. -/
theorem duplicateIsIgnored : Obligations.DuplicateIsIgnored := by
  intro s id sn rv sl payload h hbehind
  have hne : currentBuffer s id sn ≠ [] := fun hnil => by simp [hnil] at hbehind
  exact (exec_fragment_of_currentBuffer_ne_nil h hne).trans (orderCheck_behind hbehind)

/-- Settles O45: the fragment is neither in order nor behind. -/
theorem gapEmptiesEntry : Obligations.GapEmptiesEntry := by
  intro s id sn rv sl payload h hahead
  obtain ⟨t, ht, he⟩ := exec_acceptable_fragment h
  exact ⟨_, he.trans (orderCheck_ahead ht hahead), canGet_canSet _ _ _⟩

/-- Settles O46: a fragment's five bytes fit an empty buffer, so the source's buffer holds bytes. -/
theorem overfullAppendChangesNothing : Obligations.OverfullAppendChangesNothing := by
  intro s id sn rv sl payload hvalid h hseq hover
  have hne : currentBuffer s id sn ≠ [] := fun hnil => by
    obtain ⟨-, -, ⟨hmax, -⟩, -⟩ := hvalid
    obtain ⟨-, -, h5, -, -⟩ := h
    rw [hnil, List.length_nil] at hover
    omega
  exact (exec_fragment_of_currentBuffer_ne_nil h hne).trans (orderCheck_overfull hseq hover)

/-! ### Entries of the table -/

theorem exec_canTable_of_ne_canRx {i : Instr} {s t : State}
    (hi : ∀ ide rtr rsv id dlc data, i ≠ .canRx ide rtr rsv id dlc data) (h : exec i s = .next t) :
    t.canTable = s.canTable := by
  obtain ⟨u, -, rfl⟩ := eq_next_of_onNext ((besideCan_exec hi s s.canTable [] s.pending).symm.trans h)
  rfl

theorem canGet_canSet_ne_none {t : CanTable} {k : Nat} (h : canGet t k ≠ none) (src : Nat) (buf : Bytes) :
    canGet (canSet t src buf) k ≠ none := by
  rw [canGet_canSet]
  split
  · exact Option.some_ne_none buf
  · exact h

/-- Settles O49: only a CAN frame changes the table, one of another source keeps the entry, and of the source's own
frames only the one that completes its message removes it. -/
theorem entriesLeaveOnlyByCompletion : Obligations.EntriesLeaveOnlyByCompletion := by
  intro i s t k hrising h hbefore hafter
  have hentry : canGet s.canTable k ≠ none := Option.isSome_iff_ne_none.mp hbefore
  by_cases hi : ∀ ide rtr rsv id dlc data, i ≠ .canRx ide rtr rsv id dlc data
  · exact absurd (exec_canTable_of_ne_canRx hi h ▸ hafter) hentry
  · push Not at hi
    obtain ⟨ide, rtr, rsv, id, dlc, data, rfl⟩ := hi
    have hsource : sourceIn s id = k := by
      by_contra hother
      obtain ⟨-, -, -, -, -, hkept⟩ := canFrames s t ide rtr rsv id dlc data h
      exact hentry ((hkept hrising k (Ne.symm hother)).symm.trans hafter)
    obtain ⟨tbl, resp, he, htbl⟩ := execCanRx_cases ide rtr rsv id dlc data s
    cases he.symm.trans h
    rcases htbl with rfl | ⟨buf, rfl⟩ | ⟨-, m, rfl⟩
    · exact absurd hafter hentry
    · exact absurd hafter (canGet_canSet_ne_none hentry _ buf)
    · exact ⟨ide, rtr, rsv, id, dlc, data, m, rfl, hsource, rfl⟩

end Sys2Proof.Machine
end

section
/-! PROOFS of a step without input: with no request the block is idle (70_reset_and_hazards.md R231; log 1), and an
operation without its reply is stuck (60_exceptions.md R214, 70_reset_and_hazards.md R245; log 3). -/

namespace Sys2Proof.Machine

theorem step_of_no_request {s : State} (hp : s.pending = none) (hreq : s.requests = []) : step s = .next s := by
  simp only [step, hp, idle, hreq]

/-- Settles O3: an idle block stays as it is, and each missing reply is one case of `stuckIn`. -/
theorem stepWaitsWithoutInput : Obligations.StepWaitsWithoutInput := by
  intro s
  refine ⟨step_of_no_request, fun hp hr => ?read, fun rest seq hp hw => ?write, fun rest seq hp hf => ?flush⟩
  case read => exact step_of_stuckIn (.inl ⟨rfl, hp, hr⟩)
  case write => exact step_of_stuckIn (.inr (.inl ⟨rfl, ⟨rest, seq, hp⟩, hw⟩))
  case flush => exact step_of_stuckIn (.inr (.inr ⟨rfl, ⟨rest, seq, hp⟩, hf⟩))

end Sys2Proof.Machine
end
